-- ==== Sys2Proof/Word.lean ====
section
/-! DEFINITION. The word types of the SPECFFT core (00_scope.md R11, R12): 32-bit bus words, 24-bit length
operands, 16-bit PCM samples, and the pair of words that is a complex number. -/

namespace Sys2Proof

/-- One word of the bus: 32 bits (00_scope.md R11). A u32, an i32 or a binary32 pattern (10_state.md R23). -/
abbrev Word := BitVec 32

/-- The length operand of a CN command: 24 bits, unsigned (30_encoding.md R102, R103). -/
abbrev Len := BitVec 24

/-- A PCM sample: 16 bits, two's complement (10_state.md R53). -/
abbrev Sample := BitVec 16

/-- A complex value: a pair of binary32 patterns (00_scope.md R12). -/
structure Cplx where
  re : Word
  im : Word
  deriving DecidableEq, Repr

/-- A frame of the spectral history: `len` is the length of the list (10_state.md R57). -/
abbrev Frame := List Word

end Sys2Proof
end

