-- ==== Sys2Proof/Syntax.lean ====
section
/-! DEFINITION. The instructions: one constructor per row of spec/opcode_table.json, and the bus transaction that
carries each (30_encoding.md R104; 20_memory.md R71). -/

namespace Sys2Proof

/-- The operations of the block. The first eighteen are commands, delivered by a bus write to CMD; the last five
are bus operations selected by the address and the direction of the transaction (30_encoding.md R104). -/
inductive Instr where
  /-- WINGEN n (R161) -/
  | wingen (n : Len)
  /-- PCM2F n (R162) -/
  | pcm2f (n : Len)
  /-- WMUL n (R163) -/
  | wmul (n : Len)
  /-- XFORM n (R184) -/
  | xform (n : Len)
  /-- MAGN n (R203) -/
  | magn (n : Len)
  /-- ZOOM (R205) -/
  | zoom
  /-- SELECT (R206) -/
  | select
  /-- BUILD (R207) -/
  | build
  /-- HPUSH (R231) -/
  | hpush
  /-- HSNAP (R233) -/
  | hsnap
  /-- WWRITE n (R251) -/
  | wwrite (n : Len)
  /-- WSNAP (R252) -/
  | wsnap
  /-- TICK (R266) -/
  | tick
  /-- F2BIN (R268) -/
  | f2bin
  /-- BIN2F (R269) -/
  | bin2f
  /-- START (R291) -/
  | start
  /-- STOP (R292) -/
  | stop
  /-- CYCLE (R293) -/
  | cycle
  /-- Bus write of `v` to FFT_SIZE (R30) -/
  | wrFftSize (v : Word)
  /-- Bus write of `v` to MAX_HISTORY (R34, R232) -/
  | wrMaxHistory (v : Word)
  /-- Bus write of `v` to SPEC_LEN (R41) -/
  | wrSpecLen (v : Word)
  /-- Generic bus write (R297) -/
  | wr (addr data : Word)
  /-- Bus read (R298) -/
  | rd (addr : Word)
  deriving DecidableEq, Repr

/-- A bus transaction (20_memory.md R71). -/
inductive Txn where
  | read (addr : Word)
  | write (addr data : Word)
  deriving DecidableEq, Repr

/-- What the outside world does to the block, in bus order: a transaction, or the Reset event, which falls between
two transactions (70_reset_and_hazards.md R370). -/
inductive BusInput where
  | txn (t : Txn)
  | reset
  deriving DecidableEq, Repr

/-- Word address of CMD (10_state.md R21). -/
abbrev addrCmd : Word := 0x00000000#32
/-- Word address of FFT_SIZE (10_state.md R21). -/
abbrev addrFftSize : Word := 0x00000005#32
/-- Word address of MAX_HISTORY (10_state.md R21). -/
abbrev addrMaxHistory : Word := 0x00000008#32
/-- Word address of SPEC_LEN (10_state.md R21). -/
abbrev addrSpecLen : Word := 0x00000010#32

end Sys2Proof
end

