-- ==== Sys2Proof/WellFormed.lean ====
section
/-! DEFINITION. Which instructions a bus transaction can stand for. The only restriction is on the generic write:
the four addresses with rows of their own are not generic (30_encoding.md R104: "the specific addresses take
priority over the generic rows"). -/

namespace Sys2Proof

/-- The instruction is one that the decoder can give. -/
def Instr.wf : Instr → Bool
  | .wr addr _ => addr != addrCmd && addr != addrFftSize && addr != addrMaxHistory && addr != addrSpecLen
  | .wingen _ | .pcm2f _ | .wmul _ | .xform _ | .magn _ | .zoom | .select | .build | .hpush | .hsnap
  | .wwrite _ | .wsnap | .tick | .f2bin | .bin2f | .start | .stop | .cycle
  | .wrFftSize _ | .wrMaxHistory _ | .wrSpecLen _ | .rd _ => true

end Sys2Proof
end

