-- ==== Sys2Proof/Decode.lean ====
section
/-! DEFINITION. Decoding a bus transaction (30_encoding.md R100 to R107) and encoding an instruction as one.
The block has no bytes and fetches nothing (20_memory.md R77, R85): what is decoded is one transaction, its
direction, its address and, for a write, its data word. -/

namespace Sys2Proof

/-- What the decoder answers: an instruction, or the reason why the command word is illegal (30_encoding.md R105,
R107: the opcode is looked at first, then the ZERO field). -/
inductive Decoded where
  | ok (i : Instr)
  /-- OPC is 0x00 or in 0x13 .. 0xFF (R105 a). -/
  | illegalOpcode (w : Word)
  /-- A C0 command whose bits 23:0 are not zero (R105 b). -/
  | nonzeroField (w : Word)
  deriving DecidableEq, Repr

/-- OPC = word[31:24] (30_encoding.md R101, R102). -/
def opcOf (w : Word) : BitVec 8 := w.extractLsb' 24 8

/-- N or ZERO = word[23:0] (30_encoding.md R101, R102). -/
def lenOf (w : Word) : Len := w.extractLsb' 0 24

/-- A C0 command: its ZERO field must be 0 (30_encoding.md R101, R105 b). -/
def decodeC0 (w : Word) (i : Instr) : Decoded := if lenOf w = 0#24 then .ok i else .nonzeroField w

/-- The opcode map of 30_encoding.md R104, for a word written to CMD. -/
def decodeCommand (w : Word) : Decoded :=
  match (opcOf w).toNat with
  | 0x01 => .ok (.wingen (lenOf w))
  | 0x02 => .ok (.pcm2f (lenOf w))
  | 0x03 => .ok (.wmul (lenOf w))
  | 0x04 => .ok (.xform (lenOf w))
  | 0x05 => .ok (.magn (lenOf w))
  | 0x06 => decodeC0 w .zoom
  | 0x07 => decodeC0 w .select
  | 0x08 => decodeC0 w .build
  | 0x09 => decodeC0 w .hpush
  | 0x0A => decodeC0 w .hsnap
  | 0x0B => .ok (.wwrite (lenOf w))
  | 0x0C => decodeC0 w .wsnap
  | 0x0D => decodeC0 w .tick
  | 0x0E => decodeC0 w .f2bin
  | 0x0F => decodeC0 w .bin2f
  | 0x10 => decodeC0 w .start
  | 0x11 => decodeC0 w .stop
  | 0x12 => decodeC0 w .cycle
  | _ => .illegalOpcode w

/-- A bus write: the four addresses with rows of their own first, then the generic row (30_encoding.md R104). -/
def decodeWrite (addr data : Word) : Decoded :=
  if addr = addrCmd then decodeCommand data
  else if addr = addrFftSize then .ok (.wrFftSize data)
  else if addr = addrMaxHistory then .ok (.wrMaxHistory data)
  else if addr = addrSpecLen then .ok (.wrSpecLen data)
  else .ok (.wr addr data)

/-- The decoder, total on every transaction. -/
def decode : Txn → Decoded
  | .read addr => .ok (.rd addr)
  | .write addr data => decodeWrite addr data

/-- A command word: OPC in the top byte, the operand below it (30_encoding.md R101, R102, R104). -/
def commandWord (opc : BitVec 8) (n : Len) : Word := opc ++ n

/-- The opcode of a command; a bus operation has none (30_encoding.md R104). -/
def opcodeOf : Instr → Option (BitVec 8)
  | .wingen _ => some 0x01#8
  | .pcm2f _ => some 0x02#8
  | .wmul _ => some 0x03#8
  | .xform _ => some 0x04#8
  | .magn _ => some 0x05#8
  | .zoom => some 0x06#8
  | .select => some 0x07#8
  | .build => some 0x08#8
  | .hpush => some 0x09#8
  | .hsnap => some 0x0A#8
  | .wwrite _ => some 0x0B#8
  | .wsnap => some 0x0C#8
  | .tick => some 0x0D#8
  | .f2bin => some 0x0E#8
  | .bin2f => some 0x0F#8
  | .start => some 0x10#8
  | .stop => some 0x11#8
  | .cycle => some 0x12#8
  | .wrFftSize _ | .wrMaxHistory _ | .wrSpecLen _ | .wr _ _ | .rd _ => none

/-- The transaction that delivers a command (30_encoding.md R108). -/
def encodeCommand (opc : BitVec 8) (n : Len) : Txn := .write addrCmd (commandWord opc n)

/-- The encoder: the transaction that an instruction is (30_encoding.md R104, R108). -/
def encode : Instr → Txn
  | .wingen n => encodeCommand 0x01#8 n
  | .pcm2f n => encodeCommand 0x02#8 n
  | .wmul n => encodeCommand 0x03#8 n
  | .xform n => encodeCommand 0x04#8 n
  | .magn n => encodeCommand 0x05#8 n
  | .zoom => encodeCommand 0x06#8 0#24
  | .select => encodeCommand 0x07#8 0#24
  | .build => encodeCommand 0x08#8 0#24
  | .hpush => encodeCommand 0x09#8 0#24
  | .hsnap => encodeCommand 0x0A#8 0#24
  | .wwrite n => encodeCommand 0x0B#8 n
  | .wsnap => encodeCommand 0x0C#8 0#24
  | .tick => encodeCommand 0x0D#8 0#24
  | .f2bin => encodeCommand 0x0E#8 0#24
  | .bin2f => encodeCommand 0x0F#8 0#24
  | .start => encodeCommand 0x10#8 0#24
  | .stop => encodeCommand 0x11#8 0#24
  | .cycle => encodeCommand 0x12#8 0#24
  | .wrFftSize v => .write addrFftSize v
  | .wrMaxHistory v => .write addrMaxHistory v
  | .wrSpecLen v => .write addrSpecLen v
  | .wr addr data => .write addr data
  | .rd addr => .read addr

/-- An address that a plain host write may store to, as far as the address map alone says: one of the seven plain
read-write registers of 47_pipeline_and_system.md R297, or a scratch region 1 to 8 (20_memory.md R74). Used only to
choose between the rows WR and RD for a table word (log 10). -/
def plainWriteAddr (a : Word) : Bool :=
  [0x04, 0x06, 0x09, 0x0A, 0x12, 0x13, 0x16].contains a.toNat ||
    (0x01000000 ≤ a.toNat && a.toNat < 0x09000000)

/-- The transaction a table word stands for (DESIGN CHOICE, log 10). The table numbers three different things with
the same 32 bits: a command word, the address of a write, the address of a read. A word that is a legal command
is that command; else an address with a write row of its own is that write; else an address a host may plainly
write is the generic write; every other word is the generic read. Bits 63:32, where given, are a write's data. -/
def tableTxn (nbits w : Nat) : Txn :=
  let v := w % 2 ^ nbits
  let first : Word := BitVec.ofNat 32 v
  let second : Word := BitVec.ofNat 32 (v / 2 ^ 32)
  match decodeCommand first with
  | .ok _ => .write addrCmd first
  | .illegalOpcode _ | .nonzeroField _ =>
    if first = addrFftSize || first = addrMaxHistory || first = addrSpecLen || plainWriteAddr first then
      .write first second
    else .read first

/-- The instruction the decoder reads from a table word (log 10). -/
def decodeTableWord (nbits w : Nat) : Option Instr :=
  match decode (tableTxn nbits w) with
  | .ok i => some i
  | .illegalOpcode _ | .nonzeroField _ => none

end Sys2Proof
end

