-- ==== Sys2Proof/Machine/Binary32.lean ====
section
/-! DEFINITION. The binary32 format (40_numerics.md R130, R131, R141, R147): the fields of a pattern, its
classes, its exact value, the comparisons, and the power-of-two test. Every finite pattern is an integer number of units of 2^-149, so exact
arithmetic is integer arithmetic. -/

namespace Sys2Proof.Machine

/-- Sign bit 31 (R130). -/
def fSign (w : Word) : Bool := w.msb

/-- Biased exponent, bits 30:23 (R130). -/
def fExp (w : Word) : Nat := w.toNat / 2 ^ 23 % 2 ^ 8

/-- Fraction, bits 22:0 (R130). -/
def fFrac (w : Word) : Nat := w.toNat % 2 ^ 23

/-- The pattern without its sign, bits 30:0. On patterns that are not NaN it orders the magnitudes. -/
def fMag (w : Word) : Nat := w.toNat % 2 ^ 31

/-- NaN: `e = 255` and `f != 0` (R130). -/
def isNaN (w : Word) : Bool := fExp w == 255 && fFrac w != 0

/-- Infinity of either sign: `e = 255` and `f = 0` (R130). -/
def isInf (w : Word) : Bool := fExp w == 255 && fFrac w == 0

/-- Zero, subnormal or normal (R130). -/
def isFinite (w : Word) : Bool := fExp w != 255

/-- Zero of either sign (R130). -/
def isZero (w : Word) : Bool := fMag w == 0

/-- Magnitude of a finite pattern in units of 2^-149: `f` for a subnormal, `(2^23 + f) * 2^(e-1)` for a normal
(R130, whose exponents are `-149` and `e-150`). -/
def units (w : Word) : Nat := if fExp w = 0 then fFrac w else (2 ^ 23 + fFrac w) * 2 ^ (fExp w - 1)

/-- The signed value of a finite pattern in units of 2^-149 (R130). -/
def signedUnits (w : Word) : Int := if fSign w then -(units w : Int) else (units w : Int)

/-- The exact value of a finite pattern (R130). -/
def value (w : Word) : Rat := (signedUnits w : Rat) / (2 ^ 149 : Rat)

/-- Puts a sign in front of a 31-bit magnitude pattern. -/
def ofMag (neg : Bool) (mag : Nat) : Word := BitVec.ofNat 32 (mag + if neg then 2 ^ 31 else 0)

/-- The magnitude pattern of infinity, 0x7F80_0000 (R130). -/
def infMag : Nat := 0x7F800000

/-- Infinity with a sign (R130). -/
def infinity (neg : Bool) : Word := ofMag neg infMag

/-- `-a`: flips bit 31. -/
def fneg (a : Word) : Word := a ^^^ 0x80000000#32

/-- `fabs(a)` clears bit 31 and is exact (R141). -/
def fabs (a : Word) : Word := a &&& 0x7FFFFFFF#32

/-- A key that orders the patterns that are not NaN by value; both zeros have key 0 (R141). -/
def fKey (w : Word) : Int := if fSign w then -(fMag w : Int) else (fMag w : Int)

/-- `a < b` (R141): false when an operand is a NaN. -/
def flt (a b : Word) : Bool := !isNaN a && !isNaN b && decide (fKey a < fKey b)

/-- `a > b` (R141). -/
def fgt (a b : Word) : Bool := flt b a

/-- `a <= b` (R141). -/
def fle (a b : Word) : Bool := !isNaN a && !isNaN b && decide (fKey a ≤ fKey b)

/-- `a = b` on values (R141): +0 and -0 are equal, a NaN equals nothing. -/
def feq (a b : Word) : Bool := !isNaN a && !isNaN b && decide (fKey a = fKey b)

/-- `+0.0` (R131). -/
abbrev f0 : Word := 0x00000000#32
/-- `-0.0` (R130). -/
abbrev fNeg0 : Word := 0x80000000#32
/-- `0.5` (R131). -/
abbrev fHalf : Word := 0x3F000000#32
/-- `1.0` (R131). -/
abbrev f1 : Word := 0x3F800000#32
/-- `2.0` (R131). -/
abbrev f2 : Word := 0x40000000#32
/-- `5.0` (R131). -/
abbrev f5 : Word := 0x40A00000#32
/-- `32768.0` (R131). -/
abbrev f32768 : Word := 0x47000000#32
/-- `TWO_PI32` (R142). -/
abbrev twoPi32 : Word := 0x40C90FDB#32
/-- `NEG_TWO_PI32` (R142). -/
abbrev negTwoPi32 : Word := 0xC0C90FDB#32
/-- The largest argument of R145, 6.2831860 (0x40C9_0FDC). -/
abbrev trigBound : Word := 0x40C90FDC#32

/-- `ispow2(v)`: `v = 2^e` for some `e >= 0` (R147). -/
def isPow2 (v : Nat) : Bool := 2 ^ v.log2 == v

end Sys2Proof.Machine
end

