-- ==== Sys2Proof/Config.lean ====
section
/-! DEFINITION. What an instance fixes (00_scope.md R6, R7), and the free values (93_implementation_defined.md
section 1). A free value is an opaque constant with no body, applied to a draw, so no proof can see what it is. -/

namespace Sys2Proof

/-- WCAP = 1024, capacity of the waveform ring (00_scope.md R6). -/
abbrev Config.wcap : Nat := 1024
/-- INTERVAL_FLOOR_MS = 20 (00_scope.md R6). -/
abbrev Config.intervalFloorMs : Nat := 20
/-- TICK_COUNT_DEFAULT = 8 (00_scope.md R6). -/
abbrev Config.tickCountDefault : Nat := 8

/-- The two capacities an instance fixes (00_scope.md R7). They stand in State, read-only, because the block shows
them at NMAX_R and HCAP_R; claims quantify over every legal pair (log 1). -/
structure Params where
  /-- NMAX: entries of each sample-indexed memory. -/
  nmax : Nat
  /-- HCAP: frame slots of the history. -/
  hcap : Nat
  deriving DecidableEq, Repr

/-- The constraints of 00_scope.md R7. -/
def Params.legal (p : Params) : Bool :=
  Machine.isPow2 p.nmax && decide (2 ≤ p.nmax) && decide (p.nmax ≤ 2 ^ 23) &&
    decide (1 ≤ p.hcap) && decide (p.hcap * (p.nmax / 2) ≤ 2 ^ 24)

/-- The instance whose reset state is `State.reset` (DESIGN CHOICE, log 1): the smallest legal pair on which every
vector of 95_test_vectors.md can be run. -/
def Params.chosen : Params := { nmax := 2048, hcap := 8 }

/-- The name of one draw: the step counter and the path of the operation inside the step's formulas. Two
operations of a run have different draws, so their free values are unrelated (log 8). -/
abbrev Draw := List Nat

/-- U1: the word a scratch element holds after reset number `epoch`, by bus word address (93, U1; log 3). -/
opaque Config.scratchWord : Nat → Nat → Word
/-- U3: the sign of a NaN that an operation produces (93, U3; log 4). -/
opaque Config.nanSign : Draw → Bool
/-- U3: the fraction of a NaN that an operation produces (93, U3; log 4). -/
opaque Config.nanFrac : Draw → BitVec 23
/-- U2, U4 and the count of U5: any word (93, U2, U4, U5; log 5, log 6, log 7). -/
opaque Config.freeWord : Draw → Word
/-- U5: the answer of SrcAvail (93, U5; log 7). -/
opaque Config.freeBool : Draw → Bool
/-- U5: a sample the source delivers (93, U5; log 7). -/
opaque Config.freeSample : Draw → Sample
/-- `w` may stand for the cosine of `x`: within TRIG_EPS = 2^-23 of it where `x` is finite and of magnitude at most
6.2831860, any word elsewhere (40_numerics.md R145). -/
def CosNear (x w : Word) : Prop :=
  Machine.isFinite x = true → |Machine.value x| ≤ Machine.value Machine.trigBound →
    Machine.isFinite w = true ∧ |(Machine.value w : ℝ) - Real.cos (Machine.value x : ℝ)| ≤ 2⁻¹ ^ 23

/-- `w` may stand for the sine of `x` (40_numerics.md R145). -/
def SinNear (x w : Word) : Prop :=
  Machine.isFinite x = true → |Machine.value x| ≤ Machine.value Machine.trigBound →
    Machine.isFinite w = true ∧ |(Machine.value w : ℝ) - Real.sin (Machine.value x : ℝ)| ≤ 2⁻¹ ^ 23

/-- The implementation's cosine of an operand: any word R145 allows, or no word of its own, and then `cosDefault`
answers, which R145 allows too (40_numerics.md R143, R145; log 2). -/
opaque Config.cosAnswer : (x : Word) → Option { w : Word // CosNear x w }
/-- The implementation's sine of an operand (40_numerics.md R143, R145; log 2). -/
opaque Config.sinAnswer : (x : Word) → Option { w : Word // SinNear x w }

/-- A pair of configuration functions COS32, SIN32 (40_numerics.md R143): pure functions of the operand's pattern. -/
structure Trig where
  cos : Word → Word
  sin : Word → Word

/-- The exact points of 40_numerics.md R144. -/
structure Trig.Exact (t : Trig) : Prop where
  cos_zero : t.cos Machine.f0 = Machine.f1
  cos_negZero : t.cos Machine.fNeg0 = Machine.f1
  sin_zero : t.sin Machine.f0 = Machine.f0
  sin_negZero : t.sin Machine.fNeg0 = Machine.fNeg0
  cos_nonfinite : ∀ x, Machine.isFinite x = false → Machine.isNaN (t.cos x) = true
  sin_nonfinite : ∀ x, Machine.isFinite x = false → Machine.isNaN (t.sin x) = true

/-- The accuracy of 40_numerics.md R145. -/
structure Trig.Accurate (t : Trig) : Prop where
  cos_near : ∀ x, CosNear x (t.cos x)
  sin_near : ∀ x, SinNear x (t.sin x)

end Sys2Proof
end

