-- ==== Sys2Proof/Machine/Float.lean ====
section
/-! DEFINITION. Binary32 arithmetic, conversions, powers of ten and complex arithmetic (40_numerics.md R132 to
R141, R148 to R150). Each operation takes the draw that names it, which only a NaN result reads (R135, U3). -/

namespace Sys2Proof.Machine

/-- The NaN of a draw: `e = 255`, `f != 0`, sign and fraction free (40_numerics.md R135; 93, U3). -/
def nanOf (d : Draw) : Word :=
  let f := if Config.nanFrac d = 0#23 then 1#23 else Config.nanFrac d
  BitVec.ofBool (Config.nanSign d) ++ 0xFF#8 ++ f

/-- The magnitude pattern nearest to `n / d` units of 2^-149, ties to even, infinity on overflow (R132, R133, R134).
With `s` bits to drop, the 24-bit significand `k` and the pattern are related by `pattern = s * 2^23 + k`: this
holds for subnormals (`s = 0`), for normals, and when rounding carries into the next binade. -/
def roundMag (n d : Nat) : Nat :=
  let s := (n / d).log2 - 23
  let u := d * 2 ^ s
  let k := n / u
  let r := n % u
  let k' := if u < 2 * r ∨ (2 * r = u ∧ k % 2 = 1) then k + 1 else k
  min (s * 2 ^ 23 + k') infMag

/-- `fadd(a, b)` (R132, R135, R136): the exact sum of two finite patterns is an integer number of units. -/
def fadd (d : Draw) (a b : Word) : Word :=
  if isNaN a || isNaN b then nanOf d
  else if isInf a then (if isInf b && fSign a != fSign b then nanOf d else a)
  else if isInf b then b
  else
    let z := signedUnits a + signedUnits b
    if z = 0 then ofMag (fSign a && fSign b) 0 else ofMag (decide (z < 0)) (roundMag z.natAbs 1)

/-- `fsub(a, b)` (R132, R135, R136). -/
def fsub (d : Draw) (a b : Word) : Word := fadd d a (fneg b)

/-- `fmul(a, b)` (R132, R135, R136). -/
def fmul (d : Draw) (a b : Word) : Word :=
  let s := fSign a != fSign b
  if isNaN a || isNaN b then nanOf d
  else if isInf a || isInf b then (if isZero a || isZero b then nanOf d else infinity s)
  else ofMag s (roundMag (units a * units b) (2 ^ 149))

/-- `fdiv(a, b)` (R132, R135, R136). -/
def fdiv (d : Draw) (a b : Word) : Word :=
  let s := fSign a != fSign b
  if isNaN a || isNaN b then nanOf d
  else if isInf a then (if isInf b then nanOf d else infinity s)
  else if isInf b then ofMag s 0
  else if isZero b then (if isZero a then nanOf d else infinity s)
  else ofMag s (roundMag (units a * 2 ^ 149) (units b))

/-- The integer square root of `v`, built from bit `k - 1` down on top of `r`. -/
def isqrtFrom (v : Nat) : Nat → Nat → Nat
  | 0, r => r
  | k + 1, r => if (r + 2 ^ k) * (r + 2 ^ k) ≤ v then isqrtFrom v k (r + 2 ^ k) else isqrtFrom v k r

/-- The largest `r` with `r * r <= v`. -/
def isqrt (v : Nat) : Nat := isqrtFrom v (v.log2 / 2 + 1) 0

/-- `fsqrt(a)` (R132, R135, R136). The root of `u` units of 2^-149 is the root of `u * 2^149` units; it has more
than 70 bits, so its integer part and one sticky half unit decide the rounding. -/
def fsqrt (d : Draw) (a : Word) : Word :=
  if isNaN a then nanOf d
  else if isZero a then a
  else if fSign a then nanOf d
  else if isInf a then a
  else
    let v := units a * 2 ^ 149
    let q := isqrt v
    ofMag false (roundMag (2 * q + if q * q = v then 0 else 1) 2)

/-- `u2f(n)` (R138). -/
def u2f (n : Nat) : Word := ofMag false (roundMag (n * 2 ^ 149) 1)

/-- `i2f(n)` (R138). -/
def i2f (n : Int) : Word := ofMag (decide (n < 0)) (roundMag (n.natAbs * 2 ^ 149) 1)

/-- `clamp(x, lo, hi)` on integers (R140). -/
def clampInt (x lo hi : Int) : Int := min (max x lo) hi

/-- Saturation into the i32 range (R139). -/
def satI32 (r : Int) : Int := clampInt r (-(2 ^ 31)) (2 ^ 31 - 1)

/-- `f2i_floor(x)` (R139). -/
def f2iFloor (x : Word) : Int :=
  if isNaN x then 0
  else if isInf x then (if fSign x then -(2 ^ 31) else 2 ^ 31 - 1)
  else satI32 (signedUnits x / 2 ^ 149)

/-- `f2i_ceil(x)` (R139). -/
def f2iCeil (x : Word) : Int :=
  if isNaN x then 0
  else if isInf x then (if fSign x then -(2 ^ 31) else 2 ^ 31 - 1)
  else satI32 (-(-(signedUnits x) / 2 ^ 149))

/-- `10^e <= r`, exactly, for a finite positive `r` of `u` units of 2^-149 (R148). -/
def pow10Le (e : Int) (u : Nat) : Bool :=
  if 0 ≤ e then decide (10 ^ e.toNat * 2 ^ 149 ≤ u) else decide (2 ^ 149 ≤ u * 10 ^ (-e).toNat)

/-- The largest of `-45, ..., -45 + k` whose power of ten is at most `u` units, `-45` if there is none. -/
def decadeFrom (u : Nat) : Nat → Int
  | 0 => -45
  | k + 1 => if pow10Le ((k : Int) + 1 - 45) u then (k : Int) + 1 - 45 else decadeFrom u k

/-- `decade(r)` (R148): the `e` in `[-45, 38]` with `10^e <= r < 10^(e+1)`. -/
def decade (r : Word) : Int := decadeFrom (units r) 83

/-- `POW10_32(e)` (R149): the binary32 value nearest to `10^e`. -/
def pow10 (e : Int) : Word :=
  if 0 ≤ e then ofMag false (roundMag (10 ^ e.toNat * 2 ^ 149) 1)
  else ofMag false (roundMag (2 ^ 149) (10 ^ (-e).toNat))

/-- Any pair of functions with the exact points of R144 put in; for a NaN or an infinity the answer is a NaN of the
pair's choice, the same at every call (R143, R144). -/
def withExactPoints (t : Trig) : Trig :=
  let toNaN (w : Word) : Word := if isNaN w then w else w ||| 0x7F800001#32
  { cos := fun x => if isZero x then f1 else if isFinite x then t.cos x else toNaN (t.cos x)
    sin := fun x => if isZero x then x else if isFinite x then t.sin x else toNaN (t.sin x) }

/-- The word nearest to a rational (R133). -/
def ofRat (q : Rat) : Word := ofMag (decide (q < 0)) (roundMag (q.num.natAbs * 2 ^ 149) q.den)

/-- The first 20 terms of the series of the cosine. -/
def cosSeries (x : Rat) : Rat := ((List.range 20).map fun k => (-1) ^ k * x ^ (2 * k) / (2 * k).factorial).sum

/-- The first 20 terms of the series of the sine. -/
def sinSeries (x : Rat) : Rat :=
  ((List.range 20).map fun k => (-1) ^ k * x ^ (2 * k + 1) / (2 * k + 1).factorial).sum

/-- A cosine that R145 allows, for the operands to which `Config.cosAnswer` gives no word (log 2). -/
def cosDefault (x : Word) : Word := ofRat (cosSeries (value x))

/-- A sine that R145 allows, for the operands to which `Config.sinAnswer` gives no word (log 2). -/
def sinDefault (x : Word) : Word := ofRat (sinSeries (value x))

/-- The implementation's cosine, away from the exact points: any function R145 allows (log 2). -/
def cosFree (x : Word) : Word :=
  match Config.cosAnswer x with
  | some w => w.1
  | none => cosDefault x

/-- The implementation's sine, away from the exact points: any function R145 allows (log 2). -/
def sinFree (x : Word) : Word :=
  match Config.sinAnswer x with
  | some w => w.1
  | none => sinDefault x

/-- COS32 and SIN32 of the machine (R143, R144, R145; log 2): any pair that obeys the three rules, and no other. -/
def trig32 : Trig := withExactPoints { cos := cosFree, sin := sinFree }

/-- `cadd(u, v)` (R150). -/
def cadd (d : Draw) (u v : Cplx) : Cplx := { re := fadd (0 :: d) u.re v.re, im := fadd (1 :: d) u.im v.im }

/-- `csub(u, v)` (R150). -/
def csub (d : Draw) (u v : Cplx) : Cplx := { re := fsub (0 :: d) u.re v.re, im := fsub (1 :: d) u.im v.im }

/-- `cmul(u, v)` (R150): four products, one difference, one sum, each rounded, in this operand order. -/
def cmul (d : Draw) (u v : Cplx) : Cplx :=
  { re := fsub (0 :: d) (fmul (1 :: d) u.re v.re) (fmul (2 :: d) u.im v.im)
    im := fadd (3 :: d) (fmul (4 :: d) u.re v.im) (fmul (5 :: d) u.im v.re) }

end Sys2Proof.Machine
end

