-- ==== Sys2Proof/Machine/State.lean ====
section
/-! DEFINITION. The state of the block (10_state.md R20, R21, R52, R57 to R59) as plain data, beside the inputs that
wait for it and the outputs it gave; the reasons a step can stop; the state after reset (10_state.md R63;
70_reset_and_hazards.md R370). Registers that the spec defines as a function of other state (STATUS,
EFF_INTERVAL_MS, HIST_LEN, HSNAP_LEN, NMAX_R, HCAP_R, CMD) are views, in Operands.lean (log 14). -/

namespace Sys2Proof.Machine

/-- STATUS.PSTATE (10_state.md R26; 47_pipeline_and_system.md R290); the code 3 never occurs. -/
inductive PState where
  | idle
  | running
  | stopped
  deriving DecidableEq, Repr

/-- STATUS.CYC (10_state.md R26): no CYCLE outcome since reset, last CYCLE completed, last CYCLE skipped. -/
inductive CycleOutcome where
  | none
  | completed
  | skipped
  deriving DecidableEq, Repr

/-- What the block signals to the audio source (20_memory.md R89). -/
inductive SrcEvent where
  | srcStart
  | srcRelease
  deriving DecidableEq, Repr

/-- An answer of the source to SrcRead (20_memory.md R88): the count, an i32, and the samples it put in the buffer.
A sample the list does not hold is a free value (log 7). -/
structure SrcAnswer where
  count : Word
  samples : List Sample
  deriving DecidableEq, Repr

/-- Sparse storage: pairs of an address and the word there. In canonical form the addresses rise strictly, so equal
contents are equal lists. -/
abbrev Memory := List (Nat × Word)

/-- The canonical form of a memory: addresses strictly rising. -/
def Memory.wf : Memory → Bool
  | [] => true
  | [_] => true
  | x :: y :: rest => decide (x.1 < y.1) && Memory.wf (y :: rest)

/-- The canonical form of a 1024-slot ring whose unlisted slots read +0.0: rising slots below 1024, none listed
with the word +0.0 (10_state.md R58; log 21). -/
def Memory.ringWf (m : Memory) : Bool := Memory.wf m && m.all fun c => decide (c.1 < Config.wcap) && c.2 != f0

/-- Reasons the machine stops. -/
inductive Fault where
  /-- Raised by `step` when no bus transaction and no Reset is pending: the block takes no step of its own
  (00_scope.md R9). Safe: the model stops where the hardware waits (log 9). -/
  | busIdle
  deriving DecidableEq, Repr

/-- Reasons the model gives no meaning. -/
inductive Refusal where
  /-- Raised by an arm of `exec` for an instruction with no meaning yet. Safe: nothing is claimed of it. -/
  | notModelled (mnemonic : String)
  deriving DecidableEq, Repr

/-- The state. -/
structure State where
  /-- NMAX and HCAP of the instance (00_scope.md R7); no step changes them (log 1). -/
  params : Params
  /-- STATUS.PSTATE (R26, R290). -/
  pstate : PState
  /-- STATUS.FAULT (R26, R340). -/
  faulted : Bool
  /-- STATUS.CYC (R26, R293). -/
  cyc : CycleOutcome
  /-- STATUS.DEGEN (R26, R203). -/
  degen : Bool
  /-- STATUS.SRCUNAV (R26, R291). -/
  srcUnav : Bool
  /-- ERR_CODE (R27). -/
  errCode : Word
  /-- ERR_INFO (R28). -/
  errInfo : Word
  /-- SAMPLE_RATE (R29). -/
  sampleRate : Word
  /-- FFT_SIZE (R30). -/
  fftSize : Word
  /-- UPDATE_INTERVAL_MS (R32). -/
  updateIntervalMs : Word
  /-- MAX_HISTORY (R34). -/
  maxHistory : Word
  /-- MIN_FREQ_HZ (R35). -/
  minFreqHz : Word
  /-- MAX_FREQ_HZ (R36). -/
  maxFreqHz : Word
  /-- WRITE_POS (R38). -/
  writePos : BitVec 10
  /-- WIN_N (R39). -/
  winN : Word
  /-- ZMIN (R40). -/
  zmin : Word
  /-- ZMAX (R40). -/
  zmax : Word
  /-- SPEC_LEN (R41). -/
  specLen : Word
  /-- PEAK (R42). -/
  peak : Word
  /-- TICK_RANGE (R43). -/
  tickRange : Word
  /-- TICK_COUNT (R44). -/
  tickCount : Word
  /-- TICK_STEP (R45). -/
  tickStep : Word
  /-- TICK_SUB (R45). -/
  tickSub : Word
  /-- MAP_ARG (R46). -/
  mapArg : Word
  /-- MAP_RES (R47). -/
  mapRes : Word
  /-- WSNAP_POS (R49). -/
  wsnapPos : BitVec 10
  /-- SRC_COUNT (R50). -/
  srcCount : Word
  /-- The eight scratch memories (R52), by bus word address (20_memory.md R74): the elements written since reset.
  An element that is not listed holds the draw of 93, U1 (log 3). -/
  mem : Memory
  /-- HIST, newest first (R57); HIST_LEN is its length (R37). -/
  hist : List Frame
  /-- WAVE (R58); an unlisted slot holds +0.0. -/
  wave : Memory
  /-- HSNAP_BANK (R59); HSNAP_LEN is its length (R48). -/
  hsnapBank : List Frame
  /-- WSNAP_BANK (R59); an unlisted slot holds +0.0. -/
  wsnapBank : Memory
  /-- Model field: what the outside world does next, in bus order (20_memory.md R80; log 9). -/
  bus : List BusInput
  /-- Model field: answers of SrcAvail still to come (20_memory.md R88; log 7). -/
  availAnswers : List Bool
  /-- Model field: answers of SrcRead still to come (20_memory.md R88; log 7). -/
  readAnswers : List SrcAnswer
  /-- Model field: the data word the last BusRead returned (20_memory.md R71; log 12). -/
  readData : Word
  /-- Model field: the events emitted since the last reset, oldest first (20_memory.md R89; log 13). -/
  srcEvents : List SrcEvent
  /-- Model field: the events emitted before the last reset, oldest first (log 13). -/
  pastEvents : List SrcEvent
  /-- Model field: counter behind the free values; every step advances it (log 8). -/
  draws : Nat
  /-- Model field: how many Resets there were; names the reset contents of the scratch memories (log 3). -/
  epoch : Nat
  deriving DecidableEq, Repr

/-- The answer of an instruction's meaning. -/
abbrev Result := Host.Outcome State Fault Refusal

/-- The state after reset of an instance (10_state.md R63; 70_reset_and_hazards.md R370). -/
def State.resetOf (p : Params) : State :=
  { params := p
    pstate := .idle
    faulted := false
    cyc := .none
    degen := false
    srcUnav := false
    errCode := 0#32
    errInfo := 0#32
    sampleRate := 48000#32
    fftSize := BitVec.ofNat 32 (min 512 p.nmax)
    updateIntervalMs := 20#32
    maxHistory := BitVec.ofNat 32 p.hcap
    minFreqHz := f0
    maxFreqHz := 0x46BB8000#32
    writePos := 0#10
    winN := 0#32
    zmin := 0#32
    zmax := 1#32
    specLen := 0#32
    peak := f0
    tickRange := f0
    tickCount := BitVec.ofNat 32 Config.tickCountDefault
    tickStep := f0
    tickSub := f0
    mapArg := 0#32
    mapRes := 0#32
    wsnapPos := 0#10
    srcCount := 0#32
    mem := []
    hist := []
    wave := []
    hsnapBank := []
    wsnapBank := []
    bus := []
    availAnswers := []
    readAnswers := []
    readData := 0#32
    srcEvents := []
    pastEvents := []
    draws := 0
    epoch := 0 }

/-- The machine right after reset, for the instance of log 1. -/
def State.reset : State := State.resetOf Params.chosen

end Sys2Proof.Machine
end

