-- ==== Sys2Proof/Machine/Memory.lean ====
section
/-! DEFINITION. The storage operations: sparse memories in canonical form, the scratch memories of the bus space
(10_state.md R52, R53; 20_memory.md R74, R86) and the 1024-slot rings (10_state.md R58, R59). -/

namespace Sys2Proof.Machine

/-- The word listed at an address, if one is. -/
def Memory.lookup : Memory → Nat → Option Word
  | [], _ => none
  | (b, v) :: rest, a => if a = b then some v else Memory.lookup rest a

/-- Lists a word at an address, in place of the one that was there. -/
def Memory.insert : Memory → Nat → Word → Memory
  | [], a, v => [(a, v)]
  | (b, u) :: rest, a, v =>
    if a < b then (a, v) :: (b, u) :: rest
    else if a = b then (a, v) :: rest
    else (b, u) :: Memory.insert rest a v

/-- Takes an address off the list. -/
def Memory.erase (m : Memory) (a : Nat) : Memory := m.filter fun c => c.1 != a

/-- Lists the words `vs` at the addresses `a`, `a + 1`, ... -/
def Memory.insertBlock : Memory → Nat → List Word → Memory
  | m, _, [] => m
  | m, a, v :: vs => Memory.insertBlock (Memory.insert m a v) (a + 1) vs

/-- A ring slot: what is listed, else the reset value +0.0 (10_state.md R58). -/
def Memory.ringRead (m : Memory) (j : Nat) : Word := (Memory.lookup m j).getD f0

/-- Writes a ring slot; +0.0 is what an unlisted slot reads as, so writing it takes the entry away. -/
def Memory.ringWrite (m : Memory) (j : Nat) (v : Word) : Memory :=
  if v = f0 then Memory.erase m j else Memory.insert m j v

/-- The eight scratch memories (10_state.md R52). -/
inductive ScratchMem where
  | pcm
  | sig
  | win
  | wsig
  | xre
  | xim
  | norm
  | spec
  deriving DecidableEq, Repr

/-- The bus word address of element 0 (20_memory.md R74). -/
def scratchBase : ScratchMem → Nat
  | .pcm => 0x01000000
  | .sig => 0x02000000
  | .win => 0x03000000
  | .wsig => 0x04000000
  | .xre => 0x05000000
  | .xim => 0x06000000
  | .norm => 0x07000000
  | .spec => 0x08000000

/-- The number of elements (20_memory.md R74). -/
def scratchSize (p : Params) : ScratchMem → Nat
  | .pcm | .sig | .win | .wsig | .xre | .xim => p.nmax
  | .norm | .spec => p.nmax / 2

/-- `sext_16(d[15:0])`: the bus word of a PCM element (10_state.md R53; 20_memory.md R86). -/
def pcmWord (w : Word) : Word := (w.setWidth 16).signExtend 32

/-- The word an element holds once `w` has been stored to it: all 32 bits, but the low half sign-extended for PCM
(20_memory.md R86; log 20). -/
def elementWord (m : ScratchMem) (w : Word) : Word := if m = .pcm then pcmWord w else w

/-- What a scratch address that nothing has written since reset holds: a free value, in the i16 range for PCM
(93, U1; log 3). -/
def unwritten (epoch a : Nat) : Word :=
  if a < scratchBase .sig then pcmWord (Config.scratchWord epoch a) else Config.scratchWord epoch a

/-- The word at a scratch address. -/
def peek (s : State) (a : Nat) : Word := (Memory.lookup s.mem a).getD (unwritten s.epoch a)

/-- `MEM[i]` (00_scope.md R13). -/
def elem (s : State) (m : ScratchMem) (i : Nat) : Word := peek s (scratchBase m + i)

/-- `MEM[0 .. n-1]`. -/
def block (s : State) (m : ScratchMem) (n : Nat) : List Word := (List.range n).map (elem s m)

/-- `MEM[i] <- w` (00_scope.md R13; 20_memory.md R86). -/
def storeElem (m : ScratchMem) (i : Nat) (w : Word) (s : State) : State :=
  { s with mem := Memory.insert s.mem (scratchBase m + i) (elementWord m w) }

/-- `MEM[0 .. k-1] <- vs`, where `k` is the number of words. -/
def storeBlock (m : ScratchMem) (vs : List Word) (s : State) : State :=
  { s with mem := Memory.insertBlock s.mem (scratchBase m) (vs.map (elementWord m)) }

/-- The draw of an operation of this step; `site` tells the operations of one step apart (log 8). -/
def drawAt (s : State) (site : Nat) : Draw := [site, s.draws]

end Sys2Proof.Machine
end

