-- ==== Sys2Proof/Machine/Flags.lean ====
section
/-! DEFINITION. STATUS (10_state.md R26, R64): the word a host reads, and the updates of its fields. The block has
no arithmetic flags (R64; 40_numerics.md R137). -/

namespace Sys2Proof.Machine

/-- The code of PSTATE (10_state.md R26). -/
def pstateCode : PState → BitVec 2
  | .idle => 0#2
  | .running => 1#2
  | .stopped => 2#2

/-- The code of CYC (10_state.md R26). -/
def cycCode : CycleOutcome → BitVec 2
  | .none => 0#2
  | .completed => 1#2
  | .skipped => 2#2

/-- The STATUS word: PSTATE in 1:0, FAULT in 2, CYC in 4:3, DEGEN in 5, SRCUNAV in 6, zeros above (10_state.md
R26). -/
def statusWord (s : State) : Word :=
  0#25 ++ BitVec.ofBool s.srcUnav ++ BitVec.ofBool s.degen ++ cycCode s.cyc ++ BitVec.ofBool s.faulted ++
    pstateCode s.pstate

/-- DEGEN: set when the peak is not above zero, else cleared (43_spectral_frame.md R203). -/
def degenOf (peak : Word) : Bool := !fgt peak f0

/-- The events that SRC has seen since reset, as PSTATE tells them (20_memory.md R89). -/
def eventsOf : PState → List SrcEvent
  | .idle => []
  | .running => [.srcStart]
  | .stopped => [.srcStart, .srcRelease]

end Sys2Proof.Machine
end

