-- ==== Sys2Proof/Machine/Operands.lean ====
section
/-! DEFINITION. The operand forms: the length operand of a CN command and its legal ranges (30_encoding.md R103,
R106), and the bus address of a transaction and the location it names (20_memory.md R73 to R75, R87), with the
word each location reads as (10_state.md R21; 20_memory.md R75, R76, R86). -/

namespace Sys2Proof.Machine

/-- The length operand as a natural number, never sign-extended (30_encoding.md R103). -/
def lenNat (n : Len) : Nat := n.toNat

/-- The length operand as the information word of a fault (60_exceptions.md R331). -/
def lenInfo (n : Len) : Word := n.setWidth 32

/-- A power of two in `[lo, NMAX]` (30_encoding.md R106; 10_state.md R30). -/
def legalPow2 (p : Params) (lo n : Nat) : Bool := isPow2 n && decide (lo ≤ n) && decide (n ≤ p.nmax)

/-- A count of at most NMAX samples (30_encoding.md R106). -/
def legalCount (p : Params) (n : Nat) : Bool := decide (n ≤ p.nmax)

/-- The length the window was generated for (30_encoding.md R106, R163). -/
def legalWindowed (winN : Word) (n : Nat) : Bool := winN != 0#32 && n == winN.toNat

/-- The registers, in the order of their offsets 0x00 to 0x1C (10_state.md R21). -/
inductive Reg where
  | cmd
  | status
  | errCode
  | errInfo
  | sampleRate
  | fftSize
  | updateIntervalMs
  | effIntervalMs
  | maxHistory
  | minFreqHz
  | maxFreqHz
  | histLen
  | writePos
  | winN
  | zmin
  | zmax
  | specLen
  | peak
  | tickRange
  | tickCount
  | tickStep
  | tickSub
  | mapArg
  | mapRes
  | hsnapLen
  | wsnapPos
  | srcCount
  | nmaxR
  | hcapR
  deriving DecidableEq, Repr

/-- The registers by offset: the list's index is the offset (10_state.md R21). -/
def regTable : List Reg :=
  [.cmd, .status, .errCode, .errInfo, .sampleRate, .fftSize, .updateIntervalMs, .effIntervalMs, .maxHistory,
    .minFreqHz, .maxFreqHz, .histLen, .writePos, .winN, .zmin, .zmax] ++
  [.specLen, .peak, .tickRange, .tickCount, .tickStep, .tickSub, .mapArg, .mapRes, .hsnapLen, .wsnapPos, .srcCount,
    .nmaxR, .hcapR]

/-- `max(UPDATE_INTERVAL_MS, 20)`, unsigned (10_state.md R33). -/
def effInterval (updateIntervalMs : Word) : Word :=
  if updateIntervalMs.toNat < Config.intervalFloorMs then BitVec.ofNat 32 Config.intervalFloorMs else updateIntervalMs

/-- The word a register reads as (10_state.md R21, R25 to R51). -/
def readReg (s : State) : Reg → Word
  | .cmd => 0#32
  | .status => statusWord s
  | .errCode => s.errCode
  | .errInfo => s.errInfo
  | .sampleRate => s.sampleRate
  | .fftSize => s.fftSize
  | .updateIntervalMs => s.updateIntervalMs
  | .effIntervalMs => effInterval s.updateIntervalMs
  | .maxHistory => s.maxHistory
  | .minFreqHz => s.minFreqHz
  | .maxFreqHz => s.maxFreqHz
  | .histLen => BitVec.ofNat 32 s.hist.length
  | .writePos => s.writePos.setWidth 32
  | .winN => s.winN
  | .zmin => s.zmin
  | .zmax => s.zmax
  | .specLen => s.specLen
  | .peak => s.peak
  | .tickRange => s.tickRange
  | .tickCount => s.tickCount
  | .tickStep => s.tickStep
  | .tickSub => s.tickSub
  | .mapArg => s.mapArg
  | .mapRes => s.mapRes
  | .hsnapLen => BitVec.ofNat 32 s.hsnapBank.length
  | .wsnapPos => s.wsnapPos.setWidth 32
  | .srcCount => s.srcCount
  | .nmaxR => BitVec.ofNat 32 s.params.nmax
  | .hcapR => BitVec.ofNat 32 s.params.hcap

/-- A mapped location of the bus space (20_memory.md R74). -/
inductive Loc where
  /-- Region 0: a register. -/
  | csr (r : Reg)
  /-- Regions 1 to 8: an element of a scratch memory. -/
  | scratch (m : ScratchMem) (i : Nat)
  /-- Region 9: slot `j` of WSNAP_BANK. -/
  | waveBank (j : Nat)
  /-- Region 0xA: element `j` of snapshot frame `i` (R75). -/
  | histData (i j : Nat)
  /-- Region 0xB: the length of snapshot frame `i` (R75). -/
  | histFlen (i : Nat)
  deriving DecidableEq, Repr

/-- Element `off` of a scratch memory, if it has one (20_memory.md R74, R87). -/
def scratchLoc (p : Params) (m : ScratchMem) (off : Nat) : Option Loc :=
  if off < scratchSize p m then some (.scratch m off) else none

/-- The location at an offset of a region, `none` where unmapped (20_memory.md R74, R75, R87). -/
def locateIn (p : Params) (region off : Nat) : Option Loc :=
  match region with
  | 0x0 => (regTable[off]?).map .csr
  | 0x1 => scratchLoc p .pcm off
  | 0x2 => scratchLoc p .sig off
  | 0x3 => scratchLoc p .win off
  | 0x4 => scratchLoc p .wsig off
  | 0x5 => scratchLoc p .xre off
  | 0x6 => scratchLoc p .xim off
  | 0x7 => scratchLoc p .norm off
  | 0x8 => scratchLoc p .spec off
  | 0x9 => if off < Config.wcap then some (.waveBank off) else none
  | 0xA => if off < p.hcap * (p.nmax / 2) then some (.histData (off / (p.nmax / 2)) (off % (p.nmax / 2))) else none
  | 0xB => if off < p.hcap then some (.histFlen off) else none
  | _ => none

/-- The location of a bus word address, `none` where unmapped: `addr[31:28]` must be 0, `addr[27:24]` is the
region, `addr[23:0]` the offset (20_memory.md R73, R87). -/
def locate (p : Params) (addr : Word) : Option Loc :=
  if addr.extractLsb' 28 4 = 0#4 then
    locateIn p (addr.extractLsb' 24 4).toNat (addr.extractLsb' 0 24).toNat
  else none

/-- The draw site of a bus read (log 8). -/
abbrev siteRd : Nat := 0x17

/-- The word a location reads as (10_state.md R21; 20_memory.md R75, R76, R86). Outside the valid part of the
history snapshot it is a free value (93, U2; log 6). -/
def readLoc (s : State) : Loc → Word
  | .csr r => readReg s r
  | .scratch m i => elem s m i
  | .waveBank j => Memory.ringRead s.wsnapBank j
  | .histData i j =>
    match s.hsnapBank[i]? with
    | some f => match f[j]? with
      | some w => w
      | none => Config.freeWord (drawAt s siteRd)
    | none => Config.freeWord (drawAt s siteRd)
  | .histFlen i =>
    match s.hsnapBank[i]? with
    | some f => BitVec.ofNat 32 f.length
    | none => 0#32

end Sys2Proof.Machine
end

