-- ==== Sys2Proof/Machine/Ops.lean ====
section
/-! DEFINITION. The shared operations of the machine: what every bus write does first (60_exceptions.md R342, R344),
taking a fault (R340), leaving it by Reset (R343; 70_reset_and_hazards.md R370), and the audio-source port
(20_memory.md R88, R89). -/

namespace Sys2Proof.Machine

/-- ERR_CODE of InvalidSize (60_exceptions.md R330). -/
abbrev codeInvalidSize : Word := 1#32
/-- ERR_CODE of IllegalCommand (60_exceptions.md R330). -/
abbrev codeIllegalCommand : Word := 5#32
/-- ERR_CODE of BusError (60_exceptions.md R330). -/
abbrev codeBusError : Word := 6#32

/-- `emit e`: the block signals the source (20_memory.md R89). -/
def emit (e : SrcEvent) (s : State) : State := { s with srcEvents := s.srcEvents ++ [e] }

/-- Leaving Running: the state becomes Stopped and the source is released; from another state nothing happens
(47_pipeline_and_system.md R292; 60_exceptions.md R340). -/
def releaseSource (s : State) : State :=
  if s.pstate = .running then { emit .srcRelease s with pstate := .stopped } else s

/-- Fault entry, `raise Fault(code, info)` (60_exceptions.md R340): the record, FAULT, and the release of the source;
every other piece of state is unchanged. -/
def raise (code info : Word) (s : State) : State :=
  { releaseSource s with errCode := code, errInfo := info, faulted := true }

/-- A bus write: discarded while FAULT is set, else its effect (60_exceptions.md R342 a). -/
def busWrite (s : State) (effect : State → State) : Result := .next (if s.faulted then s else effect s)

/-- A size check that stands before every write of its operation (00_scope.md R14): InvalidSize with the offending
value, or the operation (60_exceptions.md R331). -/
def sizeChecked (legal : Bool) (info : Word) (effect : State → State) (s : State) : State :=
  if legal then effect s else raise codeInvalidSize info s

/-- A word that is no command, written to CMD (60_exceptions.md R335; 30_encoding.md R105, R107). -/
def illegalCommand (w : Word) (s : State) : Result := busWrite s (raise codeIllegalCommand w)

/-- Reset (70_reset_and_hazards.md R370): the source is released if it is held, every register, HIST, WAVE and the
banks take their reset values, and the scratch memories hold new draws. The instance, the inputs still to come and
the model's record of events are not touched by it (log 3, log 9, log 13). -/
def takeReset (s : State) : State :=
  { State.resetOf s.params with
    bus := s.bus
    availAnswers := s.availAnswers
    readAnswers := s.readAnswers
    pastEvents := s.pastEvents ++ (releaseSource s).srcEvents
    draws := s.draws
    epoch := s.epoch + 1 }

/-- Taking the next input off the bus: it is the step's, and the step's draws are its own (log 8, log 9). -/
def fetched (rest : List BusInput) (s : State) : State := { s with bus := rest, draws := s.draws + 1 }

/-- The draw site of the source's answers to START (log 8). -/
abbrev siteAvail : Nat := 0x10
/-- The draw site of the source's answers to CYCLE (log 8). -/
abbrev siteRead : Nat := 0x12

/-- SrcAvail(): the next answer, or a free one (20_memory.md R88; log 7). -/
def srcAvail (s : State) : Bool :=
  match s.availAnswers with
  | a :: _ => a
  | [] => Config.freeBool (drawAt s siteAvail)

/-- The count of SrcRead(n), an i32 (20_memory.md R88; log 7). -/
def srcReadCount (s : State) : Word :=
  match s.readAnswers with
  | a :: _ => a.count
  | [] => Config.freeWord (drawAt s siteRead)

/-- Sample `i` of SrcRead(n) (20_memory.md R88; log 7). -/
def srcReadSample (s : State) (i : Nat) : Sample :=
  match s.readAnswers with
  | a :: _ => a.samples.getD i (Config.freeSample (i :: drawAt s siteRead))
  | [] => Config.freeSample (i :: drawAt s siteRead)

end Sys2Proof.Machine
end

