-- ==== Sys2Proof/Machine/Spectral.lean ====
section
/-! DEFINITION. The spectral frame builder: MAGN, ZOOM, SELECT, BUILD (43_spectral_frame.md). -/

namespace Sys2Proof.Machine

/-- `mag(re, im)` (R200). -/
def mag (d : Draw) (re im : Word) : Word :=
  fsqrt (0 :: d) (fadd (1 :: d) (fmul (2 :: d) re re) (fmul (3 :: d) im im))

/-- `peak(m)` (R201): a strictly greater magnitude replaces, a NaN never does. -/
def peakOf (ms : List Word) : Word := ms.foldl (fun top m => if fgt m top then m else top) f0

/-- `normalise(m, M)` (R202). -/
def normalise (d : Draw) (ms : List Word) (top : Word) : List Word :=
  (List.range ms.length).map fun k => if fgt top f0 then fdiv (k :: d) (ms.getD k f0) top else f0

/-- The draw site of MAGN's magnitudes (log 8). -/
abbrev siteMag : Nat := 0x05
/-- The draw site of MAGN's quotients (log 8). -/
abbrev siteNorm : Nat := 0x25
/-- The draw site of ZOOM (log 8). -/
abbrev siteZoom : Nat := 0x06

/-- The magnitudes `m[0 .. half-1]` of MAGN (R203). -/
def magnitudes (half : Nat) (s : State) : List Word :=
  (List.range half).map fun k => mag (k :: drawAt s siteMag) (elem s .xre k) (elem s .xim k)

/-- The writes of `MAGN n` (R203). -/
def doMagn (n : Nat) (s : State) : State :=
  let ms := magnitudes (n / 2) s
  let top := peakOf ms
  { storeBlock .norm (normalise (drawAt s siteNorm) ms top) s with peak := top, degen := degenOf top }

/-- The bin width `df` (R204). -/
def binWidth (d : Draw) (sampleRate fftSize : Word) : Word := fdiv d (u2f sampleRate.toNat) (u2f fftSize.toNat)

/-- `zoom_bins(sr, N, fmin, fmax)` (R204). -/
def zoomBins (d : Draw) (sampleRate fftSize fmin fmax : Word) : Int × Int :=
  let half : Int := (fftSize.toNat / 2 : Nat)
  let df := binWidth (0 :: d) sampleRate fftSize
  let zmin := clampInt (f2iFloor (fdiv (1 :: d) fmin df)) 0 (half - 1)
  let zmax := clampInt (f2iCeil (fdiv (2 :: d) fmax df)) (zmin + 1) half
  (zmin, zmax)

/-- The writes of ZOOM (R205). -/
def doZoom (s : State) : State :=
  let z := zoomBins (drawAt s siteZoom) s.sampleRate s.fftSize s.minFreqHz s.maxFreqHz
  { s with zmin := BitVec.ofInt 32 z.1, zmax := BitVec.ofInt 32 z.2 }

/-- The writes of SELECT (R206). -/
def doSelect (s : State) : State :=
  let len := s.zmax.toNat - s.zmin.toNat
  { storeBlock .spec ((List.range len).map fun j => elem s .norm (s.zmin.toNat + j)) s with
    specLen := BitVec.ofNat 32 len }

/-- The writes of BUILD: MAGN FFT_SIZE, ZOOM, SELECT (R207). -/
def doBuild (s : State) : State := doSelect (doZoom (doMagn s.fftSize.toNat s))

/-- `MAGN n` (R203). -/
def execMagn (n : Len) (s : State) : Result :=
  busWrite s (sizeChecked (legalPow2 s.params 2 (lenNat n)) (lenInfo n) (doMagn (lenNat n)))

/-- `ZOOM` (R205). -/
def execZoom (s : State) : Result := busWrite s doZoom

/-- `SELECT` (R206). -/
def execSelect (s : State) : Result := busWrite s doSelect

/-- `BUILD` (R207). -/
def execBuild (s : State) : Result := busWrite s doBuild

end Sys2Proof.Machine
end

