-- ==== Sys2Proof/Machine/Axis.lean ====
section
/-! DEFINITION. The frequency axis mapper: TICK, F2BIN, BIN2F (46_axis_mapper.md). -/

namespace Sys2Proof.Machine

/-- `raw = fdiv(range, u2f(count))` (R265, R266). -/
def tickRaw (d : Draw) (range count : Word) : Word := fdiv (0 :: d) range (u2f count.toNat)

/-- The domain of TICK: `raw` finite and `raw > 0` (R266, R267). -/
def inTickDomain (raw : Word) : Bool := isFinite raw && fgt raw f0

/-- One turn of the loop of R265: the candidate `m * base` replaces the best so far if it is strictly nearer. The
pair is `(best_d, step)`; `k` tells the turns' draws apart. -/
def tickTurn (d : Draw) (raw base : Word) (k : Nat) (m : Word) (best : Option (Word × Word)) : Option (Word × Word) :=
  let cand := fmul (0 :: k :: d) m base
  let dist := fabs (fsub (1 :: k :: d) raw cand)
  match best with
  | none => some (dist, cand)
  | some b => if flt dist b.1 then some (dist, cand) else some b

/-- The step of `nice_step` for a `raw` in the domain (R265): multipliers 1, 2, 5 in this order. -/
def niceStep (d : Draw) (raw : Word) : Word :=
  let base := pow10 (decade raw)
  let best := tickTurn d raw base 3 f5 (tickTurn d raw base 2 f2 (tickTurn d raw base 1 f1 none))
  (best.map Prod.snd).getD f0

/-- The draw site of TICK (log 8). -/
abbrev siteTick : Nat := 0x0D
/-- The draw site of F2BIN (log 8). -/
abbrev siteF2bin : Nat := 0x0E
/-- The draw site of BIN2F (log 8). -/
abbrev siteBin2f : Nat := 0x0F

/-- TICK_STEP after TICK: the nice step in the domain, a free value outside it (R266, R267; 93, U4; log 5). -/
def tickStepOf (d : Draw) (range count : Word) : Word :=
  let raw := tickRaw d range count
  if inTickDomain raw then niceStep d raw else Config.freeWord (4 :: d)

/-- TICK_SUB after TICK: `fdiv(step, 5.0)` in the domain, a free value outside it (R265 to R267; log 5). -/
def tickSubOf (d : Draw) (range count : Word) : Word :=
  let raw := tickRaw d range count
  if inTickDomain raw then fdiv (5 :: d) (niceStep d raw) f5 else Config.freeWord (6 :: d)

/-- The writes of TICK (R266). -/
def doTick (s : State) : State :=
  { s with
    tickStep := tickStepOf (drawAt s siteTick) s.tickRange s.tickCount
    tickSub := tickSubOf (drawAt s siteTick) s.tickRange s.tickCount }

/-- `binForFrequency` (R268): the floor of `hz / df`, an i32. -/
def freqToBin (d : Draw) (sampleRate fftSize hz : Word) : Int :=
  f2iFloor (fdiv (0 :: d) hz (binWidth (1 :: d) sampleRate fftSize))

/-- `frequencyForBin` (R269): `k * sampleRate / fftSize`, left to right. -/
def binToFreq (d : Draw) (sampleRate fftSize bin : Word) : Word :=
  fdiv (0 :: d) (fmul (1 :: d) (i2f bin.toInt) (u2f sampleRate.toNat)) (u2f fftSize.toNat)

/-- The writes of F2BIN (R268). -/
def doF2bin (s : State) : State :=
  { s with mapRes := BitVec.ofInt 32 (freqToBin (drawAt s siteF2bin) s.sampleRate s.fftSize s.mapArg) }

/-- The writes of BIN2F (R269). -/
def doBin2f (s : State) : State :=
  { s with mapRes := binToFreq (drawAt s siteBin2f) s.sampleRate s.fftSize s.mapArg }

/-- `TICK` (R266). -/
def execTick (s : State) : Result := busWrite s doTick

/-- `F2BIN` (R268). -/
def execF2bin (s : State) : Result := busWrite s doF2bin

/-- `BIN2F` (R269). -/
def execBin2f (s : State) : Result := busWrite s doBin2f

end Sys2Proof.Machine
end

