-- ==== Sys2Proof/Machine/History.lean ====
section
/-! DEFINITION. The spectral history: HPUSH, HSNAP, the write of MAX_HISTORY (44_history.md). -/

namespace Sys2Proof.Machine

/-- Front insertion, then one eviction if the length exceeds the cap (R231). -/
def pushFrame (cap : Nat) (f : Frame) (h : List Frame) : List Frame :=
  if cap < (f :: h).length then (f :: h).dropLast else f :: h

/-- The frame in SPEC (R231). -/
def specFrame (s : State) : Frame := block s .spec s.specLen.toNat

/-- The writes of HPUSH (R231). -/
def doHpush (s : State) : State := { s with hist := pushFrame s.maxHistory.toNat (specFrame s) s.hist }

/-- The writes of HSNAP (R233). -/
def doHsnap (s : State) : State := { s with hsnapBank := s.hist }

/-- `clamp(v, 1, HCAP)` on unsigned values (10_state.md R34). -/
def clampHistory (hcap v : Nat) : Nat := min (max v 1) hcap

/-- The writes of a bus write of `v` to MAX_HISTORY (R232): the tail is dropped until the length is within the cap. -/
def doWriteMaxHistory (v : Word) (s : State) : State :=
  let cap := clampHistory s.params.hcap v.toNat
  { s with maxHistory := BitVec.ofNat 32 cap, hist := s.hist.take cap }

/-- `HPUSH` (R231). -/
def execHpush (s : State) : Result := busWrite s (sizeChecked (s.specLen != 0#32) 0#32 doHpush)

/-- `HSNAP` (R233). -/
def execHsnap (s : State) : Result := busWrite s doHsnap

/-- Bus write to MAX_HISTORY (R232). -/
def execWrMaxHistory (v : Word) (s : State) : Result := busWrite s (doWriteMaxHistory v)

end Sys2Proof.Machine
end

