-- ==== Sys2Proof/Machine/BusOps.lean ====
section
/-! DEFINITION. Register and memory access as operations: the checked writes of FFT_SIZE and SPEC_LEN (10_state.md
R30, R41), the generic write and the read (47_pipeline_and_system.md R297, R298; 60_exceptions.md R336). -/

namespace Sys2Proof.Machine

/-- Bus write of `v` to FFT_SIZE, FAULT clear (10_state.md R30). -/
def doWriteFftSize (v : Word) (s : State) : State :=
  sizeChecked (legalPow2 s.params 2 v.toNat) v (fun t => { t with fftSize := v }) s

/-- Bus write of `v` to SPEC_LEN, FAULT clear (10_state.md R41). -/
def doWriteSpecLen (v : Word) (s : State) : State :=
  sizeChecked (decide (v.toNat ≤ s.params.nmax / 2)) v (fun t => { t with specLen := v }) s

/-- Bus write of `v` to a register, FAULT clear: the plain read-write registers of R297, the three registers with
behaviour of their own, and BusError for a read-only register (60_exceptions.md R336). CMD stores nothing
(10_state.md R25): its write is a command, which the decoder takes before this is reached (log 16). -/
def writeReg (r : Reg) (addr v : Word) (s : State) : State :=
  match r with
  | .sampleRate => { s with sampleRate := v }
  | .updateIntervalMs => { s with updateIntervalMs := v }
  | .minFreqHz => { s with minFreqHz := v }
  | .maxFreqHz => { s with maxFreqHz := v }
  | .tickRange => { s with tickRange := v }
  | .tickCount => { s with tickCount := v }
  | .mapArg => { s with mapArg := v }
  | .fftSize => doWriteFftSize v s
  | .maxHistory => doWriteMaxHistory v s
  | .specLen => doWriteSpecLen v s
  | .cmd => s
  | .status | .errCode | .errInfo | .effIntervalMs | .histLen | .writePos | .winN | .zmin | .zmax | .peak
  | .tickStep | .tickSub | .mapRes | .hsnapLen | .wsnapPos | .srcCount | .nmaxR | .hcapR => raise codeBusError addr s

/-- Bus write of `v` to an address, FAULT clear (20_memory.md R72, R87; 47 R297). -/
def doWrite (addr v : Word) (s : State) : State :=
  match locate s.params addr with
  | none => raise codeBusError addr s
  | some (.csr r) => writeReg r addr v s
  | some (.scratch m i) => storeElem m i v s
  | some (.waveBank _) => raise codeBusError addr s
  | some (.histData _ _) => raise codeBusError addr s
  | some (.histFlen _) => raise codeBusError addr s

/-- Bus read (20_memory.md R72; 47 R298; 60_exceptions.md R336, R342): the returned word goes to `readData`
(log 12); an unmapped address returns 0 and raises BusError unless FAULT is already set. -/
def doRead (addr : Word) (s : State) : State :=
  match locate s.params addr with
  | some loc => { s with readData := readLoc s loc }
  | none => { (if s.faulted then s else raise codeBusError addr s) with readData := 0#32 }

/-- Bus write to FFT_SIZE (10_state.md R30). -/
def execWrFftSize (v : Word) (s : State) : Result := busWrite s (doWriteFftSize v)

/-- Bus write to SPEC_LEN (10_state.md R41). -/
def execWrSpecLen (v : Word) (s : State) : Result := busWrite s (doWriteSpecLen v)

/-- Generic bus write (47 R297). -/
def execWr (addr data : Word) (s : State) : Result := busWrite s (doWrite addr data)

/-- Bus read (47 R298). -/
def execRd (addr : Word) (s : State) : Result := .next (doRead addr s)

end Sys2Proof.Machine
end

