-- ==== Sys2Proof/Machine/Fft.lean ====
section
/-! DEFINITION. The FFT engine (42_fft.md): twiddle factors, the butterfly, the radix-2 transform in its recursive
and its iterative form, and XFORM. The functions take the cosine and sine as an argument. -/

namespace Sys2Proof.Machine

/-- `tw(k, n)` (R180). -/
def twiddle (t : Trig) (d : Draw) (k n : Nat) : Cplx :=
  let theta := fdiv (0 :: d) (fmul (1 :: d) negTwoPi32 (u2f k)) (u2f n)
  { re := t.cos theta, im := t.sin theta }

/-- `butterfly(e, o, w)` (R181): `w` is the left operand of the product, which is computed once. -/
def butterfly (d : Draw) (e o w : Cplx) : Cplx × Cplx :=
  let x := cmul (0 :: d) w o
  (cadd (1 :: d) e x, csub (2 :: d) e x)

/-- Butterfly `j` of the transform of length `m` over the subsequence that begins at index `off` of the input: the
same operation in both forms of the transform, so it has one draw (R183; log 8). -/
def butterflyAt (t : Trig) (d : Draw) (m off j : Nat) (e o : Cplx) : Cplx × Cplx :=
  butterfly (0 :: j :: off :: m :: d) e o (twiddle t (1 :: j :: off :: m :: d) j m)

/-- `[x[0], x[2], ...]` (R182). -/
def evens : List Cplx → List Cplx
  | [] => []
  | [a] => [a]
  | a :: _ :: rest => a :: evens rest

/-- `[x[1], x[3], ...]` (R182). -/
def odds : List Cplx → List Cplx
  | [] => []
  | [_] => []
  | _ :: b :: rest => b :: odds rest

/-- The zero complex value, read only beyond the end of a list. -/
abbrev czero : Cplx := { re := f0, im := f0 }

/-- `FFT(x)` of `2^L` values (R182). `off` and `stride` say which subsequence of the first input `x` is; they only
name the draws. -/
def fftRec (t : Trig) (d : Draw) : (L off stride : Nat) → List Cplx → List Cplx
  | 0, _, _, x => x
  | L + 1, off, stride, x =>
    let e := fftRec t d L off (2 * stride) (evens x)
    let o := fftRec t d L (off + stride) (2 * stride) (odds x)
    let b := (List.range (2 ^ L)).map fun k =>
      butterflyAt t d (2 ^ (L + 1)) off k (e.getD k czero) (o.getD k czero)
    b.map Prod.fst ++ b.map Prod.snd

/-- `FFT(x)`, where `x` has `2^L` values (R182). -/
def fft (t : Trig) (d : Draw) (L : Nat) (x : List Cplx) : List Cplx := fftRec t d L 0 1 x

/-- `bitrev_L(i)`: the low `L` bits of `i` reversed (R183). -/
def bitrev : (L i : Nat) → Nat
  | 0, _ => 0
  | L + 1, i => 2 ^ L * (i % 2) + bitrev L (i / 2)

/-- One stage of the iterative form, block length `m = 2^s` (R183). -/
def fftStage (t : Trig) (d : Draw) (L s : Nat) (a : List Cplx) : List Cplx :=
  let m := 2 ^ s
  (List.range (2 ^ L)).map fun p =>
    let q := p % m
    let b := p - q
    let j := q % (m / 2)
    let r := butterflyAt t d m (bitrev L b) j (a.getD (b + j) czero) (a.getD (b + j + m / 2) czero)
    if q < m / 2 then r.1 else r.2

/-- `FFT_iter(x)` (R183): bit-reversal permutation, then the stages in increasing order. -/
def fftIter (t : Trig) (d : Draw) (L : Nat) (x : List Cplx) : List Cplx :=
  (List.range L).foldl (fun a s => fftStage t d L (s + 1) a)
    ((List.range (2 ^ L)).map fun p => x.getD (bitrev L p) czero)

/-- The draw site of XFORM (log 8). -/
abbrev siteXform : Nat := 0x04

/-- The result of `XFORM n` (R184): the transform of the real signal WSIG[0 .. n-1]. -/
def xformResult (n : Nat) (s : State) : List Cplx :=
  fft trig32 (drawAt s siteXform) n.log2 ((block s .wsig n).map fun w => { re := w, im := f0 })

/-- The writes of `XFORM n` (R184; 10_state.md R54). -/
def doXform (n : Nat) (s : State) : State :=
  let x := xformResult n s
  storeBlock .xim (x.map Cplx.im) (storeBlock .xre (x.map Cplx.re) s)

/-- `XFORM n` (R184). -/
def execXform (n : Len) (s : State) : Result :=
  busWrite s (sizeChecked (legalPow2 s.params 1 (lenNat n)) (lenInfo n) (doXform (lenNat n)))

end Sys2Proof.Machine
end

