-- ==== Sys2Proof/Machine/Waveform.lean ====
section
/-! DEFINITION. The waveform ring: WWRITE, WSNAP (45_waveform.md). -/

namespace Sys2Proof.Machine

/-- `(WRITE_POS + i) mod 1024` (R251; 40_numerics.md R146). -/
def ringSlot (pos i : Nat) : Nat := (pos + i) % Config.wcap

/-- The ring after the samples `vs` have been written from the cursor `pos` on, in ascending order (R251). -/
def ringAppend (pos : Nat) : Memory → List Word → Memory
  | w, [] => w
  | w, v :: vs => ringAppend (pos + 1) (Memory.ringWrite w (ringSlot pos 0) v) vs

/-- The writes of `WWRITE n` (R251). -/
def doWwrite (n : Nat) (s : State) : State :=
  { s with
    wave := ringAppend s.writePos.toNat s.wave (block s .sig n)
    writePos := BitVec.ofNat 10 (ringSlot s.writePos.toNat n) }

/-- The writes of WSNAP (R252). -/
def doWsnap (s : State) : State := { s with wsnapBank := s.wave, wsnapPos := s.writePos }

/-- `WWRITE n` (R251). -/
def execWwrite (n : Len) (s : State) : Result :=
  busWrite s (sizeChecked (legalCount s.params (lenNat n)) (lenInfo n) (doWwrite (lenNat n)))

/-- `WSNAP` (R252). -/
def execWsnap (s : State) : Result := busWrite s doWsnap

end Sys2Proof.Machine
end

