-- ==== Sys2Proof/Machine/Window.lean ====
section
/-! DEFINITION. The window generator and sample conditioning: WINGEN, PCM2F, WMUL (41_window_and_conditioning.md). -/

namespace Sys2Proof.Machine

/-- `hann(i, n)` (R160), with the cosine as an argument. -/
def hann (t : Trig) (d : Draw) (i n : Nat) : Word :=
  let theta := fdiv (0 :: d) (fmul (1 :: d) twoPi32 (u2f i)) (u2f (n - 1))
  fmul (2 :: d) fHalf (fsub (3 :: d) f1 (t.cos theta))

/-- The draw site of WINGEN (log 8). -/
abbrev siteWingen : Nat := 0x01
/-- The draw site of PCM2F (log 8). -/
abbrev sitePcm2f : Nat := 0x02
/-- The draw site of WMUL (log 8). -/
abbrev siteWmul : Nat := 0x03

/-- The writes of `WINGEN n` (R161). -/
def doWingen (n : Nat) (s : State) : State :=
  { storeBlock .win ((List.range n).map fun i => hann trig32 (i :: drawAt s siteWingen) i n) s with
    winN := BitVec.ofNat 32 n }

/-- `fdiv(i2f(PCM[i]), 32768.0)` (R162); PCM[i] is the 16-bit sample in the element's word (10_state.md R53). -/
def pcmToFloat (d : Draw) (w : Word) : Word := fdiv d (i2f (w.setWidth 16).toInt) f32768

/-- The writes of `PCM2F n` (R162). -/
def doPcm2f (n : Nat) (s : State) : State :=
  storeBlock .sig ((List.range n).map fun i => pcmToFloat (i :: drawAt s sitePcm2f) (elem s .pcm i)) s

/-- The writes of `WMUL n` (R163). -/
def doWmul (n : Nat) (s : State) : State :=
  storeBlock .wsig ((List.range n).map fun i => fmul (i :: drawAt s siteWmul) (elem s .sig i) (elem s .win i)) s

/-- `WINGEN n` (R161). -/
def execWingen (n : Len) (s : State) : Result :=
  busWrite s (sizeChecked (legalPow2 s.params 2 (lenNat n)) (lenInfo n) (doWingen (lenNat n)))

/-- `PCM2F n` (R162). -/
def execPcm2f (n : Len) (s : State) : Result :=
  busWrite s (sizeChecked (legalCount s.params (lenNat n)) (lenInfo n) (doPcm2f (lenNat n)))

/-- `WMUL n` (R163). -/
def execWmul (n : Len) (s : State) : Result :=
  busWrite s (sizeChecked (legalWindowed s.winN (lenNat n)) (lenInfo n) (doWmul (lenNat n)))

end Sys2Proof.Machine
end

