-- ==== Sys2Proof/Machine/Pipeline.lean ====
section
/-! DEFINITION. The pipeline sequencer: START, STOP, CYCLE (47_pipeline_and_system.md). -/

namespace Sys2Proof.Machine

/-- The effect of START (R291): only in Idle is the source asked. -/
def doStart (s : State) : State :=
  if s.pstate = .idle then
    { s with
      pstate := if srcAvail s then .running else .idle
      srcUnav := !srcAvail s
      availAnswers := s.availAnswers.tail
      srcEvents := s.srcEvents ++ (if srcAvail s then [.srcStart] else []) }
  else s

/-- The effect of STOP (R292). -/
def doStop (s : State) : State := releaseSource s

/-- How many samples of an answer with count `c` are stored: `min(max(c, 0), n)` (R293; 20_memory.md R88). -/
def deliveredCount (c : Int) (n : Nat) : Nat := min c.toNat n

/-- The read of CYCLE (R293): SRC_COUNT takes the count, PCM the delivered samples; the answer is used up. -/
def acquire (n : Nat) (s : State) : State :=
  storeBlock .pcm
    ((List.range (deliveredCount (srcReadCount s).toInt n)).map fun i => (srcReadSample s i).signExtend 32)
    { s with srcCount := srcReadCount s, readAnswers := s.readAnswers.tail }

/-- WINGEN n unless the window memory was last generated for `n` (R293; 41 R164). -/
def refreshWindow (n : Nat) (s : State) : State := if s.winN.toNat = n then s else doWingen n s

/-- The steps of a complete cycle after the read, in D0's order (R293). -/
def processFrame (n : Nat) (s : State) : State :=
  doWwrite n (doHpush (doBuild (doXform n (doWmul n (refreshWindow n (doPcm2f n s))))))

/-- The effect of CYCLE (R293). -/
def doCycle (s : State) : State :=
  if s.pstate = .running then
    let n := s.fftSize.toNat
    let s1 := acquire n s
    if s1.srcCount.toInt < n then { s1 with cyc := .skipped } else { processFrame n s1 with cyc := .completed }
  else s

/-- `START` (R291). -/
def execStart (s : State) : Result := busWrite s doStart

/-- `STOP` (R292). -/
def execStop (s : State) : Result := busWrite s doStop

/-- `CYCLE` (R293). -/
def execCycle (s : State) : Result := busWrite s doCycle

end Sys2Proof.Machine
end

