-- ==== Sys2Proof/Machine/Dispatch.lean ====
section
/-! DEFINITION. The dispatch: one arm per instruction. -/

namespace Sys2Proof.Machine

def exec (i : Instr) (s : State) : Host.Outcome State Fault Refusal :=
  match i with
  | .wingen n => Sys2Proof.Machine.execWingen n s
  | .pcm2f n => Sys2Proof.Machine.execPcm2f n s
  | .wmul n => Sys2Proof.Machine.execWmul n s
  | .xform n => Sys2Proof.Machine.execXform n s
  | .magn n => Sys2Proof.Machine.execMagn n s
  | .zoom => Sys2Proof.Machine.execZoom s
  | .select => Sys2Proof.Machine.execSelect s
  | .build => Sys2Proof.Machine.execBuild s
  | .hpush => Sys2Proof.Machine.execHpush s
  | .hsnap => Sys2Proof.Machine.execHsnap s
  | .wwrite n => Sys2Proof.Machine.execWwrite n s
  | .wsnap => Sys2Proof.Machine.execWsnap s
  | .tick => Sys2Proof.Machine.execTick s
  | .f2bin => Sys2Proof.Machine.execF2bin s
  | .bin2f => Sys2Proof.Machine.execBin2f s
  | .start => Sys2Proof.Machine.execStart s
  | .stop => Sys2Proof.Machine.execStop s
  | .cycle => Sys2Proof.Machine.execCycle s
  | .wrFftSize v => Sys2Proof.Machine.execWrFftSize v s
  | .wrMaxHistory v => Sys2Proof.Machine.execWrMaxHistory v s
  | .wrSpecLen v => Sys2Proof.Machine.execWrSpecLen v s
  | .wr addr data => Sys2Proof.Machine.execWr addr data s
  | .rd addr => Sys2Proof.Machine.execRd addr s

end Sys2Proof.Machine
end

