-- ==== Sys2Proof/Machine/Step.lean ====
section
/-! DEFINITION. One step: one bus transaction, or one Reset (00_scope.md R9; 20_memory.md R71, R80;
70_reset_and_hazards.md R370). -/

namespace Sys2Proof.Machine

/-- What a decoded transaction does (30_encoding.md R107). -/
def runDecoded (r : Decoded) (s : State) : Result :=
  match r with
  | .ok i => exec i s
  | .illegalOpcode w => illegalCommand w s
  | .nonzeroField w => illegalCommand w s

/-- The step: it takes the next input off the bus and runs it. With none pending it stops (log 9). -/
def step (s : State) : Host.Outcome State Fault Refusal :=
  match s.bus with
  | [] => .fault .busIdle
  | .reset :: rest => .next (takeReset (fetched rest s))
  | .txn t :: rest => runDecoded (decode t) (fetched rest s)

/-- `s` with the transaction a table word stands for as the next one on the bus (log 10, log 11). -/
def State.withFetchWord (s : State) (nbits w : Nat) : State := { s with bus := .txn (tableTxn nbits w) :: s.bus }

end Sys2Proof.Machine
end

