-- ==== Sys2Proof/Safety.lean ====
section
/-! DEFINITION. The words the claims use: the invariant of the block (10_state.md R62; 20_memory.md R89), the
address map read straight from the table of 20_memory.md R74, illegal command words (30_encoding.md R105), and
correct rounding (40_numerics.md R132, R133). None of it is used by the machine. -/

namespace Sys2Proof.Machine

/-- Every pair of the list is a start and its release: the source was never left open (20_memory.md R89;
70_reset_and_hazards.md R370). -/
def releasedAll : List SrcEvent → Bool
  | [] => true
  | .srcStart :: .srcRelease :: rest => releasedAll rest
  | _ => false

/-- An address of an element of a scratch memory of the instance (20_memory.md R74). -/
def IsScratchAddr (p : Params) (a : Nat) : Prop := ∃ m i, i < scratchSize p m ∧ a = scratchBase m + i

/-- The invariant: I1 to I10 of 10_state.md R62, the source events of 20_memory.md R89, and the canonical forms of
the model's memories. -/
structure Inv (s : State) : Prop where
  /-- The parameters obey 00_scope.md R7. -/
  params_legal : s.params.legal = true
  /-- I1 -/
  fftSize_legal : isPow2 s.fftSize.toNat = true ∧ 2 ≤ s.fftSize.toNat ∧ s.fftSize.toNat ≤ s.params.nmax
  /-- I2 -/
  maxHistory_range : 1 ≤ s.maxHistory.toNat ∧ s.maxHistory.toNat ≤ s.params.hcap
  /-- I3 -/
  hist_within_cap : s.hist.length ≤ s.maxHistory.toNat
  /-- I4 -/
  zoom_range : s.zmin.toNat < s.zmax.toNat ∧ s.zmax.toNat ≤ s.params.nmax / 2
  /-- I5 -/
  specLen_range : s.specLen.toNat ≤ s.params.nmax / 2
  /-- I6 -/
  writePos_range : s.writePos.toNat < 1024
  /-- I7 -/
  winN_legal : s.winN = 0#32 ∨ isPow2 s.winN.toNat = true ∧ 2 ≤ s.winN.toNat ∧ s.winN.toNat ≤ s.params.nmax
  /-- I8 -/
  faulted_not_running : s.faulted = true → s.pstate ≠ .running
  /-- I9, for HIST -/
  hist_frames : ∀ f ∈ s.hist, 1 ≤ f.length ∧ f.length ≤ s.params.nmax / 2
  /-- I9, for HSNAP_BANK -/
  bank_frames : ∀ f ∈ s.hsnapBank, 1 ≤ f.length ∧ f.length ≤ s.params.nmax / 2
  /-- I10 -/
  errCode_iff : s.errCode ≠ 0#32 ↔ s.faulted = true
  /-- The codes that appear in ERR_CODE (10_state.md R27). -/
  errCode_codes : s.errCode = 0#32 ∨ s.errCode = 1#32 ∨ s.errCode = 5#32 ∨ s.errCode = 6#32
  /-- The snapshot bank has a frame slot for each of its frames (20_memory.md R74). -/
  bank_within_slots : s.hsnapBank.length ≤ s.params.hcap
  /-- The events since reset are those PSTATE tells (20_memory.md R89). -/
  events_match : s.srcEvents = eventsOf s.pstate
  /-- Before the last reset every start was followed by a release (20_memory.md R89; 70_reset_and_hazards.md R370). -/
  past_released : releasedAll s.pastEvents = true
  /-- The scratch memories are in canonical form. -/
  mem_wf : Memory.wf s.mem = true
  /-- Only elements that exist are listed (20_memory.md R74, R87). -/
  mem_mapped : ∀ c ∈ s.mem, IsScratchAddr s.params c.1
  /-- PCM elements are 16-bit samples (10_state.md R53). -/
  pcm_samples : ∀ c ∈ s.mem, c.1 < scratchBase .sig → pcmWord c.2 = c.2
  /-- The ring is in canonical form (10_state.md R58). -/
  wave_wf : Memory.ringWf s.wave = true
  /-- The ring's snapshot is in canonical form (10_state.md R59). -/
  waveBank_wf : Memory.ringWf s.wsnapBank = true

/-- The sizes of regions 0x0 to 0xB in words (20_memory.md R74); the other regions have none. -/
def regionSizes (p : Params) : List Nat :=
  [0x1D, p.nmax, p.nmax, p.nmax, p.nmax, p.nmax, p.nmax, p.nmax / 2, p.nmax / 2, 1024, p.hcap * (p.nmax / 2), p.hcap]

/-- A mapped bus word address (20_memory.md R73, R74, R87). -/
def Mapped (p : Params) (a : Word) : Prop :=
  a.toNat < 2 ^ 28 ∧ a.toNat % 2 ^ 24 < (regionSizes p).getD (a.toNat / 2 ^ 24) 0

/-- The offsets of the read-only registers (60_exceptions.md R336, in its order). -/
def readOnlyOffsets : List Nat :=
  [0x01, 0x02, 0x03, 0x07, 0x0B, 0x0C, 0x0D, 0x0E, 0x0F, 0x11, 0x14, 0x15, 0x17, 0x18, 0x19, 0x1A, 0x1B, 0x1C]

/-- A mapped address that is read-only: one of those registers, or a snapshot bank, regions 0x9 to 0xB
(60_exceptions.md R336). -/
def ReadOnly (p : Params) (a : Word) : Prop :=
  Mapped p a ∧ (a.toNat ∈ readOnlyOffsets ∨ 9 ≤ a.toNat / 2 ^ 24)

/-- The opcodes of the C0 commands (30_encoding.md R104). -/
def c0Opcodes : List Nat := [0x06, 0x07, 0x08, 0x09, 0x0A, 0x0C, 0x0D, 0x0E, 0x0F, 0x10, 0x11, 0x12]

/-- A word that is no command: OPC is 0x00 or above 0x12, or it is a C0 command with a non-zero field
(30_encoding.md R105). -/
def IllegalWord (w : Word) : Prop :=
  w.toNat / 2 ^ 24 = 0 ∨ 0x12 < w.toNat / 2 ^ 24 ∨ w.toNat / 2 ^ 24 ∈ c0Opcodes ∧ w.toNat % 2 ^ 24 ≠ 0

/-- `w` is a finite pattern nearest to `q`, and where two values are equally near its fraction bit 0 is 0
(40_numerics.md R133). -/
structure NearestEven (w : Word) (q : ℝ) : Prop where
  finite : isFinite w = true
  nearest : ∀ c, isFinite c = true → |(value w : ℝ) - q| ≤ |(value c : ℝ) - q|
  even : ∀ c, isFinite c = true → |(value c : ℝ) - q| = |(value w : ℝ) - q| → value c ≠ value w → fFrac w % 2 = 0

/-- Half way between the largest finite value and 2^128: from here on rounding gives infinity (40_numerics.md R133). -/
def overflowBound : ℝ := (2 ^ 25 - 1) * 2 ^ 103

/-- `w` is the correctly rounded result of an operation whose exact result is `q` (40_numerics.md R132, R133). -/
def RoundsTo (w : Word) (q : ℝ) : Prop :=
  (|q| < overflowBound → NearestEven w q) ∧ (overflowBound ≤ q → w = infinity false) ∧
    (q ≤ -overflowBound → w = infinity true)

end Sys2Proof.Machine
end

