-- ==== Sys2Proof/Certificates/Slice0/Obligations.lean ====
section
/-! DEFINITION. The statements for the provers. Register offsets, opcodes, constants and bounds are written out from
spec/, not taken from the machine's definitions. An `∃ d : Draw` names the draw of one rounding step: only a NaN
result depends on it (40_numerics.md R135; log 4). -/

open Sys2Proof Sys2Proof.Machine

/-! Encoding. -/

/-- 30_encoding.md R104: decoding what the encoder gives is the instruction itself, for every well-formed one. -/
def Obligations.DecodeOfEncodeIsIdentity : Prop := ∀ i : Instr, i.wf = true → decode (encode i) = .ok i

/-- 30_encoding.md R104: a transaction that decodes to an instruction is that instruction's encoding, so no two
transactions decode to one instruction; what decodes is well formed. -/
def Obligations.EncodeOfDecodeIsIdentity : Prop :=
  ∀ (x : Txn) (i : Instr), decode x = .ok i → encode i = x ∧ i.wf = true

/-- 30_encoding.md R110: the eleven worked encodings. -/
def Obligations.WorkedEncodingsDecode : Prop :=
  decode (.write 0x00000000#32 0x01000004#32) = .ok (.wingen 4#24) ∧
  decode (.write 0x00000000#32 0x02000200#32) = .ok (.pcm2f 512#24) ∧
  decode (.write 0x00000000#32 0x03000200#32) = .ok (.wmul 512#24) ∧
  decode (.write 0x00000000#32 0x04000001#32) = .ok (.xform 1#24) ∧
  decode (.write 0x00000000#32 0x04000064#32) = .ok (.xform 100#24) ∧
  decode (.write 0x00000000#32 0x05000008#32) = .ok (.magn 8#24) ∧
  decode (.write 0x00000000#32 0x06000000#32) = .ok .zoom ∧
  decode (.write 0x00000000#32 0x0B000403#32) = .ok (.wwrite 1027#24) ∧
  decode (.write 0x00000000#32 0x12000000#32) = .ok .cycle ∧
  decode (.write 0x00000000#32 0x06000001#32) = .nonzeroField 0x06000001#32 ∧
  decode (.write 0x00000000#32 0x13000000#32) = .illegalOpcode 0x13000000#32

/-! Steps, reset, faults. -/

/-- 20_memory.md R71, R80: a step takes the next transaction off the bus and runs the instruction it decodes to. The
step's own part is `fetched`: the input is consumed and the draw counter advances (the model's fields, log 8, log 9). -/
def Obligations.StepRunsDecodedInstruction : Prop :=
  ∀ (s : State) (x : Txn) (rest : List BusInput) (i : Instr), s.bus = .txn x :: rest → decode x = .ok i →
    step s = exec i { s with bus := rest, draws := s.draws + 1 }

/-- 30_encoding.md R105, 60_exceptions.md R335: a word that is no command, written to CMD, raises IllegalCommand with
the word, and does nothing else; the words 0 and 0xFFFF_FFFF are such words. -/
def Obligations.IllegalWordRaisesIllegalCommand : Prop :=
  (∀ (s : State) (w : Word) (rest : List BusInput), s.bus = .txn (.write 0x00000000#32 w) :: rest → IllegalWord w →
    s.faulted = false → step s = .next (raise 5#32 w { s with bus := rest, draws := s.draws + 1 })) ∧
  IllegalWord 0x00000000#32 ∧ IllegalWord 0xFFFFFFFF#32 ∧
  (∀ w : Word, IllegalWord w ↔ ∀ i : Instr, decode (.write 0x00000000#32 w) ≠ .ok i)

/-- 60_exceptions.md R340: what taking a fault writes, and that it writes nothing else. -/
def Obligations.FaultEntryWritesRecordAndReleasesSource : Prop :=
  ∀ (code info : Word) (s : State),
    (s.pstate = .running → raise code info s =
      { s with errCode := code, errInfo := info, faulted := true, pstate := .stopped,
               srcEvents := s.srcEvents ++ [.srcRelease] }) ∧
    (s.pstate ≠ .running → raise code info s = { s with errCode := code, errInfo := info, faulted := true })

/-- 60_exceptions.md R342, R343: in the faulted state every write instruction changes nothing, and a step on any
transaction changes nothing but the bus, the draw counter and the word returned to a reader (the model's fields):
only Reset leaves the state. -/
def Obligations.FaultedStateDiscardsWrites : Prop :=
  ∀ s : State, s.faulted = true →
    (∀ i : Instr, (∀ a, i ≠ .rd a) → exec i s = .next s) ∧
    (∀ a, ∃ w, exec (.rd a) s = .next { s with readData := w }) ∧
    (∀ a, ¬ Mapped s.params a → exec (.rd a) s = .next { s with readData := 0#32 }) ∧
    (∀ x rest, s.bus = .txn x :: rest →
      ∃ w, step s = .next { s with bus := rest, draws := s.draws + 1, readData := w })

/-- 60_exceptions.md R331: the complete list of the causes of InvalidSize, with the information word of each: each
condition faults, and an instruction that takes the fault meets its condition. -/
def Obligations.InvalidSizeCauses : Prop :=
  ∀ s : State, s.faulted = false →
    (∀ v : Word, ¬ (isPow2 v.toNat = true ∧ 2 ≤ v.toNat ∧ v.toNat ≤ s.params.nmax) →
      exec (.wrFftSize v) s = .next (raise 1#32 v s)) ∧
    (∀ v : Word, s.params.nmax / 2 < v.toNat → exec (.wrSpecLen v) s = .next (raise 1#32 v s)) ∧
    (∀ n : Len, ¬ (isPow2 n.toNat = true ∧ 2 ≤ n.toNat ∧ n.toNat ≤ s.params.nmax) →
      exec (.wingen n) s = .next (raise 1#32 (n.setWidth 32) s)) ∧
    (∀ n : Len, s.params.nmax < n.toNat → exec (.pcm2f n) s = .next (raise 1#32 (n.setWidth 32) s)) ∧
    (∀ n : Len, s.winN = 0#32 ∨ n.setWidth 32 ≠ s.winN → exec (.wmul n) s = .next (raise 1#32 (n.setWidth 32) s)) ∧
    (∀ n : Len, ¬ (isPow2 n.toNat = true ∧ 1 ≤ n.toNat ∧ n.toNat ≤ s.params.nmax) →
      exec (.xform n) s = .next (raise 1#32 (n.setWidth 32) s)) ∧
    (∀ n : Len, ¬ (isPow2 n.toNat = true ∧ 2 ≤ n.toNat ∧ n.toNat ≤ s.params.nmax) →
      exec (.magn n) s = .next (raise 1#32 (n.setWidth 32) s)) ∧
    (∀ n : Len, s.params.nmax < n.toNat → exec (.wwrite n) s = .next (raise 1#32 (n.setWidth 32) s)) ∧
    (s.specLen = 0#32 → exec .hpush s = .next (raise 1#32 0#32 s)) ∧
    (∀ (i : Instr) (t : State), i.wf = true → exec i s = .next t → t.faulted = true → t.errCode = 1#32 →
      (∃ v : Word, i = .wrFftSize v ∧ ¬ (isPow2 v.toNat = true ∧ 2 ≤ v.toNat ∧ v.toNat ≤ s.params.nmax)) ∨
      (∃ v : Word, i = .wrSpecLen v ∧ s.params.nmax / 2 < v.toNat) ∨
      (∃ n : Len, i = .wingen n ∧ ¬ (isPow2 n.toNat = true ∧ 2 ≤ n.toNat ∧ n.toNat ≤ s.params.nmax)) ∨
      (∃ n : Len, i = .pcm2f n ∧ s.params.nmax < n.toNat) ∨
      (∃ n : Len, i = .wmul n ∧ (s.winN = 0#32 ∨ n.setWidth 32 ≠ s.winN)) ∨
      (∃ n : Len, i = .xform n ∧ ¬ (isPow2 n.toNat = true ∧ 1 ≤ n.toNat ∧ n.toNat ≤ s.params.nmax)) ∨
      (∃ n : Len, i = .magn n ∧ ¬ (isPow2 n.toNat = true ∧ 2 ≤ n.toNat ∧ n.toNat ≤ s.params.nmax)) ∨
      (∃ n : Len, i = .wwrite n ∧ s.params.nmax < n.toNat) ∨
      (i = .hpush ∧ s.specLen = 0#32))

/-- 60_exceptions.md R336, 20_memory.md R87: BusError, with the address, for reads and writes of unmapped addresses and
for writes to read-only addresses; a faulting read returns 0; when FAULT is already set it only returns 0. -/
def Obligations.BusErrorCauses : Prop :=
  ∀ (s : State) (a : Word),
    (s.faulted = false → ¬ Mapped s.params a → exec (.rd a) s = .next { raise 6#32 a s with readData := 0#32 }) ∧
    (s.faulted = true → ¬ Mapped s.params a → exec (.rd a) s = .next { s with readData := 0#32 }) ∧
    (∀ v, s.faulted = false → (Instr.wr a v).wf = true → ¬ Mapped s.params a ∨ ReadOnly s.params a →
      exec (.wr a v) s = .next (raise 6#32 a s))

/-- 10_state.md R63, 70_reset_and_hazards.md R370: the state after reset, for every instance: what every register
reads, and empty or silent stores. -/
def Obligations.ResetValues : Prop :=
  ∀ p : Params, p.legal = true →
    (∀ x ∈ [(Reg.cmd, 0#32), (.status, 0#32), (.errCode, 0#32), (.errInfo, 0#32), (.sampleRate, 48000#32),
        (.fftSize, BitVec.ofNat 32 (min 512 p.nmax)), (.updateIntervalMs, 20#32), (.effIntervalMs, 20#32),
        (.maxHistory, BitVec.ofNat 32 p.hcap), (.minFreqHz, 0#32), (.maxFreqHz, 0x46BB8000#32), (.histLen, 0#32),
        (.writePos, 0#32), (.winN, 0#32), (.zmin, 0#32), (.zmax, 1#32), (.specLen, 0#32), (.peak, 0#32),
        (.tickRange, 0#32), (.tickCount, 8#32), (.tickStep, 0#32), (.tickSub, 0#32), (.mapArg, 0#32), (.mapRes, 0#32),
        (.hsnapLen, 0#32), (.wsnapPos, 0#32), (.srcCount, 0#32), (.nmaxR, BitVec.ofNat 32 p.nmax),
        (.hcapR, BitVec.ofNat 32 p.hcap)], readReg (State.resetOf p) x.1 = x.2) ∧
    (State.resetOf p).pstate = .idle ∧ (State.resetOf p).hist = [] ∧ (State.resetOf p).hsnapBank = [] ∧
    (∀ j, Memory.ringRead (State.resetOf p).wave j = 0#32) ∧
    (∀ j, Memory.ringRead (State.resetOf p).wsnapBank j = 0#32)

/-- 70_reset_and_hazards.md R371: the invariant holds at reset, for every instance. The clauses on the canonical forms
of the memories are the model's; the clause `past_released` rests on the record `pastEvents` starting empty, which is
the model's choice too (log 25). -/
def Obligations.ResetSatisfiesInvariant : Prop := ∀ p : Params, p.legal = true → Inv (State.resetOf p)

/-- 10_state.md R62, 20_memory.md R89: every step keeps the invariant. -/
def Obligations.StepKeepsInvariant : Prop := ∀ s t : State, Inv s → step s = .next t → Inv t

/-- 70_reset_and_hazards.md R370: Reset takes every register, HIST, WAVE and the banks to their reset values, releases
the source if it is held, and keeps the parameters. The model's own fields: the inputs and answers to come are kept
(log 7, log 9), the draw counter and the epoch that names the new scratch contents advance (log 3, log 8), the record
of events grows (log 13), and the word returned to a reader becomes 0, which is the model's choice (log 12, log 25). -/
def Obligations.ResetInputGivesResetState : Prop :=
  ∀ (s : State) (rest : List BusInput), s.bus = .reset :: rest →
    step s = .next
      { State.resetOf s.params with
        bus := rest
        availAnswers := s.availAnswers
        readAnswers := s.readAnswers
        draws := s.draws + 1
        epoch := s.epoch + 1
        pastEvents :=
          s.pastEvents ++ s.srcEvents ++ (if s.pstate = .running then [.srcRelease] else []) }

/-- 47 R298, 20_memory.md R72: a read of a mapped address, in the faulted state too, changes nothing but the word
returned to the reader (the model's field, log 12). -/
def Obligations.ReadOfMappedAddressChangesNothing : Prop :=
  ∀ (s : State) (a : Word), Mapped s.params a →
    ∃ w, exec (.rd a) s = .next { s with readData := w }

/-! The window generator and sample conditioning. -/

/-- 41 R160, R161. -/
def Obligations.WingenWritesHannWindow : Prop :=
  ∀ (s : State) (n : Len), s.faulted = false →
    (isPow2 n.toNat = true ∧ 2 ≤ n.toNat ∧ n.toNat ≤ s.params.nmax →
      ∃ t, exec (.wingen n) s = .next t ∧
        (∀ i, i < n.toNat → ∃ d1 d2 d3 d4 : Draw, elem t .win i =
          fmul d1 0x3F000000#32 (fsub d2 0x3F800000#32
            (trig32.cos (fdiv d3 (fmul d4 0x40C90FDB#32 (u2f i)) (u2f (n.toNat - 1)))))) ∧
        (∀ a, a < 0x03000000 ∨ 0x03000000 + n.toNat ≤ a → peek t a = peek s a) ∧
        t = { s with mem := t.mem, winN := n.setWidth 32 }) ∧
    (¬ (isPow2 n.toNat = true ∧ 2 ≤ n.toNat ∧ n.toNat ≤ s.params.nmax) →
      exec (.wingen n) s = .next (raise 1#32 (n.setWidth 32) s))

/-- 41 R162: the conversion, and that it is exact. -/
def Obligations.Pcm2fConvertsSamplesExactly : Prop :=
  ∀ (s : State) (n : Len), s.faulted = false →
    (n.toNat ≤ s.params.nmax →
      ∃ t, exec (.pcm2f n) s = .next t ∧
        (∀ i, i < n.toNat → (∃ d : Draw, elem t .sig i =
            fdiv d (i2f ((elem s .pcm i).setWidth 16).toInt) 0x47000000#32) ∧
          isFinite (elem t .sig i) = true ∧
          value (elem t .sig i) = ((elem s .pcm i).setWidth 16).toInt / 32768) ∧
        (∀ a, a < 0x02000000 ∨ 0x02000000 + n.toNat ≤ a → peek t a = peek s a) ∧
        t = { s with mem := t.mem }) ∧
    (s.params.nmax < n.toNat → exec (.pcm2f n) s = .next (raise 1#32 (n.setWidth 32) s))

/-- 41 R163. -/
def Obligations.WmulMultipliesByWindow : Prop :=
  ∀ (s : State) (n : Len), s.faulted = false →
    (s.winN ≠ 0#32 → n.setWidth 32 = s.winN →
      ∃ t, exec (.wmul n) s = .next t ∧
        (∀ i, i < n.toNat → ∃ d : Draw, elem t .wsig i = fmul d (elem s .sig i) (elem s .win i)) ∧
        (∀ a, a < 0x04000000 ∨ 0x04000000 + n.toNat ≤ a → peek t a = peek s a) ∧
        t = { s with mem := t.mem }) ∧
    (s.winN = 0#32 ∨ n.setWidth 32 ≠ s.winN → exec (.wmul n) s = .next (raise 1#32 (n.setWidth 32) s))

/-- 41 R160 (a): coefficient 0 of every window is +0, whatever the cosine is away from its exact points. -/
def Obligations.FirstWindowCoefficientIsZero : Prop :=
  ∀ (g : Trig) (d : Draw) (n : Nat), g.Exact → 2 ≤ n → n ≤ 2 ^ 23 → hann g d 0 n = 0x00000000#32

/-! The FFT engine. -/

/-- 42 R182: the recursion. The base case is the identity; in the other case element `k` and element `k + n/2` are the
two outputs of the butterfly of element `k` of the transforms of the even-indexed and the odd-indexed half. -/
def Obligations.TransformIsRadix2Recursion : Prop :=
  ∀ (g : Trig) (d : Draw) (off stride : Nat),
    (∀ x, fftRec g d 0 off stride x = x) ∧
    (∀ (L : Nat) (x : List Cplx), x.length = 2 ^ (L + 1) →
      ∃ e o : List Cplx,
        e = fftRec g d L off (2 * stride) ((List.range (2 ^ L)).map fun i => x.getD (2 * i) czero) ∧
        o = fftRec g d L (off + stride) (2 * stride) ((List.range (2 ^ L)).map fun i => x.getD (2 * i + 1) czero) ∧
        (fftRec g d (L + 1) off stride x).length = 2 ^ (L + 1) ∧
        ∀ k, k < 2 ^ L → ∃ d1 d2 : Draw,
          let y := butterfly d1 (e.getD k czero) (o.getD k czero) (twiddle g d2 k (2 ^ (L + 1)))
          (fftRec g d (L + 1) off stride x).getD k czero = y.1 ∧
          (fftRec g d (L + 1) off stride x).getD (k + 2 ^ L) czero = y.2)

/-- 42 R183: the iterative, bit-reversal form computes exactly the bits of the recursion. For NaN patterns, which the
spec leaves open, this rests on the model's naming of the draws: a butterfly has one draw in both forms (log 8). -/
def Obligations.IterativeTransformEqualsRecursive : Prop :=
  ∀ (g : Trig) (d : Draw) (L : Nat) (x : List Cplx), x.length = 2 ^ L → fftIter g d L x = fft g d L x

/-- 42 R180 (c): the twiddle of index 0 is (1.0, -0) for every length, whatever the cosine and sine are away from
their exact points. -/
def Obligations.TwiddleZeroIsOne : Prop :=
  ∀ (g : Trig) (d : Draw) (L : Nat), g.Exact → 1 ≤ L → L ≤ 23 →
    twiddle g d 0 (2 ^ L) = { re := 0x3F800000#32, im := 0x80000000#32 }

/-- 42 R181, 40 R150: the butterfly written out, ten roundings, the product computed once. -/
def Obligations.ButterflyWrittenOut : Prop :=
  ∀ (d : Draw) (e o w : Cplx), ∃ d0 d1 d2 d3 d4 d5 d6 d7 d8 d9 : Draw,
    let tr := fsub d0 (fmul d1 w.re o.re) (fmul d2 w.im o.im)
    let ti := fadd d3 (fmul d4 w.re o.im) (fmul d5 w.im o.re)
    butterfly d e o w =
      ({ re := fadd d6 e.re tr, im := fadd d7 e.im ti }, { re := fsub d8 e.re tr, im := fsub d9 e.im ti })

/-- 42 R184. -/
def Obligations.XformWritesTransformOfWindowedSignal : Prop :=
  ∀ (s : State) (n : Len), s.faulted = false →
    (isPow2 n.toNat = true ∧ 1 ≤ n.toNat ∧ n.toNat ≤ s.params.nmax →
      ∃ t, ∃ (d : Draw) (x : List Cplx), exec (.xform n) s = .next t ∧
        x = fft trig32 d n.toNat.log2
          ((List.range n.toNat).map fun i => { re := elem s .wsig i, im := 0x00000000#32 }) ∧
        x.length = n.toNat ∧
        (∀ k, k < n.toNat → elem t .xre k = (x.getD k czero).re ∧ elem t .xim k = (x.getD k czero).im) ∧
        (∀ a, (a < 0x05000000 ∨ 0x05000000 + n.toNat ≤ a) → (a < 0x06000000 ∨ 0x06000000 + n.toNat ≤ a) →
          peek t a = peek s a) ∧
        t = { s with mem := t.mem }) ∧
    (¬ (isPow2 n.toNat = true ∧ 1 ≤ n.toNat ∧ n.toNat ≤ s.params.nmax) →
      exec (.xform n) s = .next (raise 1#32 (n.setWidth 32) s))

/-! The spectral frame builder. -/

/-- 43 R200 to R203: magnitudes, their peak, the quotients, PEAK and DEGEN. -/
def Obligations.MagnWritesNormalisedMagnitudes : Prop :=
  ∀ (s : State) (n : Len), s.faulted = false →
    (isPow2 n.toNat = true ∧ 2 ≤ n.toNat ∧ n.toNat ≤ s.params.nmax →
      ∃ t, ∃ m : List Word, exec (.magn n) s = .next t ∧ m.length = n.toNat / 2 ∧
        (∀ k, k < n.toNat / 2 → ∃ d1 d2 d3 d4 : Draw, m.getD k 0#32 =
          fsqrt d1 (fadd d2 (fmul d3 (elem s .xre k) (elem s .xre k)) (fmul d4 (elem s .xim k) (elem s .xim k)))) ∧
        (t.peak = 0#32 ∨ t.peak ∈ m ∧ fgt t.peak 0#32 = true) ∧
        (∀ w ∈ m, fgt w t.peak = false) ∧
        (fgt t.peak 0#32 = true → ∀ k, k < n.toNat / 2 →
          ∃ d : Draw, elem t .norm k = fdiv d (m.getD k 0#32) t.peak) ∧
        (fgt t.peak 0#32 = false → ∀ k, k < n.toNat / 2 → elem t .norm k = 0#32) ∧
        (t.degen = true ↔ fgt t.peak 0#32 = false) ∧
        (∀ a, a < 0x07000000 ∨ 0x07000000 + n.toNat / 2 ≤ a → peek t a = peek s a) ∧
        t = { s with mem := t.mem, peak := t.peak, degen := t.degen }) ∧
    (¬ (isPow2 n.toNat = true ∧ 2 ≤ n.toNat ∧ n.toNat ≤ s.params.nmax) →
      exec (.magn n) s = .next (raise 1#32 (n.setWidth 32) s))

/-- 43 R202, R208: when every magnitude is finite and the peak is above zero, every entry of NORM is in [0, 1], and an
entry whose magnitude is the peak is exactly 1.0. -/
def Obligations.NormalisedMagnitudesLieInUnitInterval : Prop :=
  ∀ (d : Draw) (m : List Word), (∀ w ∈ m, isFinite w = true ∧ fSign w = false) → fgt (peakOf m) 0#32 = true →
    (normalise d m (peakOf m)).length = m.length ∧
    (∀ k, k < m.length →
      fle 0x00000000#32 ((normalise d m (peakOf m)).getD k 0#32) = true ∧
      fle ((normalise d m (peakOf m)).getD k 0#32) 0x3F800000#32 = true ∧
      (m.getD k 0#32 = peakOf m → (normalise d m (peakOf m)).getD k 0#32 = 0x3F800000#32)) ∧
    0x3F800000#32 ∈ normalise d m (peakOf m)

/-- 43 R204, R205: the zoom range, and that it is never empty. -/
def Obligations.ZoomWritesClampedBinRange : Prop :=
  ∀ s : State, s.faulted = false →
    ∃ t, exec .zoom s = .next t ∧
      (∃ d1 d2 d3 : Draw,
        let half : Int := (s.fftSize.toNat / 2 : Nat)
        let df := fdiv d1 (u2f s.sampleRate.toNat) (u2f s.fftSize.toNat)
        let lo : Int := min (max (f2iFloor (fdiv d2 s.minFreqHz df)) 0) (half - 1)
        let hi : Int := min (max (f2iCeil (fdiv d3 s.maxFreqHz df)) (lo + 1)) half
        t.zmin = BitVec.ofInt 32 lo ∧ t.zmax = BitVec.ofInt 32 hi ∧
        (2 ≤ s.fftSize.toNat → (t.zmin.toNat : Int) = lo ∧ (t.zmax.toNat : Int) = hi ∧
          t.zmin.toNat < t.zmax.toNat ∧ t.zmax.toNat ≤ s.fftSize.toNat / 2)) ∧
      t = { s with zmin := t.zmin, zmax := t.zmax }

/-- 43 R206. -/
def Obligations.SelectCopiesZoomedSlice : Prop :=
  ∀ s : State, Inv s → s.faulted = false →
    ∃ t, exec .select s = .next t ∧
      (∀ j, j < s.zmax.toNat - s.zmin.toNat → elem t .spec j = elem s .norm (s.zmin.toNat + j)) ∧
      t.specLen.toNat = s.zmax.toNat - s.zmin.toNat ∧
      (∀ a, a < 0x08000000 ∨ 0x08000000 + (s.zmax.toNat - s.zmin.toNat) ≤ a → peek t a = peek s a) ∧
      t = { s with mem := t.mem, specLen := t.specLen }

/-- 43 R207: BUILD is MAGN FFT_SIZE, then ZOOM, then SELECT, and completes. -/
def Obligations.BuildIsMagnZoomSelect : Prop :=
  ∀ s : State, Inv s → s.faulted = false →
    ∃ s1 s2 t, exec (.magn (s.fftSize.setWidth 24)) s = .next s1 ∧ exec .zoom s1 = .next s2 ∧
      exec .select s2 = .next t ∧ exec .build s = .next t ∧ t.faulted = false

/-! The history. -/

/-- 44 R231. -/
def Obligations.HpushInsertsFrameAndEvictsOldest : Prop :=
  ∀ s : State, s.faulted = false →
    (s.specLen ≠ 0#32 → ∃ f : Frame,
      f.length = s.specLen.toNat ∧ (∀ j, j < s.specLen.toNat → f.getD j 0#32 = elem s .spec j) ∧
      (s.hist.length < s.maxHistory.toNat → exec .hpush s = .next { s with hist := f :: s.hist }) ∧
      (s.maxHistory.toNat ≤ s.hist.length → exec .hpush s = .next { s with hist := (f :: s.hist).dropLast })) ∧
    (s.specLen = 0#32 → exec .hpush s = .next (raise 1#32 0#32 s))

/-- 44 R232: the write of MAX_HISTORY clamps, and sheds the oldest frames at once. -/
def Obligations.WriteMaxHistoryClampsAndSheds : Prop :=
  ∀ (s : State) (v : Word), s.faulted = false → s.params.legal = true →
    ∃ t, exec (.wrMaxHistory v) s = .next t ∧
      t = { s with maxHistory := t.maxHistory, hist := s.hist.take t.maxHistory.toNat } ∧
      (v.toNat = 0 → t.maxHistory.toNat = 1) ∧
      (1 ≤ v.toNat → v.toNat ≤ s.params.hcap → t.maxHistory = v) ∧
      (s.params.hcap < v.toNat → t.maxHistory.toNat = s.params.hcap) ∧
      t.hist.length = min s.hist.length t.maxHistory.toNat

/-- 44 R233. -/
def Obligations.HsnapCopiesHistory : Prop :=
  ∀ s : State, s.faulted = false → exec .hsnap s = .next { s with hsnapBank := s.hist }

/-- 44 R235 (e), 45 R254 (d), 20_memory.md R81 (d): which instructions change the stores and their snapshots. -/
def Obligations.StoresChangeOnlyByTheirInstructions : Prop :=
  ∀ (i : Instr) (s t : State), i.wf = true → exec i s = .next t →
    (t.hist ≠ s.hist → i = .hpush ∨ i = .cycle ∨ ∃ v, i = .wrMaxHistory v) ∧
    (t.hsnapBank ≠ s.hsnapBank → i = .hsnap) ∧
    (t.wave ≠ s.wave ∨ t.writePos ≠ s.writePos → i = .cycle ∨ ∃ n, i = .wwrite n) ∧
    (t.wsnapBank ≠ s.wsnapBank ∨ t.wsnapPos ≠ s.wsnapPos → i = .wsnap)

/-! The waveform ring. -/

/-- 45 R251. -/
def Obligations.WwriteAppendsToRing : Prop :=
  ∀ (s : State) (n : Len), s.faulted = false →
    (n.toNat ≤ s.params.nmax →
      ∃ t, exec (.wwrite n) s = .next t ∧
        (∀ i, i < n.toNat → n.toNat ≤ i + 1024 →
          Memory.ringRead t.wave ((s.writePos.toNat + i) % 1024) = elem s .sig i) ∧
        (∀ j, j < 1024 → (∀ i, i < n.toNat → (s.writePos.toNat + i) % 1024 ≠ j) →
          Memory.ringRead t.wave j = Memory.ringRead s.wave j) ∧
        t.writePos.toNat = (s.writePos.toNat + n.toNat) % 1024 ∧
        t = { s with wave := t.wave, writePos := t.writePos }) ∧
    (s.params.nmax < n.toNat → exec (.wwrite n) s = .next (raise 1#32 (n.setWidth 32) s))

/-- 45 R254 (c): one write of a stream of samples leaves the ring as two writes of its parts do, slot by slot. -/
def Obligations.RingAppendSplits : Prop :=
  ∀ (pos : Nat) (w : Memory) (u v : List Word),
    ringAppend pos w (u ++ v) = ringAppend ((pos + u.length) % 1024) (ringAppend pos w u) v

/-- 45 R252. -/
def Obligations.WsnapCopiesRing : Prop :=
  ∀ s : State, s.faulted = false → exec .wsnap s = .next { s with wsnapBank := s.wave, wsnapPos := s.writePos }

/-! The axis mapper. -/

/-- 46 R265, R266: inside the domain, the nearest of 1, 2, 5 times the power of ten below `raw`, the smaller multiplier
on a tie, and a fifth of it. Outside it TICK completes and changes its two result registers only (their values are
free, log 5). -/
def Obligations.TickChoosesNiceStep : Prop :=
  ∀ s : State, s.faulted = false →
    ∃ t, ∃ d : Draw, exec .tick s = .next t ∧ t = { s with tickStep := t.tickStep, tickSub := t.tickSub } ∧
      (let raw := fdiv d s.tickRange (u2f s.tickCount.toNat)
       isFinite raw = true → fgt raw 0#32 = true →
        ∃ d1 d2 d3 d4 d5 d6 d7 : Draw,
          let base := pow10 (decade raw)
          let c1 := fmul d1 0x3F800000#32 base
          let c2 := fmul d2 0x40000000#32 base
          let c5 := fmul d3 0x40A00000#32 base
          let e1 := fabs (fsub d4 raw c1)
          let e2 := fabs (fsub d5 raw c2)
          let e5 := fabs (fsub d6 raw c5)
          let step12 := if flt e2 e1 = true then c2 else c1
          let best12 := if flt e2 e1 = true then e2 else e1
          t.tickStep = (if flt e5 best12 = true then c5 else step12) ∧ t.tickSub = fdiv d7 t.tickStep 0x40A00000#32)

/-- 46 R268. -/
def Obligations.F2binFloorsFrequencyOverBinWidth : Prop :=
  ∀ s : State, s.faulted = false →
    ∃ d1 d2 : Draw, exec .f2bin s = .next { s with
      mapRes := BitVec.ofInt 32
        (f2iFloor (fdiv d1 s.mapArg (fdiv d2 (u2f s.sampleRate.toNat) (u2f s.fftSize.toNat)))) }

/-- 46 R269. -/
def Obligations.Bin2fScalesBinIndex : Prop :=
  ∀ s : State, s.faulted = false →
    ∃ d1 d2 : Draw, exec .bin2f s = .next { s with
      mapRes := fdiv d1 (fmul d2 (i2f s.mapArg.toInt) (u2f s.sampleRate.toNat)) (u2f s.fftSize.toNat) }

/-- 46 R271: while `k * SAMPLE_RATE` is at most 2^24 the frequency of bin `k` is exact and maps back to the bin. The
sample rate is taken to be above zero: with a zero rate every frequency is 0 and maps to bin 0 (46 R268, 40 R139). -/
def Obligations.BinFrequencyRoundTrip : Prop :=
  ∀ (d1 d2 : Draw) (sampleRate fftSize bin : Word), isPow2 fftSize.toNat = true → fftSize.toNat ≤ 2 ^ 23 →
    1 ≤ sampleRate.toNat → bin.toNat * sampleRate.toNat ≤ 2 ^ 24 →
    isFinite (binToFreq d2 sampleRate fftSize bin) = true ∧
    value (binToFreq d2 sampleRate fftSize bin) = (bin.toNat * sampleRate.toNat : ℚ) / fftSize.toNat ∧
    freqToBin d1 sampleRate fftSize (binToFreq d2 sampleRate fftSize bin) = bin.toNat

/-! The pipeline. -/

/-- 47 R291: START asks the source in Idle only. The answer is the next one the source has ready, and any one at all
where it has none (log 7). -/
def Obligations.StartAsksSourceInIdle : Prop :=
  ∀ s : State, s.faulted = false →
    (s.pstate = .idle → ∃ a : Bool, (∀ b rest, s.availAnswers = b :: rest → a = b) ∧
      (a = true → exec .start s = .next { s with
        pstate := .running, srcUnav := false, srcEvents := s.srcEvents ++ [.srcStart],
        availAnswers := s.availAnswers.tail }) ∧
      (a = false → exec .start s = .next { s with srcUnav := true, availAnswers := s.availAnswers.tail })) ∧
    (s.pstate ≠ .idle → exec .start s = .next s)

/-- 47 R292. -/
def Obligations.StopReleasesSourceOnce : Prop :=
  ∀ s : State, s.faulted = false →
    (s.pstate = .running →
      exec .stop s = .next { s with pstate := .stopped, srcEvents := s.srcEvents ++ [.srcRelease] }) ∧
    (s.pstate ≠ .running → exec .stop s = .next s)

/-- 47 R293, R295, 60 R332: CYCLE outside Running does nothing; on a short read it completes, stores the delivered
samples and records the count and the outcome, and nothing else. The source's answer is the next one it has ready, and
a free one where it has none; that it is used up is the model's (log 7). -/
def Obligations.CycleIgnoredOrShort : Prop :=
  ∀ s : State, s.faulted = false →
    (s.pstate ≠ .running → exec .cycle s = .next s) ∧
    (s.pstate = .running → (srcReadCount s).toInt < s.fftSize.toNat →
      ∃ t, exec .cycle s = .next t ∧
        (∀ i : Nat, i < s.fftSize.toNat → (i : Int) < (srcReadCount s).toInt →
          elem t .pcm i = (srcReadSample s i).signExtend 32) ∧
        (∀ a : Nat, a < 0x01000000 ∨ (0x01000000 : Int) + max (srcReadCount s).toInt 0 ≤ (a : Int) →
          peek t a = peek s a) ∧
        t = { s with mem := t.mem, srcCount := srcReadCount s, readAnswers := s.readAnswers.tail, cyc := .skipped }) ∧
    (∀ r rest, s.readAnswers = r :: rest →
      srcReadCount s = r.count ∧ ∀ i, i < r.samples.length → some (srcReadSample s i) = r.samples[i]?)

/-- 47 R293, R300: CYCLE in Running with a complete read completes: it is the sequence of the unit commands on the
state in which PCM holds the source's samples, and then CYC = 1. The source's answer is the one that
`CycleIgnoredOrShort` ties to the answers the source has ready; that it is used up is the model's (log 7). -/
def Obligations.CompleteCycleIsUnitCommandSequence : Prop :=
  ∀ s : State, Inv s → s.faulted = false → s.pstate = .running →
    (s.fftSize.toNat : Int) ≤ (srcReadCount s).toInt →
      ∃ s0 s1 s2 s3 s4 s5 s6 s7 : State,
        s0 = { s with mem := s0.mem, srcCount := srcReadCount s, readAnswers := s.readAnswers.tail } ∧
        (∀ i, i < s.fftSize.toNat → elem s0 .pcm i = (srcReadSample s i).signExtend 32) ∧
        (∀ a, (a < 0x01000000 ∨ 0x01000000 + s.fftSize.toNat ≤ a) → peek s0 a = peek s a) ∧
        exec (.pcm2f (s.fftSize.setWidth 24)) s0 = .next s1 ∧
        (s.winN = s.fftSize → s2 = s1) ∧
        (s.winN ≠ s.fftSize → exec (.wingen (s.fftSize.setWidth 24)) s1 = .next s2) ∧
        exec (.wmul (s.fftSize.setWidth 24)) s2 = .next s3 ∧
        exec (.xform (s.fftSize.setWidth 24)) s3 = .next s4 ∧
        exec .build s4 = .next s5 ∧
        exec .hpush s5 = .next s6 ∧
        exec (.wwrite (s.fftSize.setWidth 24)) s6 = .next s7 ∧
        exec .cycle s = .next { s7 with cyc := .completed } ∧ s7.faulted = false

/-! Registers and memory on the bus. -/

/-- 10_state.md R26: the layout of STATUS. -/
def Obligations.StatusWordLayout : Prop :=
  ∀ s : State,
    (statusWord s).toNat =
      (match s.pstate with | .idle => 0 | .running => 1 | .stopped => 2) + (if s.faulted then 4 else 0) +
      (match s.cyc with | .none => 0 | .completed => 8 | .skipped => 16) + (if s.degen then 32 else 0) +
      (if s.srcUnav then 64 else 0)

/-- 10_state.md R21, R25 to R51, 47 R298: what a read of each register returns, faulted or not, and that it changes
nothing. -/
def Obligations.RegisterReadsReturnTheirWords : Prop :=
  ∀ s : State, ∀ x ∈ [(0x00#32, 0#32), (0x01#32, statusWord s), (0x02#32, s.errCode), (0x03#32, s.errInfo),
      (0x04#32, s.sampleRate), (0x05#32, s.fftSize), (0x06#32, s.updateIntervalMs),
      (0x07#32, BitVec.ofNat 32 (max s.updateIntervalMs.toNat 20)), (0x08#32, s.maxHistory), (0x09#32, s.minFreqHz),
      (0x0A#32, s.maxFreqHz), (0x0B#32, BitVec.ofNat 32 s.hist.length), (0x0C#32, BitVec.ofNat 32 s.writePos.toNat),
      (0x0D#32, s.winN), (0x0E#32, s.zmin), (0x0F#32, s.zmax), (0x10#32, s.specLen), (0x11#32, s.peak),
      (0x12#32, s.tickRange), (0x13#32, s.tickCount), (0x14#32, s.tickStep), (0x15#32, s.tickSub), (0x16#32, s.mapArg),
      (0x17#32, s.mapRes), (0x18#32, BitVec.ofNat 32 s.hsnapBank.length), (0x19#32, BitVec.ofNat 32 s.wsnapPos.toNat),
      (0x1A#32, s.srcCount), (0x1B#32, BitVec.ofNat 32 s.params.nmax), (0x1C#32, BitVec.ofNat 32 s.params.hcap)],
    exec (.rd x.1) s = .next { s with readData := x.2 }

/-- 20_memory.md R74 to R76, R86: what a read of a memory or bank word returns, faulted or not. Under the invariant a
PCM element, never-written ones included, is the sign extension of its low 16 bits. Outside the valid part of the
history snapshot a read returns some word (93, U2). -/
def Obligations.MemoryReadsReturnTheirWords : Prop :=
  ∀ s : State, s.params.legal = true →
    (∀ m i, i < scratchSize s.params m →
      exec (.rd (BitVec.ofNat 32 (scratchBase m + i))) s = .next { s with readData := elem s m i }) ∧
    (Inv s → ∀ i, i < s.params.nmax → elem s .pcm i = ((elem s .pcm i).setWidth 16).signExtend 32) ∧
    (∀ j, j < 1024 →
      exec (.rd (BitVec.ofNat 32 (0x09000000 + j))) s = .next { s with readData := Memory.ringRead s.wsnapBank j }) ∧
    (∀ i j, i < s.params.hcap → j < s.params.nmax / 2 →
      ∃ w, exec (.rd (BitVec.ofNat 32 (0x0A000000 + i * (s.params.nmax / 2) + j))) s =
          .next { s with readData := w } ∧
        ∀ (f : Frame) (v : Word), s.hsnapBank[i]? = some f → f[j]? = some v → w = v) ∧
    (∀ i, i < s.params.hcap →
      exec (.rd (BitVec.ofNat 32 (0x0B000000 + i))) s =
        .next { s with readData := (match s.hsnapBank[i]? with
          | some f => BitVec.ofNat 32 f.length
          | none => 0#32) })

/-- 47 R297, 20_memory.md R86: plain writes. Registers take all 32 bits; a scratch element too, but for PCM the low
half, sign-extended on a read; nothing else changes. -/
def Obligations.PlainWritesStoreTheirWord : Prop :=
  ∀ (s : State) (v : Word), s.faulted = false → s.params.legal = true →
    exec (.wr 0x04#32 v) s = .next { s with sampleRate := v } ∧
    exec (.wr 0x06#32 v) s = .next { s with updateIntervalMs := v } ∧
    exec (.wr 0x09#32 v) s = .next { s with minFreqHz := v } ∧
    exec (.wr 0x0A#32 v) s = .next { s with maxFreqHz := v } ∧
    exec (.wr 0x12#32 v) s = .next { s with tickRange := v } ∧
    exec (.wr 0x13#32 v) s = .next { s with tickCount := v } ∧
    exec (.wr 0x16#32 v) s = .next { s with mapArg := v } ∧
    (∀ m i, i < scratchSize s.params m →
      ∃ t, exec (.wr (BitVec.ofNat 32 (scratchBase m + i)) v) s = .next t ∧
        elem t m i = (if m = .pcm then (v.setWidth 16).signExtend 32 else v) ∧
        (∀ a, a ≠ scratchBase m + i → peek t a = peek s a) ∧
        t = { s with mem := t.mem })

/-- 10_state.md R30, R41: the two checked writes. -/
def Obligations.CheckedRegisterWrites : Prop :=
  ∀ (s : State) (v : Word), s.faulted = false →
    (isPow2 v.toNat = true ∧ 2 ≤ v.toNat ∧ v.toNat ≤ s.params.nmax →
      exec (.wrFftSize v) s = .next { s with fftSize := v }) ∧
    (¬ (isPow2 v.toNat = true ∧ 2 ≤ v.toNat ∧ v.toNat ≤ s.params.nmax) →
      exec (.wrFftSize v) s = .next (raise 1#32 v s)) ∧
    (v.toNat ≤ s.params.nmax / 2 → exec (.wrSpecLen v) s = .next { s with specLen := v }) ∧
    (s.params.nmax / 2 < v.toNat → exec (.wrSpecLen v) s = .next (raise 1#32 v s))

/-- 00_scope.md R7, 70_reset_and_hazards.md R370: no step changes the instance's parameters, and the window tag changes
only by WINGEN and CYCLE (10_state.md R39). -/
def Obligations.ParametersAndWindowTagAreStable : Prop :=
  (∀ s t : State, step s = .next t → t.params = s.params) ∧
  (∀ (i : Instr) (s t : State), exec i s = .next t → t.winN ≠ s.winN → i = .cycle ∨ ∃ n, i = .wingen n)

/-! Numerics. -/

/-- 40 R132, R133, R134: add, subtract, multiply and divide are correctly rounded on finite operands. -/
def Obligations.BasicOperationsCorrectlyRounded : Prop :=
  ∀ (d : Draw) (a b : Word), isFinite a = true → isFinite b = true →
    RoundsTo (fadd d a b) ((value a : ℝ) + value b) ∧ RoundsTo (fsub d a b) ((value a : ℝ) - value b) ∧
    RoundsTo (fmul d a b) ((value a : ℝ) * value b) ∧
    (isZero b = false → RoundsTo (fdiv d a b) ((value a : ℝ) / value b))

/-- 40 R132, R133: the square root is correctly rounded on finite operands that are not negative. -/
def Obligations.SquareRootCorrectlyRounded : Prop :=
  ∀ (d : Draw) (a : Word), isFinite a = true → fSign a = false → RoundsTo (fsqrt d a) (Real.sqrt (value a))

/-- 40 R135: NaN operands, invalid operations, division by zero. The operations with an infinite operand that are not
invalid are in `InfiniteOperandArithmetic`. -/
def Obligations.NonFiniteArithmetic : Prop :=
  ∀ (d : Draw) (a b : Word),
    (isNaN a = true ∨ isNaN b = true →
      isNaN (fadd d a b) = true ∧ isNaN (fsub d a b) = true ∧ isNaN (fmul d a b) = true ∧ isNaN (fdiv d a b) = true) ∧
    (isNaN a = true → isNaN (fsqrt d a) = true) ∧
    (isInf a = true → isInf b = true → fSign a ≠ fSign b → isNaN (fadd d a b) = true) ∧
    (isInf a = true → isInf b = true → fSign a = fSign b → isNaN (fsub d a b) = true) ∧
    (isZero a = true → isInf b = true → isNaN (fmul d a b) = true ∧ isNaN (fmul d b a) = true) ∧
    (isZero a = true → isZero b = true → isNaN (fdiv d a b) = true) ∧
    (isInf a = true → isInf b = true → isNaN (fdiv d a b) = true) ∧
    (isNaN a = false → isZero a = false → fSign a = true → isNaN (fsqrt d a) = true) ∧
    fsqrt d 0x80000000#32 = 0x80000000#32 ∧
    (isFinite a = true → isZero a = false → isZero b = true →
      fdiv d a b = infinity (fSign a != fSign b))

/-- 40 R136: signed zeros. -/
def Obligations.SignedZeroArithmetic : Prop :=
  ∀ (d : Draw) (a b : Word),
    fadd d 0x00000000#32 0x80000000#32 = 0x00000000#32 ∧ fadd d 0x80000000#32 0x00000000#32 = 0x00000000#32 ∧
    fadd d 0x80000000#32 0x80000000#32 = 0x80000000#32 ∧ (isFinite a = true → fsub d a a = 0x00000000#32) ∧
    (isZero (fmul d a b) = true → fSign (fmul d a b) = (fSign a != fSign b)) ∧
    (isZero (fdiv d a b) = true → fSign (fdiv d a b) = (fSign a != fSign b)) ∧
    fsqrt d 0x00000000#32 = 0x00000000#32 ∧
    (isZero a = true →
      flt a b = flt 0x00000000#32 b ∧ flt b a = flt b 0x00000000#32 ∧
      fgt a b = fgt 0x00000000#32 b ∧ fgt b a = fgt b 0x00000000#32 ∧
      fle a b = fle 0x00000000#32 b ∧ fle b a = fle b 0x00000000#32 ∧
      feq a b = feq 0x00000000#32 b ∧ feq b a = feq b 0x00000000#32)

/-- 40 R138: integers to binary32, nearest, and exact up to 2^24 and at the powers of two. -/
def Obligations.IntegerToFloatConversions : Prop :=
  (∀ n : Nat, n < 2 ^ 32 → RoundsTo (u2f n) n ∧ (n ≤ 2 ^ 24 → value (u2f n) = n)) ∧
  (∀ z : Int, -2 ^ 31 ≤ z → z < 2 ^ 31 → RoundsTo (i2f z) z ∧ (-2 ^ 24 ≤ z → z ≤ 2 ^ 24 → value (i2f z) = z)) ∧
  (∀ e : Nat, e < 32 → value (u2f (2 ^ e)) = 2 ^ e) ∧ (∀ e : Nat, e < 31 → value (i2f (2 ^ e)) = 2 ^ e) ∧
  (∀ e : Nat, e ≤ 31 → value (i2f (-2 ^ e)) = -2 ^ e) ∧ (∀ x : Sample, value (i2f x.toInt) = x.toInt) ∧
  u2f 0 = 0x00000000#32

/-- 40 R139: binary32 to i32, floor and ceiling, saturating, NaN to 0. -/
def Obligations.FloatToIntegerConversions : Prop :=
  ∀ x : Word,
    (isNaN x = true → f2iFloor x = 0 ∧ f2iCeil x = 0) ∧
    (isInf x = true → fSign x = false → f2iFloor x = 2 ^ 31 - 1 ∧ f2iCeil x = 2 ^ 31 - 1) ∧
    (isInf x = true → fSign x = true → f2iFloor x = -2 ^ 31 ∧ f2iCeil x = -2 ^ 31) ∧
    (isFinite x = true →
      f2iFloor x = min (max ⌊value x⌋ (-2 ^ 31)) (2 ^ 31 - 1) ∧ f2iCeil x = min (max ⌈value x⌉ (-2 ^ 31)) (2 ^ 31 - 1))

/-- 40 R141: comparisons compare values; with a NaN they are false; `fabs` clears bit 31 of every
pattern and is exact. -/
def Obligations.ComparisonsFollowValues : Prop :=
  ∀ a b : Word,
    (isFinite a = true → isFinite b = true →
      (flt a b = true ↔ value a < value b) ∧ (fgt a b = true ↔ value b < value a) ∧
      (fle a b = true ↔ value a ≤ value b) ∧ (feq a b = true ↔ value a = value b)) ∧
    (isFinite a = true →
      flt a (infinity false) = true ∧ flt (infinity true) a = true ∧
      flt (infinity false) a = false ∧ flt a (infinity true) = false) ∧
    flt (infinity true) (infinity false) = true ∧ flt (infinity false) (infinity true) = false ∧
    flt (infinity false) (infinity false) = false ∧ flt (infinity true) (infinity true) = false ∧
    (isNaN a = false → isNaN b = false → fgt a b = flt b a ∧ fle a b = !flt b a ∧ feq a b = (fle a b && fle b a)) ∧
    (isNaN a = true ∨ isNaN b = true → flt a b = false ∧ fgt a b = false ∧ fle a b = false ∧ feq a b = false) ∧
    fSign (fabs a) = false ∧ fMag (fabs a) = fMag a ∧
    (isFinite a = true → isFinite (fabs a) = true ∧ value (fabs a) = |value a|)

/-- 40 R148, R149: the decade of a positive finite value, and the powers of ten. -/
def Obligations.DecadeAndPowersOfTen : Prop :=
  (∀ r : Word, isFinite r = true → isZero r = false → fSign r = false →
    -45 ≤ decade r ∧ decade r ≤ 38 ∧ (10 : ℚ) ^ decade r ≤ value r ∧ value r < (10 : ℚ) ^ (decade r + 1)) ∧
  (∀ e : Int, -45 ≤ e → e ≤ 38 → NearestEven (pow10 e) ((10 : ℝ) ^ e)) ∧
  (∀ e : Int, 0 ≤ e → e ≤ 10 → value (pow10 e) = (10 : ℚ) ^ e)

/-- 40 R132 with 92_eei_decisions.md D12 (IEEE 754 binary32): the operations with an infinite operand that 40 R135 does
not call invalid; 43 R200 and R202 rest on them. -/
def Obligations.InfiniteOperandArithmetic : Prop :=
  ∀ (d : Draw) (a b : Word),
    (isInf a = true → isFinite b = true →
      fadd d a b = a ∧ fadd d b a = a ∧ fsub d a b = a ∧ fsub d b a = infinity (!fSign a)) ∧
    (isInf a = true → isInf b = true → fSign a = fSign b → fadd d a b = a) ∧
    (isInf a = true → isInf b = true → fSign a ≠ fSign b → fsub d a b = a) ∧
    (isInf a = true → isNaN b = false → isZero b = false →
      fmul d a b = infinity (fSign a != fSign b) ∧ fmul d b a = infinity (fSign a != fSign b)) ∧
    (isInf a = true → isFinite b = true →
      fdiv d a b = infinity (fSign a != fSign b) ∧ isZero (fdiv d b a) = true ∧
        fSign (fdiv d b a) = (fSign a != fSign b)) ∧
    fsqrt d (infinity false) = infinity false

/-! The cosine and the sine. -/

/-- 00_scope.md R7, 40 R143 to R145: the machine's COS32 and SIN32, whatever the implementation answers: the exact
points, and within 2^-23 of the real functions for every finite operand of magnitude at most 6.2831860. -/
def Obligations.TrigObeysExactPointsAndAccuracy : Prop :=
  trig32.cos 0x00000000#32 = 0x3F800000#32 ∧ trig32.cos 0x80000000#32 = 0x3F800000#32 ∧
  trig32.sin 0x00000000#32 = 0x00000000#32 ∧ trig32.sin 0x80000000#32 = 0x80000000#32 ∧
  (∀ x : Word, isFinite x = false → isNaN (trig32.cos x) = true ∧ isNaN (trig32.sin x) = true) ∧
  (∀ x : Word, isFinite x = true → |value x| ≤ value 0x40C90FDC#32 →
    isFinite (trig32.cos x) = true ∧ isFinite (trig32.sin x) = true ∧
    |(value (trig32.cos x) : ℝ) - Real.cos (value x)| ≤ 1 / 2 ^ 23 ∧
    |(value (trig32.sin x) : ℝ) - Real.sin (value x)| ≤ 1 / 2 ^ 23)

/-- 41 R160 (b), (c): the argument of every window coefficient lies in [0, TWO_PI32], and is TWO_PI32 for the last;
every coefficient is finite and lies in [-2^-24, 1 + 2^-23]. 42 R180 (b), (c): the argument of every twiddle factor lies
above -PI32 and is negative or -0; both parts are finite and, by 40 R145, at most 1 + 2^-23 in magnitude. -/
def Obligations.WindowAndTwiddlesAreBounded : Prop :=
  (∀ (d1 d2 : Draw) (n i : Nat), isPow2 n = true → 2 ≤ n → n ≤ 2 ^ 23 → i < n →
    (let theta := fdiv d1 (fmul d2 0x40C90FDB#32 (u2f i)) (u2f (n - 1))
     isFinite theta = true ∧ 0 ≤ value theta ∧ value theta ≤ value 0x40C90FDB#32 ∧
      (i = n - 1 → theta = 0x40C90FDB#32)) ∧
    isFinite (hann trig32 d1 i n) = true ∧
    -(1 / 2 ^ 24) ≤ value (hann trig32 d1 i n) ∧ value (hann trig32 d1 i n) ≤ 1 + 1 / 2 ^ 23) ∧
  (∀ (d1 d2 : Draw) (L k : Nat), 1 ≤ L → L ≤ 23 → k < 2 ^ (L - 1) →
    (let theta := fdiv d1 (fmul d2 0xC0C90FDB#32 (u2f k)) (u2f (2 ^ L))
     isFinite theta = true ∧ -value 0x40490FDB#32 < value theta ∧ value theta ≤ 0 ∧ fSign theta = true) ∧
    isFinite (twiddle trig32 d1 k (2 ^ L)).re = true ∧ |value (twiddle trig32 d1 k (2 ^ L)).re| ≤ 1 + 1 / 2 ^ 23 ∧
    isFinite (twiddle trig32 d1 k (2 ^ L)).im = true ∧ |value (twiddle trig32 d1 k (2 ^ L)).im| ≤ 1 + 1 / 2 ^ 23)
end

