-- ==== Sys2Proof/Laws/State.lean ====
section
/-! SUPPORT. One lemma per field per named update of State, so that no later proof unfolds a record update. -/

namespace Sys2Proof.Machine

variable (s : State)

/-! `emit` -/
@[simp] theorem emit_params (e : SrcEvent) : (emit e s).params = s.params := rfl
@[simp] theorem emit_pstate (e : SrcEvent) : (emit e s).pstate = s.pstate := rfl
@[simp] theorem emit_faulted (e : SrcEvent) : (emit e s).faulted = s.faulted := rfl
@[simp] theorem emit_cyc (e : SrcEvent) : (emit e s).cyc = s.cyc := rfl
@[simp] theorem emit_degen (e : SrcEvent) : (emit e s).degen = s.degen := rfl
@[simp] theorem emit_srcUnav (e : SrcEvent) : (emit e s).srcUnav = s.srcUnav := rfl
@[simp] theorem emit_errCode (e : SrcEvent) : (emit e s).errCode = s.errCode := rfl
@[simp] theorem emit_errInfo (e : SrcEvent) : (emit e s).errInfo = s.errInfo := rfl
@[simp] theorem emit_sampleRate (e : SrcEvent) : (emit e s).sampleRate = s.sampleRate := rfl
@[simp] theorem emit_fftSize (e : SrcEvent) : (emit e s).fftSize = s.fftSize := rfl
@[simp] theorem emit_updateIntervalMs (e : SrcEvent) : (emit e s).updateIntervalMs = s.updateIntervalMs := rfl
@[simp] theorem emit_maxHistory (e : SrcEvent) : (emit e s).maxHistory = s.maxHistory := rfl
@[simp] theorem emit_minFreqHz (e : SrcEvent) : (emit e s).minFreqHz = s.minFreqHz := rfl
@[simp] theorem emit_maxFreqHz (e : SrcEvent) : (emit e s).maxFreqHz = s.maxFreqHz := rfl
@[simp] theorem emit_writePos (e : SrcEvent) : (emit e s).writePos = s.writePos := rfl
@[simp] theorem emit_winN (e : SrcEvent) : (emit e s).winN = s.winN := rfl
@[simp] theorem emit_zmin (e : SrcEvent) : (emit e s).zmin = s.zmin := rfl
@[simp] theorem emit_zmax (e : SrcEvent) : (emit e s).zmax = s.zmax := rfl
@[simp] theorem emit_specLen (e : SrcEvent) : (emit e s).specLen = s.specLen := rfl
@[simp] theorem emit_peak (e : SrcEvent) : (emit e s).peak = s.peak := rfl
@[simp] theorem emit_tickRange (e : SrcEvent) : (emit e s).tickRange = s.tickRange := rfl
@[simp] theorem emit_tickCount (e : SrcEvent) : (emit e s).tickCount = s.tickCount := rfl
@[simp] theorem emit_tickStep (e : SrcEvent) : (emit e s).tickStep = s.tickStep := rfl
@[simp] theorem emit_tickSub (e : SrcEvent) : (emit e s).tickSub = s.tickSub := rfl
@[simp] theorem emit_mapArg (e : SrcEvent) : (emit e s).mapArg = s.mapArg := rfl
@[simp] theorem emit_mapRes (e : SrcEvent) : (emit e s).mapRes = s.mapRes := rfl
@[simp] theorem emit_wsnapPos (e : SrcEvent) : (emit e s).wsnapPos = s.wsnapPos := rfl
@[simp] theorem emit_srcCount (e : SrcEvent) : (emit e s).srcCount = s.srcCount := rfl
@[simp] theorem emit_mem (e : SrcEvent) : (emit e s).mem = s.mem := rfl
@[simp] theorem emit_hist (e : SrcEvent) : (emit e s).hist = s.hist := rfl
@[simp] theorem emit_wave (e : SrcEvent) : (emit e s).wave = s.wave := rfl
@[simp] theorem emit_hsnapBank (e : SrcEvent) : (emit e s).hsnapBank = s.hsnapBank := rfl
@[simp] theorem emit_wsnapBank (e : SrcEvent) : (emit e s).wsnapBank = s.wsnapBank := rfl
@[simp] theorem emit_bus (e : SrcEvent) : (emit e s).bus = s.bus := rfl
@[simp] theorem emit_availAnswers (e : SrcEvent) : (emit e s).availAnswers = s.availAnswers := rfl
@[simp] theorem emit_readAnswers (e : SrcEvent) : (emit e s).readAnswers = s.readAnswers := rfl
@[simp] theorem emit_readData (e : SrcEvent) : (emit e s).readData = s.readData := rfl
@[simp] theorem emit_pastEvents (e : SrcEvent) : (emit e s).pastEvents = s.pastEvents := rfl
@[simp] theorem emit_draws (e : SrcEvent) : (emit e s).draws = s.draws := rfl
@[simp] theorem emit_epoch (e : SrcEvent) : (emit e s).epoch = s.epoch := rfl
@[simp] theorem emit_srcEvents (e : SrcEvent) : (emit e s).srcEvents = s.srcEvents ++ [e] := rfl

/-! `releaseSource` -/
@[simp] theorem releaseSource_params : (releaseSource s).params = s.params := by unfold releaseSource; split <;> rfl
@[simp] theorem releaseSource_faulted : (releaseSource s).faulted = s.faulted := by unfold releaseSource; split <;> rfl
@[simp] theorem releaseSource_cyc : (releaseSource s).cyc = s.cyc := by unfold releaseSource; split <;> rfl
@[simp] theorem releaseSource_degen : (releaseSource s).degen = s.degen := by unfold releaseSource; split <;> rfl
@[simp] theorem releaseSource_srcUnav : (releaseSource s).srcUnav = s.srcUnav := by unfold releaseSource; split <;> rfl
@[simp] theorem releaseSource_errCode : (releaseSource s).errCode = s.errCode := by unfold releaseSource; split <;> rfl
@[simp] theorem releaseSource_errInfo : (releaseSource s).errInfo = s.errInfo := by unfold releaseSource; split <;> rfl
@[simp] theorem releaseSource_sampleRate : (releaseSource s).sampleRate = s.sampleRate := by unfold releaseSource; split <;> rfl
@[simp] theorem releaseSource_fftSize : (releaseSource s).fftSize = s.fftSize := by unfold releaseSource; split <;> rfl
@[simp] theorem releaseSource_updateIntervalMs : (releaseSource s).updateIntervalMs = s.updateIntervalMs := by unfold releaseSource; split <;> rfl
@[simp] theorem releaseSource_maxHistory : (releaseSource s).maxHistory = s.maxHistory := by unfold releaseSource; split <;> rfl
@[simp] theorem releaseSource_minFreqHz : (releaseSource s).minFreqHz = s.minFreqHz := by unfold releaseSource; split <;> rfl
@[simp] theorem releaseSource_maxFreqHz : (releaseSource s).maxFreqHz = s.maxFreqHz := by unfold releaseSource; split <;> rfl
@[simp] theorem releaseSource_writePos : (releaseSource s).writePos = s.writePos := by unfold releaseSource; split <;> rfl
@[simp] theorem releaseSource_winN : (releaseSource s).winN = s.winN := by unfold releaseSource; split <;> rfl
@[simp] theorem releaseSource_zmin : (releaseSource s).zmin = s.zmin := by unfold releaseSource; split <;> rfl
@[simp] theorem releaseSource_zmax : (releaseSource s).zmax = s.zmax := by unfold releaseSource; split <;> rfl
@[simp] theorem releaseSource_specLen : (releaseSource s).specLen = s.specLen := by unfold releaseSource; split <;> rfl
@[simp] theorem releaseSource_peak : (releaseSource s).peak = s.peak := by unfold releaseSource; split <;> rfl
@[simp] theorem releaseSource_tickRange : (releaseSource s).tickRange = s.tickRange := by unfold releaseSource; split <;> rfl
@[simp] theorem releaseSource_tickCount : (releaseSource s).tickCount = s.tickCount := by unfold releaseSource; split <;> rfl
@[simp] theorem releaseSource_tickStep : (releaseSource s).tickStep = s.tickStep := by unfold releaseSource; split <;> rfl
@[simp] theorem releaseSource_tickSub : (releaseSource s).tickSub = s.tickSub := by unfold releaseSource; split <;> rfl
@[simp] theorem releaseSource_mapArg : (releaseSource s).mapArg = s.mapArg := by unfold releaseSource; split <;> rfl
@[simp] theorem releaseSource_mapRes : (releaseSource s).mapRes = s.mapRes := by unfold releaseSource; split <;> rfl
@[simp] theorem releaseSource_wsnapPos : (releaseSource s).wsnapPos = s.wsnapPos := by unfold releaseSource; split <;> rfl
@[simp] theorem releaseSource_srcCount : (releaseSource s).srcCount = s.srcCount := by unfold releaseSource; split <;> rfl
@[simp] theorem releaseSource_mem : (releaseSource s).mem = s.mem := by unfold releaseSource; split <;> rfl
@[simp] theorem releaseSource_hist : (releaseSource s).hist = s.hist := by unfold releaseSource; split <;> rfl
@[simp] theorem releaseSource_wave : (releaseSource s).wave = s.wave := by unfold releaseSource; split <;> rfl
@[simp] theorem releaseSource_hsnapBank : (releaseSource s).hsnapBank = s.hsnapBank := by unfold releaseSource; split <;> rfl
@[simp] theorem releaseSource_wsnapBank : (releaseSource s).wsnapBank = s.wsnapBank := by unfold releaseSource; split <;> rfl
@[simp] theorem releaseSource_bus : (releaseSource s).bus = s.bus := by unfold releaseSource; split <;> rfl
@[simp] theorem releaseSource_availAnswers : (releaseSource s).availAnswers = s.availAnswers := by unfold releaseSource; split <;> rfl
@[simp] theorem releaseSource_readAnswers : (releaseSource s).readAnswers = s.readAnswers := by unfold releaseSource; split <;> rfl
@[simp] theorem releaseSource_readData : (releaseSource s).readData = s.readData := by unfold releaseSource; split <;> rfl
@[simp] theorem releaseSource_pastEvents : (releaseSource s).pastEvents = s.pastEvents := by unfold releaseSource; split <;> rfl
@[simp] theorem releaseSource_draws : (releaseSource s).draws = s.draws := by unfold releaseSource; split <;> rfl
@[simp] theorem releaseSource_epoch : (releaseSource s).epoch = s.epoch := by unfold releaseSource; split <;> rfl
@[simp] theorem releaseSource_pstate : (releaseSource s).pstate = if s.pstate = .running then .stopped else s.pstate := by
  unfold releaseSource; split <;> rfl
@[simp] theorem releaseSource_srcEvents :
    (releaseSource s).srcEvents = if s.pstate = .running then s.srcEvents ++ [.srcRelease] else s.srcEvents := by
  unfold releaseSource; split <;> rfl

/-! `raise` -/
@[simp] theorem raise_params (code info : Word) : (raise code info s).params = s.params := by simp [raise]
@[simp] theorem raise_cyc (code info : Word) : (raise code info s).cyc = s.cyc := by simp [raise]
@[simp] theorem raise_degen (code info : Word) : (raise code info s).degen = s.degen := by simp [raise]
@[simp] theorem raise_srcUnav (code info : Word) : (raise code info s).srcUnav = s.srcUnav := by simp [raise]
@[simp] theorem raise_sampleRate (code info : Word) : (raise code info s).sampleRate = s.sampleRate := by simp [raise]
@[simp] theorem raise_fftSize (code info : Word) : (raise code info s).fftSize = s.fftSize := by simp [raise]
@[simp] theorem raise_updateIntervalMs (code info : Word) : (raise code info s).updateIntervalMs = s.updateIntervalMs := by simp [raise]
@[simp] theorem raise_maxHistory (code info : Word) : (raise code info s).maxHistory = s.maxHistory := by simp [raise]
@[simp] theorem raise_minFreqHz (code info : Word) : (raise code info s).minFreqHz = s.minFreqHz := by simp [raise]
@[simp] theorem raise_maxFreqHz (code info : Word) : (raise code info s).maxFreqHz = s.maxFreqHz := by simp [raise]
@[simp] theorem raise_writePos (code info : Word) : (raise code info s).writePos = s.writePos := by simp [raise]
@[simp] theorem raise_winN (code info : Word) : (raise code info s).winN = s.winN := by simp [raise]
@[simp] theorem raise_zmin (code info : Word) : (raise code info s).zmin = s.zmin := by simp [raise]
@[simp] theorem raise_zmax (code info : Word) : (raise code info s).zmax = s.zmax := by simp [raise]
@[simp] theorem raise_specLen (code info : Word) : (raise code info s).specLen = s.specLen := by simp [raise]
@[simp] theorem raise_peak (code info : Word) : (raise code info s).peak = s.peak := by simp [raise]
@[simp] theorem raise_tickRange (code info : Word) : (raise code info s).tickRange = s.tickRange := by simp [raise]
@[simp] theorem raise_tickCount (code info : Word) : (raise code info s).tickCount = s.tickCount := by simp [raise]
@[simp] theorem raise_tickStep (code info : Word) : (raise code info s).tickStep = s.tickStep := by simp [raise]
@[simp] theorem raise_tickSub (code info : Word) : (raise code info s).tickSub = s.tickSub := by simp [raise]
@[simp] theorem raise_mapArg (code info : Word) : (raise code info s).mapArg = s.mapArg := by simp [raise]
@[simp] theorem raise_mapRes (code info : Word) : (raise code info s).mapRes = s.mapRes := by simp [raise]
@[simp] theorem raise_wsnapPos (code info : Word) : (raise code info s).wsnapPos = s.wsnapPos := by simp [raise]
@[simp] theorem raise_srcCount (code info : Word) : (raise code info s).srcCount = s.srcCount := by simp [raise]
@[simp] theorem raise_mem (code info : Word) : (raise code info s).mem = s.mem := by simp [raise]
@[simp] theorem raise_hist (code info : Word) : (raise code info s).hist = s.hist := by simp [raise]
@[simp] theorem raise_wave (code info : Word) : (raise code info s).wave = s.wave := by simp [raise]
@[simp] theorem raise_hsnapBank (code info : Word) : (raise code info s).hsnapBank = s.hsnapBank := by simp [raise]
@[simp] theorem raise_wsnapBank (code info : Word) : (raise code info s).wsnapBank = s.wsnapBank := by simp [raise]
@[simp] theorem raise_bus (code info : Word) : (raise code info s).bus = s.bus := by simp [raise]
@[simp] theorem raise_availAnswers (code info : Word) : (raise code info s).availAnswers = s.availAnswers := by simp [raise]
@[simp] theorem raise_readAnswers (code info : Word) : (raise code info s).readAnswers = s.readAnswers := by simp [raise]
@[simp] theorem raise_readData (code info : Word) : (raise code info s).readData = s.readData := by simp [raise]
@[simp] theorem raise_pastEvents (code info : Word) : (raise code info s).pastEvents = s.pastEvents := by simp [raise]
@[simp] theorem raise_draws (code info : Word) : (raise code info s).draws = s.draws := by simp [raise]
@[simp] theorem raise_epoch (code info : Word) : (raise code info s).epoch = s.epoch := by simp [raise]
@[simp] theorem raise_errCode (code info : Word) : (raise code info s).errCode = code := rfl
@[simp] theorem raise_errInfo (code info : Word) : (raise code info s).errInfo = info := rfl
@[simp] theorem raise_faulted (code info : Word) : (raise code info s).faulted = true := rfl
@[simp] theorem raise_pstate (code info : Word) :
    (raise code info s).pstate = if s.pstate = .running then .stopped else s.pstate := by simp [raise]
@[simp] theorem raise_srcEvents (code info : Word) :
    (raise code info s).srcEvents = if s.pstate = .running then s.srcEvents ++ [.srcRelease] else s.srcEvents := by
  simp [raise]

/-! `storeElem` -/
@[simp] theorem storeElem_params (m : ScratchMem) (i : Nat) (w : Word) : (storeElem m i w s).params = s.params := rfl
@[simp] theorem storeElem_pstate (m : ScratchMem) (i : Nat) (w : Word) : (storeElem m i w s).pstate = s.pstate := rfl
@[simp] theorem storeElem_faulted (m : ScratchMem) (i : Nat) (w : Word) : (storeElem m i w s).faulted = s.faulted := rfl
@[simp] theorem storeElem_cyc (m : ScratchMem) (i : Nat) (w : Word) : (storeElem m i w s).cyc = s.cyc := rfl
@[simp] theorem storeElem_degen (m : ScratchMem) (i : Nat) (w : Word) : (storeElem m i w s).degen = s.degen := rfl
@[simp] theorem storeElem_srcUnav (m : ScratchMem) (i : Nat) (w : Word) : (storeElem m i w s).srcUnav = s.srcUnav := rfl
@[simp] theorem storeElem_errCode (m : ScratchMem) (i : Nat) (w : Word) : (storeElem m i w s).errCode = s.errCode := rfl
@[simp] theorem storeElem_errInfo (m : ScratchMem) (i : Nat) (w : Word) : (storeElem m i w s).errInfo = s.errInfo := rfl
@[simp] theorem storeElem_sampleRate (m : ScratchMem) (i : Nat) (w : Word) : (storeElem m i w s).sampleRate = s.sampleRate := rfl
@[simp] theorem storeElem_fftSize (m : ScratchMem) (i : Nat) (w : Word) : (storeElem m i w s).fftSize = s.fftSize := rfl
@[simp] theorem storeElem_updateIntervalMs (m : ScratchMem) (i : Nat) (w : Word) : (storeElem m i w s).updateIntervalMs = s.updateIntervalMs := rfl
@[simp] theorem storeElem_maxHistory (m : ScratchMem) (i : Nat) (w : Word) : (storeElem m i w s).maxHistory = s.maxHistory := rfl
@[simp] theorem storeElem_minFreqHz (m : ScratchMem) (i : Nat) (w : Word) : (storeElem m i w s).minFreqHz = s.minFreqHz := rfl
@[simp] theorem storeElem_maxFreqHz (m : ScratchMem) (i : Nat) (w : Word) : (storeElem m i w s).maxFreqHz = s.maxFreqHz := rfl
@[simp] theorem storeElem_writePos (m : ScratchMem) (i : Nat) (w : Word) : (storeElem m i w s).writePos = s.writePos := rfl
@[simp] theorem storeElem_winN (m : ScratchMem) (i : Nat) (w : Word) : (storeElem m i w s).winN = s.winN := rfl
@[simp] theorem storeElem_zmin (m : ScratchMem) (i : Nat) (w : Word) : (storeElem m i w s).zmin = s.zmin := rfl
@[simp] theorem storeElem_zmax (m : ScratchMem) (i : Nat) (w : Word) : (storeElem m i w s).zmax = s.zmax := rfl
@[simp] theorem storeElem_specLen (m : ScratchMem) (i : Nat) (w : Word) : (storeElem m i w s).specLen = s.specLen := rfl
@[simp] theorem storeElem_peak (m : ScratchMem) (i : Nat) (w : Word) : (storeElem m i w s).peak = s.peak := rfl
@[simp] theorem storeElem_tickRange (m : ScratchMem) (i : Nat) (w : Word) : (storeElem m i w s).tickRange = s.tickRange := rfl
@[simp] theorem storeElem_tickCount (m : ScratchMem) (i : Nat) (w : Word) : (storeElem m i w s).tickCount = s.tickCount := rfl
@[simp] theorem storeElem_tickStep (m : ScratchMem) (i : Nat) (w : Word) : (storeElem m i w s).tickStep = s.tickStep := rfl
@[simp] theorem storeElem_tickSub (m : ScratchMem) (i : Nat) (w : Word) : (storeElem m i w s).tickSub = s.tickSub := rfl
@[simp] theorem storeElem_mapArg (m : ScratchMem) (i : Nat) (w : Word) : (storeElem m i w s).mapArg = s.mapArg := rfl
@[simp] theorem storeElem_mapRes (m : ScratchMem) (i : Nat) (w : Word) : (storeElem m i w s).mapRes = s.mapRes := rfl
@[simp] theorem storeElem_wsnapPos (m : ScratchMem) (i : Nat) (w : Word) : (storeElem m i w s).wsnapPos = s.wsnapPos := rfl
@[simp] theorem storeElem_srcCount (m : ScratchMem) (i : Nat) (w : Word) : (storeElem m i w s).srcCount = s.srcCount := rfl
@[simp] theorem storeElem_hist (m : ScratchMem) (i : Nat) (w : Word) : (storeElem m i w s).hist = s.hist := rfl
@[simp] theorem storeElem_wave (m : ScratchMem) (i : Nat) (w : Word) : (storeElem m i w s).wave = s.wave := rfl
@[simp] theorem storeElem_hsnapBank (m : ScratchMem) (i : Nat) (w : Word) : (storeElem m i w s).hsnapBank = s.hsnapBank := rfl
@[simp] theorem storeElem_wsnapBank (m : ScratchMem) (i : Nat) (w : Word) : (storeElem m i w s).wsnapBank = s.wsnapBank := rfl
@[simp] theorem storeElem_bus (m : ScratchMem) (i : Nat) (w : Word) : (storeElem m i w s).bus = s.bus := rfl
@[simp] theorem storeElem_availAnswers (m : ScratchMem) (i : Nat) (w : Word) : (storeElem m i w s).availAnswers = s.availAnswers := rfl
@[simp] theorem storeElem_readAnswers (m : ScratchMem) (i : Nat) (w : Word) : (storeElem m i w s).readAnswers = s.readAnswers := rfl
@[simp] theorem storeElem_readData (m : ScratchMem) (i : Nat) (w : Word) : (storeElem m i w s).readData = s.readData := rfl
@[simp] theorem storeElem_srcEvents (m : ScratchMem) (i : Nat) (w : Word) : (storeElem m i w s).srcEvents = s.srcEvents := rfl
@[simp] theorem storeElem_pastEvents (m : ScratchMem) (i : Nat) (w : Word) : (storeElem m i w s).pastEvents = s.pastEvents := rfl
@[simp] theorem storeElem_draws (m : ScratchMem) (i : Nat) (w : Word) : (storeElem m i w s).draws = s.draws := rfl
@[simp] theorem storeElem_epoch (m : ScratchMem) (i : Nat) (w : Word) : (storeElem m i w s).epoch = s.epoch := rfl
@[simp] theorem storeElem_mem (m : ScratchMem) (i : Nat) (w : Word) :
    (storeElem m i w s).mem = Memory.insert s.mem (scratchBase m + i) (elementWord m w) := rfl

/-! `storeBlock` -/
@[simp] theorem storeBlock_params (m : ScratchMem) (vs : List Word) : (storeBlock m vs s).params = s.params := rfl
@[simp] theorem storeBlock_pstate (m : ScratchMem) (vs : List Word) : (storeBlock m vs s).pstate = s.pstate := rfl
@[simp] theorem storeBlock_faulted (m : ScratchMem) (vs : List Word) : (storeBlock m vs s).faulted = s.faulted := rfl
@[simp] theorem storeBlock_cyc (m : ScratchMem) (vs : List Word) : (storeBlock m vs s).cyc = s.cyc := rfl
@[simp] theorem storeBlock_degen (m : ScratchMem) (vs : List Word) : (storeBlock m vs s).degen = s.degen := rfl
@[simp] theorem storeBlock_srcUnav (m : ScratchMem) (vs : List Word) : (storeBlock m vs s).srcUnav = s.srcUnav := rfl
@[simp] theorem storeBlock_errCode (m : ScratchMem) (vs : List Word) : (storeBlock m vs s).errCode = s.errCode := rfl
@[simp] theorem storeBlock_errInfo (m : ScratchMem) (vs : List Word) : (storeBlock m vs s).errInfo = s.errInfo := rfl
@[simp] theorem storeBlock_sampleRate (m : ScratchMem) (vs : List Word) : (storeBlock m vs s).sampleRate = s.sampleRate := rfl
@[simp] theorem storeBlock_fftSize (m : ScratchMem) (vs : List Word) : (storeBlock m vs s).fftSize = s.fftSize := rfl
@[simp] theorem storeBlock_updateIntervalMs (m : ScratchMem) (vs : List Word) : (storeBlock m vs s).updateIntervalMs = s.updateIntervalMs := rfl
@[simp] theorem storeBlock_maxHistory (m : ScratchMem) (vs : List Word) : (storeBlock m vs s).maxHistory = s.maxHistory := rfl
@[simp] theorem storeBlock_minFreqHz (m : ScratchMem) (vs : List Word) : (storeBlock m vs s).minFreqHz = s.minFreqHz := rfl
@[simp] theorem storeBlock_maxFreqHz (m : ScratchMem) (vs : List Word) : (storeBlock m vs s).maxFreqHz = s.maxFreqHz := rfl
@[simp] theorem storeBlock_writePos (m : ScratchMem) (vs : List Word) : (storeBlock m vs s).writePos = s.writePos := rfl
@[simp] theorem storeBlock_winN (m : ScratchMem) (vs : List Word) : (storeBlock m vs s).winN = s.winN := rfl
@[simp] theorem storeBlock_zmin (m : ScratchMem) (vs : List Word) : (storeBlock m vs s).zmin = s.zmin := rfl
@[simp] theorem storeBlock_zmax (m : ScratchMem) (vs : List Word) : (storeBlock m vs s).zmax = s.zmax := rfl
@[simp] theorem storeBlock_specLen (m : ScratchMem) (vs : List Word) : (storeBlock m vs s).specLen = s.specLen := rfl
@[simp] theorem storeBlock_peak (m : ScratchMem) (vs : List Word) : (storeBlock m vs s).peak = s.peak := rfl
@[simp] theorem storeBlock_tickRange (m : ScratchMem) (vs : List Word) : (storeBlock m vs s).tickRange = s.tickRange := rfl
@[simp] theorem storeBlock_tickCount (m : ScratchMem) (vs : List Word) : (storeBlock m vs s).tickCount = s.tickCount := rfl
@[simp] theorem storeBlock_tickStep (m : ScratchMem) (vs : List Word) : (storeBlock m vs s).tickStep = s.tickStep := rfl
@[simp] theorem storeBlock_tickSub (m : ScratchMem) (vs : List Word) : (storeBlock m vs s).tickSub = s.tickSub := rfl
@[simp] theorem storeBlock_mapArg (m : ScratchMem) (vs : List Word) : (storeBlock m vs s).mapArg = s.mapArg := rfl
@[simp] theorem storeBlock_mapRes (m : ScratchMem) (vs : List Word) : (storeBlock m vs s).mapRes = s.mapRes := rfl
@[simp] theorem storeBlock_wsnapPos (m : ScratchMem) (vs : List Word) : (storeBlock m vs s).wsnapPos = s.wsnapPos := rfl
@[simp] theorem storeBlock_srcCount (m : ScratchMem) (vs : List Word) : (storeBlock m vs s).srcCount = s.srcCount := rfl
@[simp] theorem storeBlock_hist (m : ScratchMem) (vs : List Word) : (storeBlock m vs s).hist = s.hist := rfl
@[simp] theorem storeBlock_wave (m : ScratchMem) (vs : List Word) : (storeBlock m vs s).wave = s.wave := rfl
@[simp] theorem storeBlock_hsnapBank (m : ScratchMem) (vs : List Word) : (storeBlock m vs s).hsnapBank = s.hsnapBank := rfl
@[simp] theorem storeBlock_wsnapBank (m : ScratchMem) (vs : List Word) : (storeBlock m vs s).wsnapBank = s.wsnapBank := rfl
@[simp] theorem storeBlock_bus (m : ScratchMem) (vs : List Word) : (storeBlock m vs s).bus = s.bus := rfl
@[simp] theorem storeBlock_availAnswers (m : ScratchMem) (vs : List Word) : (storeBlock m vs s).availAnswers = s.availAnswers := rfl
@[simp] theorem storeBlock_readAnswers (m : ScratchMem) (vs : List Word) : (storeBlock m vs s).readAnswers = s.readAnswers := rfl
@[simp] theorem storeBlock_readData (m : ScratchMem) (vs : List Word) : (storeBlock m vs s).readData = s.readData := rfl
@[simp] theorem storeBlock_srcEvents (m : ScratchMem) (vs : List Word) : (storeBlock m vs s).srcEvents = s.srcEvents := rfl
@[simp] theorem storeBlock_pastEvents (m : ScratchMem) (vs : List Word) : (storeBlock m vs s).pastEvents = s.pastEvents := rfl
@[simp] theorem storeBlock_draws (m : ScratchMem) (vs : List Word) : (storeBlock m vs s).draws = s.draws := rfl
@[simp] theorem storeBlock_epoch (m : ScratchMem) (vs : List Word) : (storeBlock m vs s).epoch = s.epoch := rfl
@[simp] theorem storeBlock_mem (m : ScratchMem) (vs : List Word) :
    (storeBlock m vs s).mem = Memory.insertBlock s.mem (scratchBase m) (vs.map (elementWord m)) := rfl

/-! `fetched` -/
@[simp] theorem fetched_params (rest : List BusInput) : (fetched rest s).params = s.params := rfl
@[simp] theorem fetched_pstate (rest : List BusInput) : (fetched rest s).pstate = s.pstate := rfl
@[simp] theorem fetched_faulted (rest : List BusInput) : (fetched rest s).faulted = s.faulted := rfl
@[simp] theorem fetched_cyc (rest : List BusInput) : (fetched rest s).cyc = s.cyc := rfl
@[simp] theorem fetched_degen (rest : List BusInput) : (fetched rest s).degen = s.degen := rfl
@[simp] theorem fetched_srcUnav (rest : List BusInput) : (fetched rest s).srcUnav = s.srcUnav := rfl
@[simp] theorem fetched_errCode (rest : List BusInput) : (fetched rest s).errCode = s.errCode := rfl
@[simp] theorem fetched_errInfo (rest : List BusInput) : (fetched rest s).errInfo = s.errInfo := rfl
@[simp] theorem fetched_sampleRate (rest : List BusInput) : (fetched rest s).sampleRate = s.sampleRate := rfl
@[simp] theorem fetched_fftSize (rest : List BusInput) : (fetched rest s).fftSize = s.fftSize := rfl
@[simp] theorem fetched_updateIntervalMs (rest : List BusInput) : (fetched rest s).updateIntervalMs = s.updateIntervalMs := rfl
@[simp] theorem fetched_maxHistory (rest : List BusInput) : (fetched rest s).maxHistory = s.maxHistory := rfl
@[simp] theorem fetched_minFreqHz (rest : List BusInput) : (fetched rest s).minFreqHz = s.minFreqHz := rfl
@[simp] theorem fetched_maxFreqHz (rest : List BusInput) : (fetched rest s).maxFreqHz = s.maxFreqHz := rfl
@[simp] theorem fetched_writePos (rest : List BusInput) : (fetched rest s).writePos = s.writePos := rfl
@[simp] theorem fetched_winN (rest : List BusInput) : (fetched rest s).winN = s.winN := rfl
@[simp] theorem fetched_zmin (rest : List BusInput) : (fetched rest s).zmin = s.zmin := rfl
@[simp] theorem fetched_zmax (rest : List BusInput) : (fetched rest s).zmax = s.zmax := rfl
@[simp] theorem fetched_specLen (rest : List BusInput) : (fetched rest s).specLen = s.specLen := rfl
@[simp] theorem fetched_peak (rest : List BusInput) : (fetched rest s).peak = s.peak := rfl
@[simp] theorem fetched_tickRange (rest : List BusInput) : (fetched rest s).tickRange = s.tickRange := rfl
@[simp] theorem fetched_tickCount (rest : List BusInput) : (fetched rest s).tickCount = s.tickCount := rfl
@[simp] theorem fetched_tickStep (rest : List BusInput) : (fetched rest s).tickStep = s.tickStep := rfl
@[simp] theorem fetched_tickSub (rest : List BusInput) : (fetched rest s).tickSub = s.tickSub := rfl
@[simp] theorem fetched_mapArg (rest : List BusInput) : (fetched rest s).mapArg = s.mapArg := rfl
@[simp] theorem fetched_mapRes (rest : List BusInput) : (fetched rest s).mapRes = s.mapRes := rfl
@[simp] theorem fetched_wsnapPos (rest : List BusInput) : (fetched rest s).wsnapPos = s.wsnapPos := rfl
@[simp] theorem fetched_srcCount (rest : List BusInput) : (fetched rest s).srcCount = s.srcCount := rfl
@[simp] theorem fetched_mem (rest : List BusInput) : (fetched rest s).mem = s.mem := rfl
@[simp] theorem fetched_hist (rest : List BusInput) : (fetched rest s).hist = s.hist := rfl
@[simp] theorem fetched_wave (rest : List BusInput) : (fetched rest s).wave = s.wave := rfl
@[simp] theorem fetched_hsnapBank (rest : List BusInput) : (fetched rest s).hsnapBank = s.hsnapBank := rfl
@[simp] theorem fetched_wsnapBank (rest : List BusInput) : (fetched rest s).wsnapBank = s.wsnapBank := rfl
@[simp] theorem fetched_availAnswers (rest : List BusInput) : (fetched rest s).availAnswers = s.availAnswers := rfl
@[simp] theorem fetched_readAnswers (rest : List BusInput) : (fetched rest s).readAnswers = s.readAnswers := rfl
@[simp] theorem fetched_readData (rest : List BusInput) : (fetched rest s).readData = s.readData := rfl
@[simp] theorem fetched_srcEvents (rest : List BusInput) : (fetched rest s).srcEvents = s.srcEvents := rfl
@[simp] theorem fetched_pastEvents (rest : List BusInput) : (fetched rest s).pastEvents = s.pastEvents := rfl
@[simp] theorem fetched_epoch (rest : List BusInput) : (fetched rest s).epoch = s.epoch := rfl
@[simp] theorem fetched_bus (rest : List BusInput) : (fetched rest s).bus = rest := rfl
@[simp] theorem fetched_draws (rest : List BusInput) : (fetched rest s).draws = s.draws + 1 := rfl

/-! `takeReset`: what Reset keeps -/
@[simp] theorem takeReset_params : (takeReset s).params = s.params := rfl
@[simp] theorem takeReset_bus : (takeReset s).bus = s.bus := rfl
@[simp] theorem takeReset_availAnswers : (takeReset s).availAnswers = s.availAnswers := rfl
@[simp] theorem takeReset_readAnswers : (takeReset s).readAnswers = s.readAnswers := rfl
@[simp] theorem takeReset_draws : (takeReset s).draws = s.draws := rfl
@[simp] theorem takeReset_epoch : (takeReset s).epoch = s.epoch + 1 := rfl
@[simp] theorem takeReset_mem : (takeReset s).mem = [] := rfl
@[simp] theorem takeReset_pastEvents :
    (takeReset s).pastEvents = s.pastEvents ++ (releaseSource s).srcEvents := rfl

end Sys2Proof.Machine
end

