-- ==== Sys2Proof/Laws/Memory.lean ====
section
/-! SUPPORT. The laws of the storage operations: read after write, and that every operation keeps the canonical
form. -/

namespace Sys2Proof.Machine

/-! Sparse memories. -/

theorem lookup_insert (m : Memory) (a b : Nat) (v : Word) :
    Memory.lookup (Memory.insert m a v) b = if b = a then some v else Memory.lookup m b := by
  induction m with
  | nil => simp [Memory.insert, Memory.lookup]
  | cons c rest ih =>
    obtain ⟨k, u⟩ := c
    simp only [Memory.insert]
    split
    · simp [Memory.lookup]
    · split
      · subst_vars
        simp only [Memory.lookup]
        split <;> rfl
      · simp only [Memory.lookup, ih]
        split
        · subst_vars; rw [if_neg (by omega)]
        · rfl

theorem lookup_erase (m : Memory) (a b : Nat) :
    Memory.lookup (Memory.erase m a) b = if b = a then none else Memory.lookup m b := by
  induction m with
  | nil => simp [Memory.erase, Memory.lookup]
  | cons c rest ih =>
    obtain ⟨k, u⟩ := c
    simp only [Memory.erase] at ih ⊢
    by_cases hk : k = a
    · subst hk
      simp only [List.filter_cons, bne_self_eq_false, Bool.false_eq_true, if_false, ih, Memory.lookup]
      split <;> rfl
    · simp only [List.filter_cons, bne_iff_ne, ne_eq, hk, not_false_eq_true, if_true, Memory.lookup, ih]
      split
      · subst_vars; rw [if_neg hk]
      · rfl

theorem lookup_insertBlock (vs : List Word) (m : Memory) (a b : Nat) :
    Memory.lookup (Memory.insertBlock m a vs) b =
      if a ≤ b ∧ b < a + vs.length then vs[b - a]? else Memory.lookup m b := by
  induction vs generalizing m a with
  | nil => simp [Memory.insertBlock]
  | cons v vs ih =>
    simp only [Memory.insertBlock, ih, lookup_insert, List.length_cons]
    by_cases h : b = a
    · subst h; simp
    · by_cases h2 : a + 1 ≤ b ∧ b < a + 1 + vs.length
      · rw [if_pos h2, if_pos (by omega)]
        have : b - a = (b - (a + 1)) + 1 := by omega
        rw [this, List.getElem?_cons_succ]
      · rw [if_neg h2, if_neg h, if_neg (by omega)]

/-- An element of the list, and the address it is listed at. -/
theorem mem_of_lookup {m : Memory} {a : Nat} {v : Word} (h : Memory.lookup m a = some v) : (a, v) ∈ m := by
  induction m with
  | nil => simp [Memory.lookup] at h
  | cons c rest ih =>
    obtain ⟨k, u⟩ := c
    simp only [Memory.lookup] at h
    split at h
    · subst_vars; simp at h; simp [h]
    · exact List.mem_cons_of_mem _ (ih h)

theorem mem_insert {m : Memory} {a : Nat} {v : Word} {c : Nat × Word} (h : c ∈ Memory.insert m a v) :
    c = (a, v) ∨ c ∈ m := by
  induction m with
  | nil => simpa [Memory.insert] using h
  | cons x rest ih =>
    obtain ⟨k, u⟩ := x
    simp only [Memory.insert] at h
    split at h
    · simpa using h
    · split at h
      · simp only [List.mem_cons] at h ⊢; tauto
      · simp only [List.mem_cons] at h ⊢
        rcases h with h | h
        · exact .inr (.inl h)
        · rcases ih h with h | h
          · exact .inl h
          · exact .inr (.inr h)

theorem mem_insertBlock {vs : List Word} {m : Memory} {a : Nat} {c : Nat × Word}
    (h : c ∈ Memory.insertBlock m a vs) : (∃ i, i < vs.length ∧ vs[i]? = some c.2 ∧ c.1 = a + i) ∨ c ∈ m := by
  induction vs generalizing m a with
  | nil => exact .inr h
  | cons v vs ih =>
    rcases ih h with ⟨i, hi, hv, hc⟩ | h
    · exact .inl ⟨i + 1, by simpa using hi, by simpa using hv, by omega⟩
    · rcases mem_insert h with rfl | h
      · exact .inl ⟨0, by simp⟩
      · exact .inr h

/-- The canonical form, said of the whole list. -/
theorem wf_iff_pairwise (m : Memory) : Memory.wf m = true ↔ m.Pairwise (fun x y => x.1 < y.1) := by
  induction m with
  | nil => simp [Memory.wf]
  | cons x rest ih =>
    cases rest with
    | nil => simp [Memory.wf]
    | cons y rest =>
      simp only [Memory.wf, Bool.and_eq_true, decide_eq_true_eq, ih, List.pairwise_cons, List.mem_cons, forall_eq_or_imp]
      constructor
      · rintro ⟨h, hy, hr⟩
        exact ⟨⟨h, fun c hc => lt_trans h (hy c hc)⟩, hy, hr⟩
      · rintro ⟨⟨h, _⟩, hy, hr⟩
        exact ⟨h, hy, hr⟩

theorem insert_keeps_wf {m : Memory} (a : Nat) (v : Word) (h : Memory.wf m = true) :
    Memory.wf (Memory.insert m a v) = true := by
  rw [wf_iff_pairwise] at h ⊢
  induction m with
  | nil => simp [Memory.insert]
  | cons x rest ih =>
    obtain ⟨k, u⟩ := x
    obtain ⟨hk, hr⟩ := List.pairwise_cons.1 h
    simp only [Memory.insert]
    split
    · refine List.pairwise_cons.2 ⟨fun c hc => ?_, h⟩
      rcases List.mem_cons.1 hc with rfl | hc
      · assumption
      · have := hk c hc; simp at this ⊢; omega
    · split
      · subst_vars; exact List.pairwise_cons.2 ⟨hk, hr⟩
      · refine List.pairwise_cons.2 ⟨fun c hc => ?_, ih hr⟩
        rcases mem_insert hc with rfl | hc
        · simp; omega
        · exact hk c hc

theorem insertBlock_keeps_wf {m : Memory} (vs : List Word) (a : Nat) (h : Memory.wf m = true) :
    Memory.wf (Memory.insertBlock m a vs) = true := by
  induction vs generalizing m a with
  | nil => exact h
  | cons v vs ih => exact ih _ (insert_keeps_wf a v h)

theorem erase_keeps_wf {m : Memory} (a : Nat) (h : Memory.wf m = true) : Memory.wf (Memory.erase m a) = true := by
  rw [wf_iff_pairwise] at h ⊢
  exact h.filter _

/-- In canonical form equal contents are equal lists. -/
theorem eq_of_lookup_eq {m m' : Memory} (h : Memory.wf m = true) (h' : Memory.wf m' = true)
    (he : ∀ a, Memory.lookup m a = Memory.lookup m' a) : m = m' := by
  rw [wf_iff_pairwise] at h h'
  induction m generalizing m' with
  | nil =>
    cases m' with
    | nil => rfl
    | cons y r => have := he y.1; simp [Memory.lookup] at this
  | cons x rest ih =>
    cases m' with
    | nil => have := he x.1; simp [Memory.lookup] at this
    | cons y rest' =>
      obtain ⟨k, u⟩ := x
      obtain ⟨k', u'⟩ := y
      obtain ⟨hk, hr⟩ := List.pairwise_cons.1 h
      obtain ⟨hk', hr'⟩ := List.pairwise_cons.1 h'
      have absent : ∀ {n : Memory} {b : Nat}, (∀ c ∈ n, b < c.1) → Memory.lookup n b = none := by
        intro n b hn
        cases hl : Memory.lookup n b with
        | none => rfl
        | some w => exact absurd (hn _ (mem_of_lookup hl)) (by simp)
      have hkk : k = k' := by
        rcases Nat.lt_trichotomy k k' with hlt | heq | hgt
        · have := he k
          rw [absent (n := (k', u') :: rest') (fun c hc => by
            rcases List.mem_cons.1 hc with rfl | hc
            · exact hlt
            · exact lt_trans hlt (hk' c hc))] at this
          simp [Memory.lookup] at this
        · exact heq
        · have := he k'
          rw [absent (n := (k, u) :: rest) (fun c hc => by
            rcases List.mem_cons.1 hc with rfl | hc
            · exact hgt
            · exact lt_trans hgt (hk c hc))] at this
          simp [Memory.lookup] at this
      subst hkk
      have huu : u = u' := by simpa [Memory.lookup] using he k
      subst huu
      congr 1
      refine ih hr hr' fun a => ?_
      by_cases ha : a = k
      · subst ha; rw [absent hk, absent hk']
      · simpa [Memory.lookup, ha] using he a

/-! The 1024-slot rings. -/

theorem ringRead_ringWrite (m : Memory) (i j : Nat) (v : Word) :
    Memory.ringRead (Memory.ringWrite m i v) j = if j = i then v else Memory.ringRead m j := by
  unfold Memory.ringRead Memory.ringWrite
  split
  · rw [lookup_erase]; split <;> simp_all
  · rw [lookup_insert]; split <;> simp

theorem ringWf_iff (m : Memory) :
    Memory.ringWf m = true ↔ Memory.wf m = true ∧ ∀ c ∈ m, c.1 < 1024 ∧ c.2 ≠ f0 := by
  simp [Memory.ringWf, Config.wcap]

theorem ringWrite_keeps_wf {m : Memory} {j : Nat} (v : Word) (hj : j < 1024) (h : Memory.ringWf m = true) :
    Memory.ringWf (Memory.ringWrite m j v) = true := by
  rw [ringWf_iff] at h ⊢
  unfold Memory.ringWrite
  split
  · exact ⟨erase_keeps_wf j h.1, fun c hc => h.2 c (List.mem_filter.1 hc).1⟩
  · refine ⟨insert_keeps_wf j v h.1, fun c hc => ?_⟩
    rcases mem_insert hc with rfl | hc
    · exact ⟨hj, by assumption⟩
    · exact h.2 c hc

/-! The scratch memories. -/

/-- A read of a scratch address depends on the memory and the reset only. -/
theorem peek_congr {s t : State} (hm : s.mem = t.mem) (he : s.epoch = t.epoch) (a : Nat) : peek s a = peek t a := by
  unfold peek; rw [hm, he]

theorem elem_congr {s t : State} (hm : s.mem = t.mem) (he : s.epoch = t.epoch) (m : ScratchMem) (i : Nat) :
    elem s m i = elem t m i := peek_congr hm he _

theorem block_congr {s t : State} (hm : s.mem = t.mem) (he : s.epoch = t.epoch) (m : ScratchMem) (n : Nat) :
    block s m n = block t m n := by
  unfold block; congr 1; funext i; exact elem_congr hm he m i

theorem peek_storeBlock (m : ScratchMem) (vs : List Word) (s : State) (a : Nat) :
    peek (storeBlock m vs s) a =
      if scratchBase m ≤ a ∧ a < scratchBase m + vs.length then
        ((vs[a - scratchBase m]?).map (elementWord m)).getD (peek s a)
      else peek s a := by
  unfold peek
  rw [storeBlock_mem, storeBlock_epoch, lookup_insertBlock, List.length_map]
  split
  · rename_i h
    rw [List.getElem?_map, List.getElem?_eq_getElem (by omega)]
    rfl
  · rfl

/-- A stored block reads back. -/
theorem elem_storeBlock_same (m : ScratchMem) (vs : List Word) (s : State) {i : Nat} (h : i < vs.length) :
    elem (storeBlock m vs s) m i = elementWord m vs[i] := by
  unfold elem
  rw [peek_storeBlock, if_pos (by omega), Nat.add_sub_cancel_left, List.getElem?_eq_getElem h]
  rfl

/-- A stored block leaves every address outside it alone. -/
theorem peek_storeBlock_other (m : ScratchMem) (vs : List Word) (s : State) {a : Nat}
    (h : a < scratchBase m ∨ scratchBase m + vs.length ≤ a) : peek (storeBlock m vs s) a = peek s a := by
  rw [peek_storeBlock, if_neg (by omega)]

theorem peek_storeElem (m : ScratchMem) (i : Nat) (w : Word) (s : State) (a : Nat) :
    peek (storeElem m i w s) a = if a = scratchBase m + i then elementWord m w else peek s a := by
  unfold peek
  rw [storeElem_mem, storeElem_epoch, lookup_insert]
  split <;> rfl

@[simp] theorem length_block (s : State) (m : ScratchMem) (n : Nat) : (block s m n).length = n := by simp [block]

@[simp] theorem getElem_block (s : State) (m : ScratchMem) (n i : Nat) (h : i < (block s m n).length) :
    (block s m n)[i] = elem s m i := by simp [block]

/-- The bases are 2^24 apart, in the order of the regions (20_memory.md R74). -/
theorem scratchBase_eq (m : ScratchMem) :
    ∃ r, 1 ≤ r ∧ r ≤ 8 ∧ scratchBase m = r * 2 ^ 24 := by
  cases m
  · exact ⟨1, by decide⟩
  · exact ⟨2, by decide⟩
  · exact ⟨3, by decide⟩
  · exact ⟨4, by decide⟩
  · exact ⟨5, by decide⟩
  · exact ⟨6, by decide⟩
  · exact ⟨7, by decide⟩
  · exact ⟨8, by decide⟩

/-- A PCM word is its own sample (10_state.md R53). -/
@[simp] theorem pcmWord_pcmWord (w : Word) : pcmWord (pcmWord w) = pcmWord w := by
  unfold pcmWord
  congr 1
  apply BitVec.eq_of_getLsbD_eq
  intro i hi
  simp only [BitVec.getLsbD_setWidth, BitVec.getLsbD_signExtend]
  simp [hi]
  omega

end Sys2Proof.Machine
end

