-- ==== Sys2Proof/Laws/Ops.lean ====
section
/-! SUPPORT. The spec lemmas of the shared operations: the bus write, the size check, the legal ranges, the address
map, the rings, the lists the units compute, the source's answers. -/

namespace Sys2Proof.Machine

/-! The bus write and the size check. -/

theorem busWrite_clear {s : State} (h : s.faulted = false) (e : State → State) : busWrite s e = .next (e s) := by
  simp [busWrite, h]

theorem busWrite_faulted {s : State} (h : s.faulted = true) (e : State → State) : busWrite s e = .next s := by
  simp [busWrite, h]

/-- Everything a bus write can do: nothing, or its effect. -/
theorem busWrite_cases {s t : State} {e : State → State} (h : busWrite s e = .next t) :
    (s.faulted = true ∧ t = s) ∨ (s.faulted = false ∧ t = e s) := by
  unfold busWrite at h
  obtain rfl := Host.Outcome.next.inj h
  cases hf : s.faulted <;> simp

theorem sizeChecked_legal {legal : Bool} (h : legal = true) (info : Word) (e : State → State) (s : State) :
    sizeChecked legal info e s = e s := by simp [sizeChecked, h]

theorem sizeChecked_illegal {legal : Bool} (h : legal = false) (info : Word) (e : State → State) (s : State) :
    sizeChecked legal info e s = raise 1#32 info s := by simp [sizeChecked, h, codeInvalidSize]

/-- Every instruction completes in every state, its fault entry included: no meaning stops the machine. -/
theorem exec_answers_next (i : Instr) (s : State) : ∃ t, exec i s = .next t := by
  cases i <;> exact ⟨_, rfl⟩

/-! The legal ranges of 30_encoding.md R106. -/

theorem isPow2_iff (v : Nat) : isPow2 v = true ↔ ∃ e, v = 2 ^ e := by
  simp only [isPow2, beq_iff_eq]
  refine ⟨fun h => ⟨_, h.symm⟩, ?_⟩
  rintro ⟨e, rfl⟩
  rw [Nat.log2_two_pow]

theorem legalPow2_iff (p : Params) (lo n : Nat) :
    legalPow2 p lo n = true ↔ isPow2 n = true ∧ lo ≤ n ∧ n ≤ p.nmax := by
  simp [legalPow2, and_assoc]

theorem legalCount_iff (p : Params) (n : Nat) : legalCount p n = true ↔ n ≤ p.nmax := by simp [legalCount]

theorem legalWindowed_iff (w : Word) (n : Len) :
    legalWindowed w (lenNat n) = true ↔ w ≠ 0#32 ∧ n.setWidth 32 = w := by
  simp only [legalWindowed, lenNat, Bool.and_eq_true, bne_iff_ne, beq_iff_eq, ne_eq, ← BitVec.toNat_inj]
  rw [BitVec.toNat_setWidth_of_le (by omega)]

/-- The facts of 00_scope.md R7 that the bounds below rest on. -/
theorem params_legal_iff (p : Params) : p.legal = true ↔
    isPow2 p.nmax = true ∧ 2 ≤ p.nmax ∧ p.nmax ≤ 2 ^ 23 ∧ 1 ≤ p.hcap ∧ p.hcap * (p.nmax / 2) ≤ 2 ^ 24 := by
  simp [Params.legal, and_assoc]

theorem hcap_le {p : Params} (h : p.legal = true) : p.hcap ≤ 2 ^ 24 := by
  obtain ⟨-, h2, -, -, h5⟩ := (params_legal_iff p).1 h
  calc p.hcap = p.hcap * 1 := (Nat.mul_one _).symm
    _ ≤ p.hcap * (p.nmax / 2) := Nat.mul_le_mul_left _ (by omega)
    _ ≤ 2 ^ 24 := h5

/-! The address map. -/

/-- Region and offset of an address, as numbers (20_memory.md R73). -/
theorem locate_eq (p : Params) (a : Word) :
    locate p a = if a.toNat < 2 ^ 28 then locateIn p (a.toNat / 2 ^ 24) (a.toNat % 2 ^ 24) else none := by
  have ha := a.isLt
  have h1 : a.extractLsb' 28 4 = 0#4 ↔ a.toNat < 2 ^ 28 := by
    rw [← BitVec.toNat_inj]; simp [BitVec.extractLsb'_toNat, Nat.shiftRight_eq_div_pow]; omega
  unfold locate
  by_cases h : a.toNat < 2 ^ 28
  · rw [if_pos (h1.2 h), if_pos h]
    congr 1
    simp [BitVec.extractLsb'_toNat, Nat.shiftRight_eq_div_pow]; omega
  · rw [if_neg (fun hc => h (h1.1 hc)), if_neg h]

/-- The machine's address map names a location exactly where the table of 20_memory.md R74 has a word. -/
theorem locate_isSome_iff (p : Params) (a : Word) : (locate p a).isSome = true ↔ Mapped p a := by
  rw [locate_eq, Mapped]
  by_cases h : a.toNat < 2 ^ 28
  · have hr : a.toNat / 2 ^ 24 < 16 := by omega
    rw [if_pos h]
    simp only [h, true_and]
    have hs (m : ScratchMem) (off : Nat) : (scratchLoc p m off).isSome = true ↔ off < scratchSize p m := by
      unfold scratchLoc; split <;> simp_all
    have hi (c : Prop) [Decidable c] (l : Loc) : (if c then some l else none).isSome = true ↔ c := by
      split <;> simp_all
    generalize a.toNat / 2 ^ 24 = r at hr
    interval_cases r <;> simp only [locateIn, hs, hi] <;>
      simp [scratchSize, regionSizes, regTable, Config.wcap]
  · rw [if_neg h]; exact ⟨fun hc => by simp at hc, fun hc => absurd hc.1 h⟩

theorem locate_eq_none_iff (p : Params) (a : Word) : locate p a = none ↔ ¬ Mapped p a := by
  rw [← locate_isSome_iff]; cases locate p a <;> simp

/-- An address built from a region and an offset (20_memory.md R73). -/
theorem locate_ofNat (p : Params) {r off : Nat} (hr : r < 16) (ho : off < 2 ^ 24) :
    locate p (BitVec.ofNat 32 (r * 2 ^ 24 + off)) = locateIn p r off := by
  have ht : (BitVec.ofNat 32 (r * 2 ^ 24 + off)).toNat = r * 2 ^ 24 + off := by
    rw [BitVec.toNat_ofNat, Nat.mod_eq_of_lt (by omega)]
  rw [locate_eq, ht, if_pos (by omega)]
  congr 1 <;> omega

/-- A scratch address is the location it is meant to be (20_memory.md R74). -/
theorem locate_scratch {p : Params} (h : p.legal = true) (m : ScratchMem) {i : Nat} (hi : i < scratchSize p m) :
    locate p (BitVec.ofNat 32 (scratchBase m + i)) = some (.scratch m i) := by
  have hn := ((params_legal_iff p).1 h).2.2.1
  have hs : i < 2 ^ 24 := by
    have : scratchSize p m ≤ 2 ^ 23 := by cases m <;> simp only [scratchSize] <;> omega
    omega
  cases m
  · exact (locate_ofNat p (r := 1) (by decide) hs).trans (if_pos hi)
  · exact (locate_ofNat p (r := 2) (by decide) hs).trans (if_pos hi)
  · exact (locate_ofNat p (r := 3) (by decide) hs).trans (if_pos hi)
  · exact (locate_ofNat p (r := 4) (by decide) hs).trans (if_pos hi)
  · exact (locate_ofNat p (r := 5) (by decide) hs).trans (if_pos hi)
  · exact (locate_ofNat p (r := 6) (by decide) hs).trans (if_pos hi)
  · exact (locate_ofNat p (r := 7) (by decide) hs).trans (if_pos hi)
  · exact (locate_ofNat p (r := 8) (by decide) hs).trans (if_pos hi)

/-! The rings. -/

theorem ringSlot_lt (pos i : Nat) : ringSlot pos i < 1024 := Nat.mod_lt _ (by decide)

theorem ringAppend_keeps_wf (vs : List Word) (pos : Nat) {w : Memory} (h : Memory.ringWf w = true) :
    Memory.ringWf (ringAppend pos w vs) = true := by
  induction vs generalizing pos w with
  | nil => exact h
  | cons v vs ih => exact ih _ (ringWrite_keeps_wf v (ringSlot_lt pos 0) h)

/-- A slot that no sample of the run lands on keeps its word. -/
theorem ringRead_ringAppend_other (vs : List Word) (pos : Nat) (w : Memory) {j : Nat}
    (h : ∀ i, i < vs.length → ringSlot pos i ≠ j) : Memory.ringRead (ringAppend pos w vs) j = Memory.ringRead w j := by
  induction vs generalizing pos w with
  | nil => rfl
  | cons v vs ih =>
    rw [ringAppend, ih, ringRead_ringWrite, if_neg (fun hc => h 0 (by simp) hc.symm)]
    intro i hi hc
    refine h (i + 1) (by simpa using hi) ?_
    simp only [ringSlot] at hc ⊢
    rw [← hc]; congr 1; omega

/-! The lists the units compute. -/

theorem length_evens_odds (n : Nat) : ∀ x : List Cplx, x.length = 2 * n →
    (evens x).length = n ∧ (odds x).length = n := by
  induction n with
  | zero => intro x h; simp [List.length_eq_zero_iff.1 h, evens, odds]
  | succ n ih =>
    intro x h
    match x, h with
    | a :: b :: rest, h =>
      obtain ⟨h1, h2⟩ := ih rest (by simp at h; omega)
      simp [evens, odds, h1, h2]

/-- The halves of R182, by index. -/
theorem getD_evens (x : List Cplx) (i : Nat) : (evens x).getD i czero = x.getD (2 * i) czero := by
  induction x using evens.induct generalizing i with
  | case1 => simp [evens]
  | case2 a => cases i <;> simp [evens, Nat.mul_add]
  | case3 a b rest ih =>
    cases i with
    | zero => simp [evens]
    | succ i => simpa [evens, Nat.mul_add] using ih i

theorem getD_odds (x : List Cplx) (i : Nat) : (odds x).getD i czero = x.getD (2 * i + 1) czero := by
  induction x using odds.induct generalizing i with
  | case1 => simp [odds]
  | case2 a => cases i <;> simp [odds, Nat.mul_add]
  | case3 a b rest ih =>
    cases i with
    | zero => simp [odds]
    | succ i => simpa [odds, Nat.mul_add] using ih i

theorem length_fftRec (t : Trig) (d : Draw) (L off stride : Nat) (x : List Cplx) (h : x.length = 2 ^ L) :
    (fftRec t d L off stride x).length = 2 ^ L := by
  cases L with
  | zero => simpa [fftRec] using h
  | succ L => simp [fftRec]; ring

theorem length_xformResult {n : Nat} (s : State) (h : isPow2 n = true) : (xformResult n s).length = n := by
  have h2 : 2 ^ n.log2 = n := by simpa [isPow2] using h
  rw [xformResult, fft, length_fftRec _ _ _ _ _ _ (by simp [h2]), h2]

@[simp] theorem length_normalise (d : Draw) (ms : List Word) (top : Word) :
    (normalise d ms top).length = ms.length := by simp [normalise]

@[simp] theorem length_magnitudes (half : Nat) (s : State) : (magnitudes half s).length = half := by
  simp [magnitudes]

@[simp] theorem length_specFrame (s : State) : (specFrame s).length = s.specLen.toNat := by simp [specFrame]

theorem length_pushFrame_le {cap : Nat} (f : Frame) {h : List Frame} (hl : h.length ≤ cap) :
    (pushFrame cap f h).length ≤ cap := by
  unfold pushFrame
  split
  · simpa using hl
  · omega

theorem mem_pushFrame {cap : Nat} {f g : Frame} {h : List Frame} (hg : g ∈ pushFrame cap f h) : g = f ∨ g ∈ h := by
  unfold pushFrame at hg
  split at hg
  · exact List.mem_cons.1 (List.mem_of_mem_dropLast hg)
  · exact List.mem_cons.1 hg

theorem clampHistory_range {hcap : Nat} (v : Nat) (h : 1 ≤ hcap) :
    1 ≤ clampHistory hcap v ∧ clampHistory hcap v ≤ hcap := by
  unfold clampHistory; omega

/-- The zoom range of a length of at least two is not empty and within the half spectrum (43_spectral_frame.md
R204). -/
theorem zoomBins_range (d : Draw) (sr N fmin fmax : Word) (h : 2 ≤ N.toNat) :
    0 ≤ (zoomBins d sr N fmin fmax).1 ∧ (zoomBins d sr N fmin fmax).1 < (zoomBins d sr N fmin fmax).2 ∧
      (zoomBins d sr N fmin fmax).2 ≤ (N.toNat / 2 : Nat) := by
  simp only [zoomBins, clampInt]
  omega

/-! The source. -/

theorem srcAvail_cons {s : State} {a : Bool} {r : List Bool} (h : s.availAnswers = a :: r) : srcAvail s = a := by
  simp [srcAvail, h]

theorem srcReadCount_cons {s : State} {a : SrcAnswer} {r : List SrcAnswer} (h : s.readAnswers = a :: r) :
    srcReadCount s = a.count := by simp [srcReadCount, h]

theorem srcReadSample_cons {s : State} {a : SrcAnswer} {r : List SrcAnswer} (h : s.readAnswers = a :: r) {i : Nat}
    (hi : i < a.samples.length) : srcReadSample s i = a.samples[i] := by
  simp [srcReadSample, h, hi]

end Sys2Proof.Machine
end

