-- ==== Sys2Proof/Laws/Float.lean ====
section
/-! SUPPORT. Small laws of the binary32 operations: the NaN of a draw, the fields of a built pattern. -/

namespace Sys2Proof.Machine

theorem toNat_ofMag (neg : Bool) {mag : Nat} (h : mag < 2 ^ 31) :
    (ofMag neg mag).toNat = mag + if neg then 2 ^ 31 else 0 := by
  unfold ofMag
  rw [BitVec.toNat_ofNat, Nat.mod_eq_of_lt]
  split <;> omega

theorem fSign_iff (w : Word) : fSign w = true ↔ 2 ^ 31 ≤ w.toNat := by simp [fSign, BitVec.msb_eq_decide]

/-- A built pattern has the sign it was given. -/
theorem fSign_ofMag (neg : Bool) {mag : Nat} (h : mag < 2 ^ 31) : fSign (ofMag neg mag) = neg := by
  rw [Bool.eq_iff_iff, fSign_iff, toNat_ofMag neg h]
  cases neg
  · simp; omega
  · simp

/-- A built pattern has the magnitude it was given. -/
theorem fMag_ofMag (neg : Bool) {mag : Nat} (h : mag < 2 ^ 31) : fMag (ofMag neg mag) = mag := by
  rw [fMag, toNat_ofMag neg h]
  split <;> omega

theorem fExp_eq_fMag (w : Word) : fExp w = fMag w / 2 ^ 23 := by unfold fExp fMag; omega

theorem fFrac_eq_fMag (w : Word) : fFrac w = fMag w % 2 ^ 23 := by unfold fFrac fMag; omega

/-- The classes by magnitude pattern (40_numerics.md R130). -/
theorem isNaN_iff (w : Word) : isNaN w = true ↔ infMag < fMag w := by
  have : fMag w < 2 ^ 31 := Nat.mod_lt _ (by decide)
  simp only [isNaN, Bool.and_eq_true, beq_iff_eq, bne_iff_ne, fExp_eq_fMag, fFrac_eq_fMag, infMag]; omega

theorem isInf_iff (w : Word) : isInf w = true ↔ fMag w = infMag := by
  have : fMag w < 2 ^ 31 := Nat.mod_lt _ (by decide)
  simp only [isInf, Bool.and_eq_true, beq_iff_eq, fExp_eq_fMag, fFrac_eq_fMag, infMag]; omega

theorem isFinite_iff (w : Word) : isFinite w = true ↔ fMag w < infMag := by
  have : fMag w < 2 ^ 31 := Nat.mod_lt _ (by decide)
  simp only [isFinite, bne_iff_ne, fExp_eq_fMag, infMag]; omega

theorem isZero_iff (w : Word) : isZero w = true ↔ fMag w = 0 := by simp [isZero]

/-- What an operation draws for a NaN is a NaN (40_numerics.md R135). -/
theorem isNaN_nanOf (d : Draw) : isNaN (nanOf d) = true := by
  have h : ∀ (b : Bool) (f : BitVec 23), f ≠ 0#23 → isNaN (BitVec.ofBool b ++ 0xFF#8 ++ f) = true := by
    intro b f hf
    have hn : 0 < f.toNat := by
      rcases Nat.eq_zero_or_pos f.toNat with h0 | h0
      · exact absurd (BitVec.eq_of_toNat_eq (by simpa using h0)) hf
      · exact h0
    have hlt := f.isLt
    have ht : (BitVec.ofBool b ++ 0xFF#8 ++ f).toNat = (b.toNat * 2 ^ 8 + 255) * 2 ^ 23 + f.toNat := by
      rw [BitVec.toNat_append, ← Nat.shiftLeft_add_eq_or_of_lt hlt, Nat.shiftLeft_eq, BitVec.toNat_append,
        ← Nat.shiftLeft_add_eq_or_of_lt (BitVec.isLt _), Nat.shiftLeft_eq, BitVec.toNat_ofBool]
      rfl
    rw [isNaN_iff, fMag, ht, infMag]
    cases b <;> simp <;> omega
  unfold nanOf
  simp only
  split
  · exact h _ _ (by decide)
  · exact h _ _ (by assumption)

/-- Rounding stays within infinity, so it is a magnitude pattern. -/
theorem roundMag_le (n d : Nat) : roundMag n d ≤ infMag := Nat.min_le_right _ _

theorem roundMag_lt (n d : Nat) : roundMag n d < 2 ^ 31 :=
  lt_of_le_of_lt (roundMag_le n d) (by decide)

/-- Setting the exponent and one fraction bit makes a NaN. -/
theorem isNaN_or (w : Word) : isNaN (w ||| 0x7F800001#32) = true := by
  rw [isNaN_iff, fMag, BitVec.toNat_or, Nat.or_mod_two_pow]
  exact lt_of_lt_of_le (by decide) Nat.right_le_or

/-- The exact points of 40_numerics.md R144 hold of the machine's pair, whatever the free pair is. -/
theorem trig_exact (t : Trig) : (withExactPoints t).Exact where
  cos_zero := rfl
  cos_negZero := rfl
  sin_zero := rfl
  sin_negZero := rfl
  cos_nonfinite x hx := by
    have hz : isZero x = false := by
      rw [Bool.eq_false_iff]; intro h
      have h1 := (isZero_iff x).1 h
      have h2 : isFinite x = true := (isFinite_iff x).2 (by rw [h1]; decide)
      simp [hx] at h2
    simp only [withExactPoints, hz, hx]
    simp only [Bool.false_eq_true, if_false]
    split
    · assumption
    · exact isNaN_or _
  sin_nonfinite x hx := by
    have hz : isZero x = false := by
      rw [Bool.eq_false_iff]; intro h
      have h1 := (isZero_iff x).1 h
      have h2 : isFinite x = true := (isFinite_iff x).2 (by rw [h1]; decide)
      simp [hx] at h2
    simp only [withExactPoints, hz, hx]
    simp only [Bool.false_eq_true, if_false]
    split
    · assumption
    · exact isNaN_or _

end Sys2Proof.Machine
end

