-- ==== Sys2Proof/Laws/Frames.lean ====
section
/-! SUPPORT. The frame of each effect: which fields it can change, said once, as an equation. A later proof about a
field that is not named rewrites with the equation and never unfolds the effect. -/

namespace Sys2Proof.Machine

variable (s : State)

theorem storeBlock_frame (m : ScratchMem) (vs : List Word) :
    storeBlock m vs s = { s with mem := (storeBlock m vs s).mem } := rfl

theorem doWingen_frame (n : Nat) :
    doWingen n s = { s with mem := (doWingen n s).mem, winN := BitVec.ofNat 32 n } := rfl

theorem doPcm2f_frame (n : Nat) : doPcm2f n s = { s with mem := (doPcm2f n s).mem } := rfl

theorem doWmul_frame (n : Nat) : doWmul n s = { s with mem := (doWmul n s).mem } := rfl

theorem doXform_frame (n : Nat) : doXform n s = { s with mem := (doXform n s).mem } := rfl

theorem doMagn_frame (n : Nat) :
    doMagn n s =
      { s with
        mem := (doMagn n s).mem
        peak := peakOf (magnitudes (n / 2) s)
        degen := degenOf (peakOf (magnitudes (n / 2) s)) } := rfl

theorem doZoom_frame : doZoom s = { s with zmin := (doZoom s).zmin, zmax := (doZoom s).zmax } := rfl

theorem doSelect_frame :
    doSelect s =
      { s with mem := (doSelect s).mem, specLen := BitVec.ofNat 32 (s.zmax.toNat - s.zmin.toNat) } := rfl

theorem doBuild_frame :
    doBuild s =
      { s with
        mem := (doBuild s).mem
        peak := (doBuild s).peak
        degen := (doBuild s).degen
        zmin := (doBuild s).zmin
        zmax := (doBuild s).zmax
        specLen := (doBuild s).specLen } := by
  unfold doBuild
  generalize hm : doMagn s.fftSize.toNat s = u
  rw [doMagn_frame] at hm
  subst hm
  rw [doSelect_frame, doZoom_frame]

theorem doHpush_frame : doHpush s = { s with hist := (doHpush s).hist } := rfl

theorem doHsnap_frame : doHsnap s = { s with hsnapBank := s.hist } := rfl

theorem doWriteMaxHistory_frame (v : Word) :
    doWriteMaxHistory v s =
      { s with maxHistory := (doWriteMaxHistory v s).maxHistory, hist := (doWriteMaxHistory v s).hist } := rfl

theorem doWwrite_frame (n : Nat) :
    doWwrite n s = { s with wave := (doWwrite n s).wave, writePos := (doWwrite n s).writePos } := rfl

theorem doWsnap_frame : doWsnap s = { s with wsnapBank := s.wave, wsnapPos := s.writePos } := rfl

theorem doTick_frame : doTick s = { s with tickStep := (doTick s).tickStep, tickSub := (doTick s).tickSub } := rfl

theorem doF2bin_frame : doF2bin s = { s with mapRes := (doF2bin s).mapRes } := rfl

theorem doBin2f_frame : doBin2f s = { s with mapRes := (doBin2f s).mapRes } := rfl

theorem releaseSource_frame :
    releaseSource s = { s with pstate := (releaseSource s).pstate, srcEvents := (releaseSource s).srcEvents } := by
  unfold releaseSource; split <;> rfl

theorem raise_frame (code info : Word) :
    raise code info s =
      { s with
        errCode := code
        errInfo := info
        faulted := true
        pstate := (releaseSource s).pstate
        srcEvents := (releaseSource s).srcEvents } := by
  unfold raise; rw [releaseSource_frame]

theorem doStart_frame :
    doStart s =
      { s with
        pstate := (doStart s).pstate
        srcUnav := (doStart s).srcUnav
        availAnswers := (doStart s).availAnswers
        srcEvents := (doStart s).srcEvents } := by
  unfold doStart; split <;> rfl

theorem acquire_frame (n : Nat) :
    acquire n s =
      { s with mem := (acquire n s).mem, srcCount := srcReadCount s, readAnswers := s.readAnswers.tail } := rfl

theorem refreshWindow_frame (n : Nat) :
    refreshWindow n s = { s with mem := (refreshWindow n s).mem, winN := (refreshWindow n s).winN } := by
  unfold refreshWindow; split <;> rfl

/-- The state the spectral frame of a cycle is built from. -/
theorem processFrame_eq (n : Nat) :
    processFrame n s =
      doWwrite n (doHpush (doBuild (doXform n (doWmul n (refreshWindow n (doPcm2f n s)))))) := rfl

theorem processFrame_frame (n : Nat) :
    processFrame n s =
      { s with
        mem := (processFrame n s).mem
        winN := (processFrame n s).winN
        peak := (processFrame n s).peak
        degen := (processFrame n s).degen
        zmin := (processFrame n s).zmin
        zmax := (processFrame n s).zmax
        specLen := (processFrame n s).specLen
        hist := (processFrame n s).hist
        wave := (processFrame n s).wave
        writePos := (processFrame n s).writePos } := by
  rw [processFrame_eq]
  generalize hr : refreshWindow n (doPcm2f n s) = r
  have h1 : r = { s with mem := r.mem, winN := r.winN } := by
    rw [← hr, refreshWindow_frame, doPcm2f_frame]
  generalize hx : doXform n (doWmul n r) = x
  have h2 : x = { s with mem := x.mem, winN := x.winN } := by
    rw [← hx, doXform_frame, doWmul_frame, h1]
  generalize hb : doBuild x = b
  rw [doBuild_frame, h2] at hb
  subst hb
  rw [doWwrite_frame, doHpush_frame]

theorem doCycle_frame :
    doCycle s =
      { s with
        mem := (doCycle s).mem
        winN := (doCycle s).winN
        peak := (doCycle s).peak
        degen := (doCycle s).degen
        zmin := (doCycle s).zmin
        zmax := (doCycle s).zmax
        specLen := (doCycle s).specLen
        hist := (doCycle s).hist
        wave := (doCycle s).wave
        writePos := (doCycle s).writePos
        srcCount := (doCycle s).srcCount
        readAnswers := (doCycle s).readAnswers
        cyc := (doCycle s).cyc } := by
  unfold doCycle
  split
  · simp only
    split
    · rfl
    · rw [processFrame_frame, acquire_frame]
  · rfl

/-! No effect sets FAULT: only `raise` does (60_exceptions.md R340, R344). -/

theorem faulted_doWingen (n : Nat) : (doWingen n s).faulted = s.faulted :=
  (congrArg State.faulted (doWingen_frame s n) :)

theorem faulted_doPcm2f (n : Nat) : (doPcm2f n s).faulted = s.faulted :=
  (congrArg State.faulted (doPcm2f_frame s n) :)

theorem faulted_doWmul (n : Nat) : (doWmul n s).faulted = s.faulted :=
  (congrArg State.faulted (doWmul_frame s n) :)

theorem faulted_doXform (n : Nat) : (doXform n s).faulted = s.faulted :=
  (congrArg State.faulted (doXform_frame s n) :)

theorem faulted_doMagn (n : Nat) : (doMagn n s).faulted = s.faulted :=
  (congrArg State.faulted (doMagn_frame s n) :)

theorem faulted_doZoom : (doZoom s).faulted = s.faulted :=
  (congrArg State.faulted (doZoom_frame s) :)

theorem faulted_doSelect : (doSelect s).faulted = s.faulted :=
  (congrArg State.faulted (doSelect_frame s) :)

theorem faulted_doBuild : (doBuild s).faulted = s.faulted :=
  (congrArg State.faulted (doBuild_frame s) :)

theorem faulted_doHpush : (doHpush s).faulted = s.faulted :=
  (congrArg State.faulted (doHpush_frame s) :)

theorem faulted_doHsnap : (doHsnap s).faulted = s.faulted :=
  (congrArg State.faulted (doHsnap_frame s) :)

theorem faulted_doWriteMaxHistory (v : Word) : (doWriteMaxHistory v s).faulted = s.faulted :=
  (congrArg State.faulted (doWriteMaxHistory_frame s v) :)

theorem faulted_doWwrite (n : Nat) : (doWwrite n s).faulted = s.faulted :=
  (congrArg State.faulted (doWwrite_frame s n) :)

theorem faulted_doWsnap : (doWsnap s).faulted = s.faulted :=
  (congrArg State.faulted (doWsnap_frame s) :)

theorem faulted_doTick : (doTick s).faulted = s.faulted :=
  (congrArg State.faulted (doTick_frame s) :)

theorem faulted_doF2bin : (doF2bin s).faulted = s.faulted :=
  (congrArg State.faulted (doF2bin_frame s) :)

theorem faulted_doBin2f : (doBin2f s).faulted = s.faulted :=
  (congrArg State.faulted (doBin2f_frame s) :)

theorem faulted_doStart : (doStart s).faulted = s.faulted :=
  (congrArg State.faulted (doStart_frame s) :)

theorem faulted_releaseSource : (releaseSource s).faulted = s.faulted :=
  (congrArg State.faulted (releaseSource_frame s) :)

theorem faulted_doCycle : (doCycle s).faulted = s.faulted :=
  (congrArg State.faulted (doCycle_frame s) :)

/-- An operation behind a size check faults only where the check fails. -/
theorem sizeChecked_faults {s t : State} {legal : Bool} {info : Word} {e : State → State} (hf : s.faulted = false)
    (h : busWrite s (sizeChecked legal info e) = .next t) (ht : t.faulted = true) (he : (e s).faulted = s.faulted) :
    legal = false := by
  rw [busWrite_clear hf] at h
  obtain rfl := Host.Outcome.next.inj h
  cases legal with
  | false => rfl
  | true => rw [sizeChecked_legal rfl, he, hf] at ht; exact absurd ht (by decide)

/-- An operation without a check never faults. -/
theorem busWrite_keeps_faulted {s t : State} {e : State → State} (h : busWrite s e = .next t)
    (he : (e s).faulted = s.faulted) : t.faulted = s.faulted := by
  rcases busWrite_cases h with ⟨-, rfl⟩ | ⟨-, rfl⟩
  · rfl
  · exact he

end Sys2Proof.Machine
end

