-- ==== Sys2Proof/Laws/Invariant.lean ====
section
/-! SUPPORT. The invariant of the block, operation by operation: each effect keeps it, under the check that stands
before that effect (10_state.md R62; 20_memory.md R89). -/

namespace Sys2Proof.Machine

variable {s : State}

theorem Inv.nmax_range (h : Inv s) : 2 ≤ s.params.nmax ∧ s.params.nmax ≤ 2 ^ 23 :=
  have h' := (params_legal_iff _).1 h.params_legal
  ⟨h'.2.1, h'.2.2.1⟩

theorem Inv.hcap_range (h : Inv s) : 1 ≤ s.params.hcap ∧ s.params.hcap ≤ 2 ^ 24 :=
  ⟨((params_legal_iff _).1 h.params_legal).2.2.2.1, hcap_le h.params_legal⟩

theorem elementWord_pcm_sample (w : Word) : pcmWord (elementWord .pcm w) = elementWord .pcm w := by
  simp [elementWord]

/-- A PCM address is below the other scratch memories (20_memory.md R74). -/
theorem scratchBase_lt_sig {m : ScratchMem} {i : Nat} (h : scratchBase m + i < scratchBase .sig) : m = .pcm := by
  cases m <;> simp only [scratchBase] at h <;> first | rfl | omega

theorem Inv.storeBlock (h : Inv s) (m : ScratchMem) (vs : List Word) (hl : vs.length ≤ scratchSize s.params m) :
    Inv (storeBlock m vs s) := by
  have hc : ∀ c ∈ Memory.insertBlock s.mem (scratchBase m) (vs.map (elementWord m)),
      (∃ i, i < vs.length ∧ (vs.map (elementWord m))[i]? = some c.2 ∧ c.1 = scratchBase m + i) ∨ c ∈ s.mem := by
    intro c hm
    simpa using mem_insertBlock hm
  exact { h with
    mem_wf := insertBlock_keeps_wf _ _ h.mem_wf
    mem_mapped := fun c hm => by
      rcases hc c hm with ⟨i, hi, -, h2⟩ | hm
      · exact ⟨m, i, lt_of_lt_of_le hi hl, h2⟩
      · exact h.mem_mapped c hm
    pcm_samples := fun c hm hlt => by
      rcases hc c hm with ⟨i, hi, h1, h2⟩ | hm
      · obtain rfl := scratchBase_lt_sig (h2 ▸ hlt)
        rw [List.getElem?_map, List.getElem?_eq_getElem hi] at h1
        rw [← Option.some.inj h1]
        exact elementWord_pcm_sample _
      · exact h.pcm_samples c hm hlt }

theorem Inv.storeElem (h : Inv s) (m : ScratchMem) {i : Nat} (w : Word) (hi : i < scratchSize s.params m) :
    Inv (storeElem m i w s) :=
  { h with
    mem_wf := insert_keeps_wf _ _ h.mem_wf
    mem_mapped := fun c hm => by
      rcases mem_insert hm with rfl | hm
      · exact ⟨m, i, hi, rfl⟩
      · exact h.mem_mapped c hm
    pcm_samples := fun c hm hlt => by
      rcases mem_insert hm with rfl | hm
      · obtain rfl := scratchBase_lt_sig hlt
        exact elementWord_pcm_sample _
      · exact h.pcm_samples c hm hlt }

/-- A fault entry keeps the invariant (60_exceptions.md R340). -/
theorem Inv.raise (h : Inv s) {code : Word} (hc : code = 1#32 ∨ code = 5#32 ∨ code = 6#32) (info : Word) :
    Inv (raise code info s) := by
  have hcode : code ≠ 0#32 := by rcases hc with rfl | rfl | rfl <;> decide
  by_cases hp : s.pstate = .running
  · have he : Machine.raise code info s = { s with errCode := code, errInfo := info, faulted := true, pstate := .stopped,
                                                   srcEvents := s.srcEvents ++ [.srcRelease] } := by
      simp [Machine.raise, releaseSource, emit, hp]
    rw [he]
    exact { h with
      faulted_not_running := fun _ => by simp
      errCode_iff := by simpa using hcode
      errCode_codes := .inr hc
      events_match := by simp [h.events_match, hp, eventsOf] }
  · have he : Machine.raise code info s = { s with errCode := code, errInfo := info, faulted := true } := by
      simp [Machine.raise, releaseSource, hp]
    rw [he]
    exact { h with
      faulted_not_running := fun _ => hp
      errCode_iff := by simpa using hcode
      errCode_codes := .inr hc }

theorem Inv.sizeChecked (h : Inv s) {legal : Bool} {e : State → State} (info : Word)
    (he : legal = true → Inv (e s)) : Inv (sizeChecked legal info e s) := by
  unfold Machine.sizeChecked
  split
  · exact he (by assumption)
  · exact h.raise (.inl rfl) info

theorem Inv.busWrite {t : State} (h : Inv s) {e : State → State} (he : s.faulted = false → Inv (e s))
    (ht : busWrite s e = .next t) : Inv t := by
  rcases busWrite_cases ht with ⟨-, rfl⟩ | ⟨hf, rfl⟩
  · exact h
  · exact he hf

/-! The units. -/

theorem setWidth_toNat {n : Nat} (h : n < 2 ^ 32) : (BitVec.ofNat 32 n).toNat = n := by
  rw [BitVec.toNat_ofNat, Nat.mod_eq_of_lt h]

theorem Inv.doWingen (h : Inv s) {n : Nat} (hn : legalPow2 s.params 2 n = true) : Inv (doWingen n s) := by
  obtain ⟨h1, h2, h3⟩ := (legalPow2_iff _ _ _).1 hn
  have hm := h.nmax_range
  have hw : (BitVec.ofNat 32 n).toNat = n := setWidth_toNat (by omega)
  have hs := h.storeBlock .win ((List.range n).map fun i => hann trig32 (i :: drawAt s siteWingen) i n)
    (by simpa [scratchSize] using h3)
  exact { hs with winN_legal := .inr (by simpa [Machine.doWingen, hw] using ⟨h1, h2, h3⟩) }

theorem Inv.doPcm2f (h : Inv s) {n : Nat} (hn : n ≤ s.params.nmax) : Inv (doPcm2f n s) :=
  h.storeBlock _ _ (by simpa [scratchSize] using hn)

theorem Inv.doWmul (h : Inv s) {n : Nat} (hn : n ≤ s.params.nmax) : Inv (doWmul n s) :=
  h.storeBlock _ _ (by simpa [scratchSize] using hn)

theorem Inv.winN_le (h : Inv s) : s.winN.toNat ≤ s.params.nmax := by
  rcases h.winN_legal with h0 | h1
  · simp [h0]
  · exact h1.2.2

theorem Inv.doXform (h : Inv s) {n : Nat} (hp : isPow2 n = true) (hn : n ≤ s.params.nmax) : Inv (doXform n s) := by
  have hl := length_xformResult s hp
  have h1 : Inv (Machine.storeBlock .xre ((xformResult n s).map Cplx.re) s) :=
    h.storeBlock _ _ (by simpa [scratchSize, hl] using hn)
  exact h1.storeBlock _ _ (by simpa [scratchSize, hl] using hn)

theorem Inv.doMagn (h : Inv s) {n : Nat} (hn : n ≤ s.params.nmax) : Inv (doMagn n s) := by
  have hs := h.storeBlock .norm (normalise (drawAt s siteNorm) (magnitudes (n / 2) s) (peakOf (magnitudes (n / 2) s)))
    (by simpa [scratchSize] using Nat.div_le_div_right hn)
  exact { hs with }

theorem Inv.doZoom (h : Inv s) : Inv (doZoom s) := by
  have hr := zoomBins_range (drawAt s siteZoom) s.sampleRate s.fftSize s.minFreqHz s.maxFreqHz h.fftSize_legal.2.1
  have hN := h.fftSize_legal.2.2
  have hm := h.nmax_range
  refine { h with zoom_range := ?_ }
  simp only [Machine.doZoom]
  generalize zoomBins (drawAt s siteZoom) s.sampleRate s.fftSize s.minFreqHz s.maxFreqHz = z at hr
  obtain ⟨a, b⟩ := z
  obtain ⟨h1, h2, h3⟩ := hr
  simp only at h1 h2 h3 ⊢
  have hdiv : s.fftSize.toNat / 2 ≤ s.params.nmax / 2 := Nat.div_le_div_right hN
  rw [BitVec.toNat_ofInt, BitVec.toNat_ofInt, Int.emod_eq_of_lt h1 (by omega), Int.emod_eq_of_lt (by omega) (by omega)]
  omega

theorem Inv.doSelect (h : Inv s) : Inv (doSelect s) := by
  have hz := h.zoom_range
  have hm := h.nmax_range
  have hs := h.storeBlock .spec ((List.range (s.zmax.toNat - s.zmin.toNat)).map fun j => elem s .norm (s.zmin.toNat + j))
    (by simp only [List.length_map, List.length_range, scratchSize]; omega)
  refine { hs with specLen_range := ?_ }
  simp only [Machine.doSelect, storeBlock_params]
  rw [setWidth_toNat (by omega)]
  omega

theorem Inv.doBuild (h : Inv s) : Inv (doBuild s) := (h.doMagn h.fftSize_legal.2.2).doZoom.doSelect

theorem Inv.doHpush (h : Inv s) (hl : s.specLen ≠ 0#32) : Inv (doHpush s) := by
  have h1 : 1 ≤ s.specLen.toNat := by
    rcases Nat.eq_zero_or_pos s.specLen.toNat with h0 | h0
    · exact absurd (BitVec.eq_of_toNat_eq (by simpa using h0)) hl
    · exact h0
  exact { h with
    hist_within_cap := length_pushFrame_le _ h.hist_within_cap
    hist_frames := fun f hf => by
      rcases mem_pushFrame hf with rfl | hf
      · simpa using ⟨h1, h.specLen_range⟩
      · exact h.hist_frames f hf }

theorem Inv.doHsnap (h : Inv s) : Inv (doHsnap s) :=
  { h with
    bank_frames := h.hist_frames
    bank_within_slots := h.hist_within_cap.trans h.maxHistory_range.2 }

theorem Inv.doWriteMaxHistory (h : Inv s) (v : Word) : Inv (doWriteMaxHistory v s) := by
  have hc := clampHistory_range v.toNat h.hcap_range.1
  have hw : (BitVec.ofNat 32 (clampHistory s.params.hcap v.toNat)).toNat = clampHistory s.params.hcap v.toNat :=
    setWidth_toNat (by have := h.hcap_range.2; omega)
  exact { h with
    maxHistory_range := by simpa [Machine.doWriteMaxHistory, hw] using hc
    hist_within_cap := by simp [Machine.doWriteMaxHistory, hw]
    hist_frames := fun f hf => h.hist_frames f (List.mem_of_mem_take hf) }

theorem Inv.doWwrite (h : Inv s) (n : Nat) : Inv (doWwrite n s) :=
  { h with
    writePos_range := (BitVec.ofNat 10 _).isLt
    wave_wf := ringAppend_keeps_wf _ _ h.wave_wf }

theorem Inv.doWsnap (h : Inv s) : Inv (doWsnap s) := { h with waveBank_wf := h.wave_wf }

theorem Inv.doStart (h : Inv s) (hf : s.faulted = false) : Inv (doStart s) := by
  unfold Machine.doStart
  split
  · rename_i hp
    exact { h with
      faulted_not_running := fun hc => absurd (hf.symm.trans hc) (by decide)
      events_match := by
        simp only [h.events_match, hp]
        cases srcAvail s <;> simp [eventsOf] }
  · exact h

theorem Inv.doStop (h : Inv s) : Inv (doStop s) := by
  unfold Machine.doStop releaseSource
  split
  · rename_i hp
    exact { h with
      faulted_not_running := fun _ => by simp
      events_match := by simp [h.events_match, hp, eventsOf, emit] }
  · exact h

theorem Inv.acquire (h : Inv s) {n : Nat} (hn : n ≤ s.params.nmax) : Inv (acquire n s) := by
  have h1 : Inv { s with srcCount := srcReadCount s, readAnswers := s.readAnswers.tail } := { h with }
  refine h1.storeBlock _ _ ?_
  simp only [List.length_map, List.length_range, scratchSize, deliveredCount]
  omega

/-- After BUILD there is a frame to push (43_spectral_frame.md R204, R206). -/
theorem Inv.doBuild_specLen_ne_zero (h : Inv s) : (Machine.doBuild s).specLen ≠ 0#32 := by
  have hz := (h.doMagn h.fftSize_legal.2.2).doZoom.zoom_range
  have hm := (h.doMagn h.fftSize_legal.2.2).doZoom.nmax_range
  intro hc
  have : (Machine.doBuild s).specLen.toNat = 0 := by simp [hc]
  simp only [Machine.doBuild, Machine.doSelect] at this
  rw [setWidth_toNat (by omega)] at this
  omega

theorem Inv.processFrame (h : Inv s) : Inv (processFrame s.fftSize.toNat s) := by
  obtain ⟨hp, h2, hn⟩ := h.fftSize_legal
  have h1 : Inv (Machine.doPcm2f s.fftSize.toNat s) := h.doPcm2f hn
  have h3 : Inv (refreshWindow s.fftSize.toNat (Machine.doPcm2f s.fftSize.toNat s)) := by
    unfold refreshWindow
    split
    · exact h1
    · exact h1.doWingen ((legalPow2_iff _ _ _).2 ⟨hp, h2, hn⟩)
  have hpar : (refreshWindow s.fftSize.toNat (Machine.doPcm2f s.fftSize.toNat s)).params = s.params := by
    unfold refreshWindow; split <;> rfl
  have h4 := (h3.doWmul (n := s.fftSize.toNat) (by rw [hpar]; exact hn))
  have h5 := h4.doXform hp (n := s.fftSize.toNat) (by simpa [Machine.doWmul, hpar] using hn)
  exact (h5.doBuild.doHpush h5.doBuild_specLen_ne_zero).doWwrite _

theorem Inv.doCycle (h : Inv s) : Inv (doCycle s) := by
  unfold Machine.doCycle
  split
  · have h1 : Inv (Machine.acquire s.fftSize.toNat s) := h.acquire h.fftSize_legal.2.2
    simp only
    split
    · exact { h1 with }
    · have h2 : Inv (Machine.processFrame s.fftSize.toNat (Machine.acquire s.fftSize.toNat s)) := h1.processFrame
      exact { h2 with }
  · exact h

/-! The bus operations. -/

theorem Inv.doWriteFftSize (h : Inv s) (v : Word) : Inv (doWriteFftSize v s) :=
  h.sizeChecked v fun hl => { h with fftSize_legal := (legalPow2_iff _ _ _).1 hl }

theorem Inv.doWriteSpecLen (h : Inv s) (v : Word) : Inv (doWriteSpecLen v s) :=
  h.sizeChecked v fun hl => { h with specLen_range := by simpa using hl }

theorem Inv.writeReg (h : Inv s) (r : Reg) (addr v : Word) : Inv (writeReg r addr v s) := by
  have hb : Inv (Machine.raise codeBusError addr s) := h.raise (.inr (.inr rfl)) addr
  cases r
  case fftSize => exact h.doWriteFftSize v
  case maxHistory => exact h.doWriteMaxHistory v
  case specLen => exact h.doWriteSpecLen v
  all_goals first | exact hb | exact h | exact { h with }

theorem locate_scratch_lt {p : Params} {a : Word} {m : ScratchMem} {i : Nat} (h : locate p a = some (.scratch m i)) :
    i < scratchSize p m := by
  rw [locate_eq] at h
  split at h
  · have hs : ∀ m' off, scratchLoc p m' off = some (.scratch m i) → i < scratchSize p m := by
      intro m' off h
      unfold scratchLoc at h
      split at h
      · rename_i hlt
        simp only [Option.some.injEq, Loc.scratch.injEq] at h
        obtain ⟨rfl, rfl⟩ := h
        exact hlt
      · simp at h
    unfold locateIn at h
    split at h
    · rw [Option.map_eq_some_iff] at h; simp at h
    case h_2 => exact hs _ _ h
    case h_3 => exact hs _ _ h
    case h_4 => exact hs _ _ h
    case h_5 => exact hs _ _ h
    case h_6 => exact hs _ _ h
    case h_7 => exact hs _ _ h
    case h_8 => exact hs _ _ h
    case h_9 => exact hs _ _ h
    all_goals first | (split at h <;> simp at h) | simp at h
  · simp at h

theorem Inv.doWrite (h : Inv s) (addr v : Word) : Inv (doWrite addr v s) := by
  have hb : Inv (Machine.raise codeBusError addr s) := h.raise (.inr (.inr rfl)) addr
  unfold Machine.doWrite
  split
  · exact hb
  · exact h.writeReg _ _ _
  · rename_i hl; exact h.storeElem _ _ (locate_scratch_lt hl)
  all_goals exact hb

theorem Inv.doRead (h : Inv s) (addr : Word) : Inv (doRead addr s) := by
  unfold Machine.doRead
  split
  · exact { h with }
  · have h1 : Inv (if s.faulted = true then s else Machine.raise codeBusError addr s) := by
      split
      · exact h
      · exact h.raise (.inr (.inr rfl)) addr
    exact { h1 with }

theorem Inv.fetched (h : Inv s) (rest : List BusInput) : Inv (fetched rest s) := { h with }

theorem releasedAll_append {u v : List SrcEvent} (hu : releasedAll u = true) (hv : releasedAll v = true) :
    releasedAll (u ++ v) = true := by
  induction u using releasedAll.induct with
  | case1 => exact hv
  | case2 rest ih => exact ih hu
  | case3 x h1 h2 => simp [releasedAll] at hu

theorem releasedAll_releaseSource (h : Inv s) : releasedAll (releaseSource s).srcEvents = true := by
  unfold releaseSource
  split
  · rename_i hp; simp [emit, h.events_match, hp, eventsOf, releasedAll]
  · rename_i hp
    rw [h.events_match]
    cases hs : s.pstate <;> simp_all [eventsOf, releasedAll]

end Sys2Proof.Machine
end

