-- ==== Sys2Proof/Laws/PerInstr.lean ====
section
/-! SUPPORT. Statements made instruction by instruction. Family Encoding: how an instruction travels on the bus
(30_encoding.md R101, R102, R104, R108). -/

namespace Sys2Proof.Laws

/-- A command is a write to CMD with its opcode in the top byte; a bus operation that the decoder can give is not a
write to CMD (30_encoding.md R104). -/
def Encoding.Statement (i : Instr) : Prop :=
  (∀ opc, opcodeOf i = some opc → ∃ n : Len, encode i = .write addrCmd (opc ++ n)) ∧
  (opcodeOf i = none → i.wf = true → ∀ d, encode i ≠ .write addrCmd d)

theorem Encoding.command {i : Instr} {opc : BitVec 8} {n : Len} (ho : opcodeOf i = some opc)
    (he : encode i = encodeCommand opc n) : Encoding.Statement i := by
  refine ⟨fun o h => ?_, fun h => by simp [ho] at h⟩
  obtain rfl : opc = o := by simpa [ho] using h
  exact ⟨n, he⟩

theorem Encoding.busOperation {i : Instr} (ho : opcodeOf i = none)
    (he : i.wf = true → ∀ d, encode i ≠ .write addrCmd d) : Encoding.Statement i :=
  ⟨fun o h => by simp [ho] at h, fun _ => he⟩

theorem Encoding.wingen (n : Len) : Encoding.Statement (.wingen n) := command rfl rfl
theorem Encoding.pcm2f (n : Len) : Encoding.Statement (.pcm2f n) := command rfl rfl
theorem Encoding.wmul (n : Len) : Encoding.Statement (.wmul n) := command rfl rfl
theorem Encoding.xform (n : Len) : Encoding.Statement (.xform n) := command rfl rfl
theorem Encoding.magn (n : Len) : Encoding.Statement (.magn n) := command rfl rfl
theorem Encoding.zoom : Encoding.Statement .zoom := command rfl rfl
theorem Encoding.select : Encoding.Statement .select := command rfl rfl
theorem Encoding.build : Encoding.Statement .build := command rfl rfl
theorem Encoding.hpush : Encoding.Statement .hpush := command rfl rfl
theorem Encoding.hsnap : Encoding.Statement .hsnap := command rfl rfl
theorem Encoding.wwrite (n : Len) : Encoding.Statement (.wwrite n) := command rfl rfl
theorem Encoding.wsnap : Encoding.Statement .wsnap := command rfl rfl
theorem Encoding.tick : Encoding.Statement .tick := command rfl rfl
theorem Encoding.f2bin : Encoding.Statement .f2bin := command rfl rfl
theorem Encoding.bin2f : Encoding.Statement .bin2f := command rfl rfl
theorem Encoding.start : Encoding.Statement .start := command rfl rfl
theorem Encoding.stop : Encoding.Statement .stop := command rfl rfl
theorem Encoding.cycle : Encoding.Statement .cycle := command rfl rfl
theorem Encoding.wrFftSize (v : Word) : Encoding.Statement (.wrFftSize v) :=
  busOperation rfl (by simp [encode, addrFftSize, addrCmd])
theorem Encoding.wrMaxHistory (v : Word) : Encoding.Statement (.wrMaxHistory v) :=
  busOperation rfl (by simp [encode, addrMaxHistory, addrCmd])
theorem Encoding.wrSpecLen (v : Word) : Encoding.Statement (.wrSpecLen v) :=
  busOperation rfl (by simp [encode, addrSpecLen, addrCmd])
theorem Encoding.wr (addr data : Word) : Encoding.Statement (.wr addr data) :=
  busOperation rfl (fun h d => by simp only [Instr.wf, Bool.and_eq_true, bne_iff_ne] at h; simp [encode, h.1.1.1])
theorem Encoding.rd (addr : Word) : Encoding.Statement (.rd addr) :=
  busOperation rfl (by simp [encode])

end Sys2Proof.Laws
end

