-- ==== Sys2Proof/Laws/Rounding.lean ====
section
/-! SUPPORT. Rounding is correct (40_numerics.md R132, R133, R134): what `roundMag` answers is the magnitude pattern
nearest to the exact quotient, ties to the even fraction, infinity from half way above the largest value on. -/

namespace Sys2Proof.Machine

/-- The units of 2^-149 of a finite magnitude pattern (40_numerics.md R130). -/
def magUnits (m : Nat) : Nat := if m < 2 ^ 23 then m else (2 ^ 23 + m % 2 ^ 23) * 2 ^ (m / 2 ^ 23 - 1)

theorem units_eq_magUnits (w : Word) : units w = magUnits (fMag w) := by
  unfold units magUnits
  rw [fExp_eq_fMag, fFrac_eq_fMag]
  by_cases h : fMag w < 2 ^ 23
  · rw [if_pos (by omega), if_pos h]; omega
  · rw [if_neg (by omega), if_neg h]

/-- A 24-bit significand `k` over `s` dropped bits has the pattern `s * 2^23 + k`, the carry into the next binade and
the subnormals included. -/
theorem magUnits_scaled {s k : Nat} (hk : k ≤ 2 ^ 24) (hs : s = 0 ∨ 2 ^ 23 ≤ k) :
    magUnits (s * 2 ^ 23 + k) = k * 2 ^ s := by
  unfold magUnits
  rcases Nat.lt_or_ge k (2 ^ 23) with h | h
  · obtain rfl : s = 0 := by omega
    rw [if_pos (by omega)]; simp
  · rw [if_neg (by omega)]
    rcases Nat.lt_or_ge k (2 ^ 24) with h' | h'
    · rw [show (s * 2 ^ 23 + k) % 2 ^ 23 = k - 2 ^ 23 by omega, show (s * 2 ^ 23 + k) / 2 ^ 23 - 1 = s by omega,
        show 2 ^ 23 + (k - 2 ^ 23) = k by omega]
    · obtain rfl : k = 2 ^ 24 := by omega
      rw [show (s * 2 ^ 23 + 2 ^ 24) % 2 ^ 23 = 0 by omega, show (s * 2 ^ 23 + 2 ^ 24) / 2 ^ 23 - 1 = s + 1 by omega]
      ring

/-- Magnitude patterns are in the order of their values. -/
theorem magUnits_lt_succ (m : Nat) : magUnits m < magUnits (m + 1) := by
  rcases Nat.lt_or_ge m (2 ^ 23) with h | h
  · have h1 := magUnits_scaled (s := 0) (k := m) (by omega) (.inl rfl)
    have h2 := magUnits_scaled (s := 0) (k := m + 1) (by omega) (.inl rfl)
    simp only [Nat.zero_mul, Nat.zero_add, pow_zero, Nat.mul_one] at h1 h2
    omega
  · have h1 := magUnits_scaled (s := m / 2 ^ 23 - 1) (k := m % 2 ^ 23 + 2 ^ 23) (by omega) (.inr (by omega))
    have h2 := magUnits_scaled (s := m / 2 ^ 23 - 1) (k := m % 2 ^ 23 + 2 ^ 23 + 1) (by omega) (.inr (by omega))
    rw [show (m / 2 ^ 23 - 1) * 2 ^ 23 + (m % 2 ^ 23 + 2 ^ 23) = m by omega] at h1
    rw [show (m / 2 ^ 23 - 1) * 2 ^ 23 + (m % 2 ^ 23 + 2 ^ 23 + 1) = m + 1 by omega] at h2
    rw [h1, h2]
    exact Nat.mul_lt_mul_of_pos_right (Nat.lt_succ_self _) (Nat.two_pow_pos _)

theorem magUnits_strictMono : StrictMono magUnits := strictMono_nat_of_lt_succ magUnits_lt_succ

/-- What `roundMag` does before it caps at infinity: between the two neighbouring patterns of `n / d`, the nearer
one, and on a tie the even one. -/
theorem roundMag_cases (n d : Nat) (hd : 0 < d) :
    ∃ p r : Nat, roundMag n d = min r infMag ∧ magUnits p * d ≤ n ∧ n < magUnits (p + 1) * d ∧
      ((r = p ∧ 2 * n ≤ (magUnits p + magUnits (p + 1)) * d ∧
          (2 * n = (magUnits p + magUnits (p + 1)) * d → p % 2 = 0)) ∨
        (r = p + 1 ∧ (magUnits p + magUnits (p + 1)) * d ≤ 2 * n ∧
          (2 * n = (magUnits p + magUnits (p + 1)) * d → (p + 1) % 2 = 0))) := by
  obtain ⟨s, hs⟩ : ∃ s, s = (n / d).log2 - 23 := ⟨_, rfl⟩
  have hu : 0 < d * 2 ^ s := Nat.mul_pos hd (Nat.two_pow_pos _)
  have hq : n / (d * 2 ^ s) = n / d / 2 ^ s := (Nat.div_div_eq_div_mul n d (2 ^ s)).symm
  have hk : n / (d * 2 ^ s) < 2 ^ 24 ∧ (s = 0 ∨ 2 ^ 23 ≤ n / (d * 2 ^ s)) := by
    rw [hq]
    rcases Nat.eq_zero_or_pos (n / d) with h0 | h0
    · rw [h0]; refine ⟨by simp, .inl ?_⟩; rw [hs, h0]; rfl
    · have h1 : n / d < 2 ^ ((n / d).log2 + 1) := Nat.lt_log2_self
      have h2 : 2 ^ (n / d).log2 ≤ n / d := Nat.log2_self_le (by omega)
      refine ⟨?_, ?_⟩
      · rw [Nat.div_lt_iff_lt_mul (Nat.two_pow_pos _), ← pow_add]
        exact lt_of_lt_of_le h1 (Nat.pow_le_pow_right (by decide) (by omega))
      · rcases Nat.eq_zero_or_pos s with h3 | h3
        · exact .inl h3
        · right
          rw [Nat.le_div_iff_mul_le (Nat.two_pow_pos _), ← pow_add, show 23 + s = (n / d).log2 by omega]
          exact h2
  obtain ⟨k, hkd⟩ : ∃ k, k = n / (d * 2 ^ s) := ⟨_, rfl⟩
  obtain ⟨r, hr⟩ : ∃ r, r = n % (d * 2 ^ s) := ⟨_, rfl⟩
  have hdm : n = d * 2 ^ s * k + r := by rw [hkd, hr]; exact (Nat.div_add_mod n (d * 2 ^ s)).symm
  have hrl : r < d * 2 ^ s := by rw [hr]; exact Nat.mod_lt _ hu
  rw [← hkd] at hk
  have hp := magUnits_scaled (s := s) (k := k) (by omega) hk.2
  have hp1 := magUnits_scaled (s := s) (k := k + 1) (by omega) (by omega)
  rw [← Nat.add_assoc] at hp1
  have e0 : magUnits (s * 2 ^ 23 + k) * d = d * 2 ^ s * k := by rw [hp]; ring
  have e1 : magUnits (s * 2 ^ 23 + k + 1) * d = d * 2 ^ s * k + d * 2 ^ s := by rw [hp1]; ring
  have hm : roundMag n d = min (s * 2 ^ 23 + if d * 2 ^ s < 2 * r ∨ (2 * r = d * 2 ^ s ∧ k % 2 = 1) then k + 1 else k)
      infMag := by
    unfold roundMag
    simp only
    rw [← hs, ← hkd, ← hr]
  refine ⟨s * 2 ^ 23 + k, _, hm, by omega, by omega, ?_⟩
  rw [Nat.add_mul, e0, e1]
  split
  · right; refine ⟨by omega, by omega, fun h => by omega⟩
  · left; refine ⟨rfl, by omega, fun h => by omega⟩

/-- The magnitude pattern of infinity, and the one below it, continued as values (40_numerics.md R133). -/
theorem magUnits_infMag : magUnits infMag = 2 ^ 23 * 2 ^ 254 ∧ magUnits (infMag - 1) = (2 ^ 24 - 1) * 2 ^ 253 := by
  constructor
  · have h := magUnits_scaled (s := 254) (k := 2 ^ 23) (by decide) (.inr (by decide))
    rw [show 254 * 2 ^ 23 + 2 ^ 23 = infMag by decide] at h
    exact h
  · have h := magUnits_scaled (s := 253) (k := 2 ^ 24 - 1) (by decide) (.inr (by decide))
    rw [show 253 * 2 ^ 23 + (2 ^ 24 - 1) = infMag - 1 by decide] at h
    exact h

/-- Half way between the largest finite value and 2^128, in units. -/
def overflowUnits : Nat := (2 ^ 25 - 1) * 2 ^ 252

theorem two_mul_overflowUnits : 2 * overflowUnits = magUnits (infMag - 1) + magUnits infMag := by
  rw [magUnits_infMag.1, magUnits_infMag.2]; decide

/-- Rounding overflows exactly from half way on. -/
theorem roundMag_overflow (n d : Nat) (hd : 0 < d) :
    (n < overflowUnits * d → roundMag n d < infMag) ∧ (overflowUnits * d ≤ n → roundMag n d = infMag) := by
  obtain ⟨p, r, hm, h1, h2, h⟩ := roundMag_cases n d hd
  have hmono : ∀ {a b : Nat}, a ≤ b → magUnits a * d ≤ magUnits b * d :=
    fun hab => Nat.mul_le_mul_right d (magUnits_strictMono.monotone hab)
  have hsum : 2 * (overflowUnits * d) = magUnits (infMag - 1) * d + magUnits infMag * d := by
    rw [← Nat.mul_assoc, two_mul_overflowUnits, Nat.add_mul]
  have hlt : magUnits (infMag - 1) * d < magUnits infMag * d :=
    Nat.mul_lt_mul_of_pos_right (by rw [magUnits_infMag.1, magUnits_infMag.2]; decide) hd
  rw [Nat.add_mul] at h
  have hi : 1 ≤ infMag := by decide
  have hodd : (infMag - 1) % 2 = 1 := by decide
  constructor
  · intro hn
    by_contra hc
    have hr : infMag ≤ r := by omega
    rcases h with ⟨rfl, -, -⟩ | ⟨rfl, h3, -⟩
    · have := hmono hr; omega
    · rcases Nat.lt_or_ge p infMag with hp | hp
      · obtain rfl : p = infMag - 1 := by omega
        rw [Nat.sub_add_cancel hi] at h3; omega
      · have := hmono hp; omega
  · intro hn
    have hr : infMag ≤ r := by
      by_contra hc
      rcases h with ⟨rfl, h3, h4⟩ | ⟨rfl, -, -⟩
      · have ha := hmono (a := r) (b := infMag - 1) (by omega)
        have hb := hmono (a := r + 1) (b := infMag) (by omega)
        have he : magUnits r = magUnits (infMag - 1) := by
          have : magUnits r * d = magUnits (infMag - 1) * d := by omega
          exact Nat.eq_of_mul_eq_mul_right hd this
        obtain rfl := magUnits_strictMono.injective he
        rw [Nat.sub_add_cancel hi] at h2 h3 h4
        have := h4 (by omega)
        omega
      · have := hmono (a := p + 1) (b := infMag - 1) (by omega)
        omega
    omega

/-- The answer is the nearest magnitude, and the even one of two equally near. -/
theorem roundMag_nearest (n d : Nat) (hd : 0 < d) (hf : roundMag n d < infMag) (m : Nat) :
    |(magUnits (roundMag n d) * d : ℤ) - n| ≤ |(magUnits m * d : ℤ) - n| ∧
      (|(magUnits m * d : ℤ) - n| = |(magUnits (roundMag n d) * d : ℤ) - n| → magUnits m ≠ magUnits (roundMag n d) →
        roundMag n d % 2 = 0) := by
  obtain ⟨p, r, hm, h1, h2, h⟩ := roundMag_cases n d hd
  obtain rfl : roundMag n d = r := by omega
  rw [Nat.add_mul] at h
  have hmono : ∀ {a b : Nat}, a ≤ b → magUnits a * d ≤ magUnits b * d :=
    fun hab => Nat.mul_le_mul_right d (magUnits_strictMono.monotone hab)
  have hne : magUnits m ≠ magUnits (roundMag n d) → magUnits m * d ≠ magUnits (roundMag n d) * d :=
    fun hne he => hne (Nat.eq_of_mul_eq_mul_right hd he)
  have hside : magUnits m * d ≤ magUnits p * d ∨ magUnits (p + 1) * d ≤ magUnits m * d := by
    rcases Nat.lt_or_ge p m with hp | hp
    · exact .inr (hmono hp)
    · exact .inl (hmono hp)
  have hpos : ∀ a b : ℤ, |a - b| = if a ≤ b then b - a else a - b := by
    intro a b
    split
    · rw [abs_of_nonpos (by omega)]; omega
    · rw [abs_of_pos (by omega)]
  rcases h with ⟨hr, h3, h4⟩ | ⟨hr, h3, h4⟩
  · rw [hr] at hne ⊢
    simp only [← Nat.cast_mul, hpos]
    refine ⟨by split <;> split <;> omega, fun he hn => h4 ?_⟩
    have := hne hn
    split at he <;> split at he <;> omega
  · rw [hr] at hne ⊢
    simp only [← Nat.cast_mul, hpos]
    refine ⟨by split <;> split <;> omega, fun he hn => h4 ?_⟩
    have := hne hn
    split at he <;> split at he <;> omega

/-- The sign of a pattern as a factor. -/
def signFactor (neg : Bool) : ℝ := if neg then -1 else 1

theorem value_eq (w : Word) : (value w : ℝ) = signFactor (fSign w) * magUnits (fMag w) / 2 ^ 149 := by
  unfold value signedUnits signFactor
  rw [units_eq_magUnits]
  split <;> push_cast <;> ring

/-- The same as `roundMag_nearest`, on reals. -/
theorem roundMag_nearest_real (n d : Nat) (hd : 0 < d) (hf : roundMag n d < infMag) (m : Nat) :
    |(magUnits (roundMag n d) : ℝ) - n / d| ≤ |(magUnits m : ℝ) - n / d| ∧
      (|(magUnits m : ℝ) - n / d| = |(magUnits (roundMag n d) : ℝ) - n / d| →
        magUnits m ≠ magUnits (roundMag n d) → roundMag n d % 2 = 0) := by
  have hd' : (0 : ℝ) < d := by exact_mod_cast hd
  have key : ∀ a : Nat, |(a : ℝ) - n / d| = ((|(a * d : ℤ) - n| : ℤ) : ℝ) / d := by
    intro a
    rw [Int.cast_abs, ← abs_of_pos hd', ← abs_div, abs_of_pos hd']
    congr 1
    push_cast
    field_simp
  obtain ⟨h1, h2⟩ := roundMag_nearest n d hd hf m
  rw [key, key]
  refine ⟨div_le_div_of_nonneg_right (by exact_mod_cast h1) hd'.le, fun h => h2 ?_⟩
  have := (div_left_inj' hd'.ne').1 h
  exact_mod_cast this

/-- A pattern built from `roundMag n d` and a sign is `n / d` units with that sign, correctly rounded. -/
theorem roundMag_roundsTo (neg : Bool) (n d : Nat) (hd : 0 < d) :
    RoundsTo (ofMag neg (roundMag n d)) (signFactor neg * ((n : ℝ) / d) / 2 ^ 149) := by
  have hd' : (0 : ℝ) < d := by exact_mod_cast hd
  have hx : (0 : ℝ) ≤ (n : ℝ) / d := by positivity
  obtain ⟨x, hxe⟩ : ∃ x : ℝ, x = (n : ℝ) / d := ⟨_, rfl⟩
  have hob : overflowBound * 2 ^ 149 = (overflowUnits : ℝ) := by
    unfold overflowBound overflowUnits; push_cast; ring
  have hover := roundMag_overflow n d hd
  have hlow : x < (overflowUnits : ℝ) → roundMag n d < infMag := by
    intro h
    apply hover.1
    rw [hxe, div_lt_iff₀ hd'] at h
    exact_mod_cast h
  have hhigh : (overflowUnits : ℝ) ≤ x → roundMag n d = infMag := by
    intro h
    apply hover.2
    rw [hxe, le_div_iff₀ hd'] at h
    exact_mod_cast h
  have hpos : 0 < overflowBound := by unfold overflowBound; norm_num
  have hsf : signFactor neg = 1 ∧ neg = false ∨ signFactor neg = -1 ∧ neg = true := by
    cases neg <;> simp [signFactor]
  rw [← hxe] at hx ⊢
  have hp : (0 : ℝ) < 2 ^ 149 := by positivity
  refine ⟨fun h => ?_, fun h => ?_, fun h => ?_⟩
  · have hq : |signFactor neg * x / 2 ^ 149| = x / 2 ^ 149 := by
      rcases hsf with ⟨h, -⟩ | ⟨h, -⟩ <;> rw [h, abs_div, abs_of_pos hp] <;> simp [abs_of_nonneg hx]
    rw [hq, div_lt_iff₀ hp, hob] at h
    have hf := hlow h
    have hmag := fMag_ofMag neg (roundMag_lt n d)
    have hv : (value (ofMag neg (roundMag n d)) : ℝ) = signFactor neg * magUnits (roundMag n d) / 2 ^ 149 := by
      rw [value_eq, hmag, fSign_ofMag neg (roundMag_lt n d)]
    have hdist : |(value (ofMag neg (roundMag n d)) : ℝ) - signFactor neg * x / 2 ^ 149| =
        |(magUnits (roundMag n d) : ℝ) - x| / 2 ^ 149 := by
      rw [hv, ← sub_div, ← mul_sub, abs_div, abs_of_pos hp]
      rcases hsf with ⟨h, -⟩ | ⟨h, -⟩ <;> rw [h, abs_mul] <;> simp
    have hdc : ∀ c, ∃ m : Nat, |(magUnits m : ℝ) - x| / 2 ^ 149 ≤ |(value c : ℝ) - signFactor neg * x / 2 ^ 149| ∧
        (|(value c : ℝ) - signFactor neg * x / 2 ^ 149| ≤ |(magUnits m : ℝ) - x| / 2 ^ 149 →
          (value c : ℝ) = signFactor neg * magUnits m / 2 ^ 149) := by
      intro c
      have hm : (0 : ℝ) ≤ magUnits (fMag c) := Nat.cast_nonneg _
      by_cases hs : fSign c = neg
      · refine ⟨fMag c, ?_, fun _ => by rw [value_eq, hs]⟩
        rw [value_eq, hs, ← sub_div, ← mul_sub, abs_div, abs_of_pos hp]
        rcases hsf with ⟨h, -⟩ | ⟨h, -⟩ <;> rw [h, abs_mul] <;> simp
      · have hsc : signFactor (fSign c) = -signFactor neg := by
          cases neg <;> cases hc : fSign c <;> simp_all [signFactor]
        have hz : magUnits 0 = 0 := rfl
        have he : |(value c : ℝ) - signFactor neg * x / 2 ^ 149| = (magUnits (fMag c) + x) / 2 ^ 149 := by
          rw [value_eq, hsc, ← sub_div, abs_div, abs_of_pos hp,
            show -signFactor neg * (magUnits (fMag c) : ℝ) - signFactor neg * x =
              -signFactor neg * (magUnits (fMag c) + x) by ring, abs_mul, abs_neg,
            abs_of_nonneg (add_nonneg hm hx)]
          rcases hsf with ⟨h, -⟩ | ⟨h, -⟩ <;> rw [h] <;> simp
        have h0 : |(magUnits 0 : ℝ) - x| = x := by rw [hz]; simp [abs_of_nonneg hx]
        refine ⟨0, ?_, fun h => ?_⟩
        · rw [he, h0]; exact div_le_div_of_nonneg_right (by linarith) hp.le
        · rw [he, h0, div_le_div_iff_of_pos_right hp] at h
          have : (magUnits (fMag c) : ℝ) = 0 := by linarith
          rw [value_eq, this, hz]; simp
    have hn := roundMag_nearest_real n d hd hf
    rw [← hxe] at hn
    refine ⟨(isFinite_iff _).2 (by rw [hmag]; exact hf), fun c _ => ?_, fun c _ hc hne => ?_⟩
    · obtain ⟨m, h1, -⟩ := hdc c
      rw [hdist]
      exact le_trans (div_le_div_of_nonneg_right (hn m).1 hp.le) h1
    · obtain ⟨m, h1, h2⟩ := hdc c
      rw [hdist] at hc
      have hle := (div_le_div_iff_of_pos_right hp).2 (hn m).1
      have hval := h2 (by rw [hc]; exact hle)
      have heq : |(magUnits m : ℝ) - x| = |(magUnits (roundMag n d) : ℝ) - x| :=
        (div_left_inj' hp.ne').1 (le_antisymm (hc ▸ h1) hle)
      have heven := (hn m).2 heq fun he => hne (by
        have : (value c : ℝ) = value (ofMag neg (roundMag n d)) := by rw [hval, hv, he]
        exact_mod_cast this)
      rw [fFrac_eq_fMag, hmag]; omega
  · rcases hsf with ⟨hs, rfl⟩ | ⟨hs, rfl⟩
    · rw [hs, one_mul, le_div_iff₀ hp, hob] at h
      rw [hhigh h]; rfl
    · rw [hs] at h
      have : (-1 : ℝ) * x / 2 ^ 149 ≤ 0 := div_nonpos_of_nonpos_of_nonneg (by linarith) hp.le
      linarith
  · rcases hsf with ⟨hs, rfl⟩ | ⟨hs, rfl⟩
    · rw [hs] at h
      have : 0 ≤ (1 : ℝ) * x / 2 ^ 149 := div_nonneg (by linarith) hp.le
      linarith
    · rw [hs, neg_one_mul, neg_div, neg_le_neg_iff, le_div_iff₀ hp, hob] at h
      rw [hhigh h]; rfl

end Sys2Proof.Machine
end

