-- ==== Sys2Proof/Laws/Trig.lean ====
section
/-! SUPPORT. The machine's cosine and sine obey 40_numerics.md R145: what the implementation answers does by its type,
and the default, the rounded sum of the first terms of the series, is near enough. -/

namespace Sys2Proof.Machine

/-! The series. -/

theorem sum_range_cast (f : Nat → Rat) (n : Nat) :
    ((((List.range n).map f).sum : ℚ) : ℝ) = ∑ k ∈ Finset.range n, (f k : ℝ) := by
  induction n with
  | zero => simp
  | succ n ih => rw [List.range_succ, Finset.sum_range_succ, ← ih]; simp

theorem cosSeries_cast (q : Rat) : (cosSeries q : ℝ) =
    ∑ k ∈ Finset.range 20, (-1) ^ k * (q : ℝ) ^ (2 * k) / (2 * k).factorial := by
  rw [cosSeries, sum_range_cast]; push_cast; rfl

theorem sinSeries_cast (q : Rat) : (sinSeries q : ℝ) =
    ∑ k ∈ Finset.range 20, (-1) ^ k * (q : ℝ) ^ (2 * k + 1) / (2 * k + 1).factorial := by
  rw [sinSeries, sum_range_cast]; push_cast; rfl

/-- The partial sums of the exponential series at `x * I` are those of the cosine and the sine. -/
theorem expSeries_eq (x : ℝ) (n : Nat) :
    ∑ m ∈ Finset.range (2 * n), ((x : ℂ) * Complex.I) ^ m / m.factorial =
      ((∑ k ∈ Finset.range n, (-1) ^ k * x ^ (2 * k) / (2 * k).factorial : ℝ) : ℂ) +
        ((∑ k ∈ Finset.range n, (-1) ^ k * x ^ (2 * k + 1) / (2 * k + 1).factorial : ℝ) : ℂ) * Complex.I := by
  induction n with
  | zero => simp
  | succ n ih =>
    have hI : Complex.I ^ (2 * n) = (-1) ^ n := by rw [pow_mul, Complex.I_sq]
    rw [show 2 * (n + 1) = 2 * n + 1 + 1 by ring, Finset.sum_range_succ, Finset.sum_range_succ, ih,
      Finset.sum_range_succ, Finset.sum_range_succ, mul_pow, mul_pow, pow_succ Complex.I, hI]
    push_cast
    ring

theorem re_mk (a b : ℝ) : ((a : ℂ) + (b : ℂ) * Complex.I).re = a := by simp

theorem im_mk (a b : ℝ) : ((a : ℂ) + (b : ℂ) * Complex.I).im = b := by simp

/-- The series is within 2^-40 of the functions on the interval of R145. -/
theorem series_near {q : Rat} (h : |q| ≤ value trigBound) :
    |(cosSeries q : ℝ) - Real.cos q| ≤ 2⁻¹ ^ 40 ∧ |(sinSeries q : ℝ) - Real.sin q| ≤ 2⁻¹ ^ 40 := by
  have hb : value trigBound ≤ 32 / 5 := by decide +kernel
  have hq : |(q : ℝ)| ≤ 32 / 5 := by
    have h1 : |q| ≤ 32 / 5 := h.trans hb
    have h2 : ((|q| : ℚ) : ℝ) ≤ ((32 / 5 : ℚ) : ℝ) := by exact_mod_cast h1
    push_cast at h2
    exact h2
  have hn : ‖(q : ℂ) * Complex.I‖ = |(q : ℝ)| := by
    rw [norm_mul, Complex.norm_I, mul_one, ← Complex.ofReal_ratCast, Complex.norm_real, Real.norm_eq_abs]
  have he := Complex.exp_bound' (x := (q : ℂ) * Complex.I) (n := 2 * 20) (by
    rw [hn, div_le_iff₀ (by positivity)]; push_cast; linarith)
  have hd : Complex.exp ((q : ℂ) * Complex.I) -
        ∑ m ∈ Finset.range (2 * 20), ((q : ℂ) * Complex.I) ^ m / m.factorial =
      ((Real.cos q - cosSeries q : ℝ) : ℂ) + ((Real.sin q - sinSeries q : ℝ) : ℂ) * Complex.I := by
    have := expSeries_eq (q : ℝ) 20
    rw [← cosSeries_cast, ← sinSeries_cast] at this
    rw [← Complex.ofReal_ratCast, this, Complex.exp_mul_I]
    push_cast
    ring
  rw [hd, hn] at he
  have hs : |(q : ℝ)| ^ (2 * 20) / (2 * 20).factorial * 2 ≤ 2⁻¹ ^ 40 := by
    have h1 : |(q : ℝ)| ^ (2 * 20) ≤ (32 / 5) ^ (2 * 20) := pow_le_pow_left₀ (abs_nonneg _) hq _
    have h2 : ((32 / 5 : ℝ)) ^ (2 * 20) / (2 * 20).factorial * 2 ≤ 2⁻¹ ^ 40 := by
      norm_num [Nat.factorial]
    have h3 : |(q : ℝ)| ^ (2 * 20) / (2 * 20).factorial * 2 ≤ (32 / 5) ^ (2 * 20) / (2 * 20).factorial * 2 := by
      gcongr
    exact h3.trans h2
  refine ⟨?_, ?_⟩
  · rw [abs_sub_comm]
    refine (le_trans ?_ he).trans hs
    conv_lhs => rw [← re_mk (Real.cos q - cosSeries q) (Real.sin q - sinSeries q)]
    exact Complex.abs_re_le_norm _
  · rw [abs_sub_comm]
    refine (le_trans ?_ he).trans hs
    conv_lhs => rw [← im_mk (Real.cos q - cosSeries q) (Real.sin q - sinSeries q)]
    exact Complex.abs_im_le_norm _

/-! Rounding near the unit interval. -/

/-- A magnitude up to that of 1.0 is at most 2^126 units below the next. -/
theorem magUnits_gap {p : Nat} (h : p ≤ 0x3F800000) : magUnits (p + 1) ≤ magUnits p + 2 ^ 126 := by
  rcases Nat.lt_or_ge p (2 ^ 23) with h1 | h1
  · have e0 := magUnits_scaled (s := 0) (k := p) (by omega) (.inl rfl)
    have e1 := magUnits_scaled (s := 0) (k := p + 1) (by omega) (.inl rfl)
    simp only [Nat.zero_mul, Nat.zero_add, pow_zero, Nat.mul_one] at e0 e1
    rw [e0, e1]
    exact Nat.add_le_add_left (by norm_num) p
  · obtain ⟨s, hs⟩ : ∃ s, s = p / 2 ^ 23 - 1 := ⟨_, rfl⟩
    have e0 := magUnits_scaled (s := s) (k := p % 2 ^ 23 + 2 ^ 23) (by omega) (.inr (by omega))
    have e1 := magUnits_scaled (s := s) (k := p % 2 ^ 23 + 2 ^ 23 + 1) (by omega) (.inr (by omega))
    rw [show s * 2 ^ 23 + (p % 2 ^ 23 + 2 ^ 23) = p by omega] at e0
    rw [show s * 2 ^ 23 + (p % 2 ^ 23 + 2 ^ 23 + 1) = p + 1 by omega] at e1
    rw [e0, e1, Nat.add_mul, Nat.one_mul]
    exact Nat.add_le_add_left (Nat.pow_le_pow_right (by decide) (by omega)) _

/-- A rational that exceeds 1 by less than 2^-24 in magnitude is rounded to a word at most 2^-24 away. -/
theorem ofRat_near {q : Rat} (h : |q| < 1 + 2⁻¹ ^ 24) :
    isFinite (ofRat q) = true ∧ |(value (ofRat q) : ℝ) - q| ≤ 2⁻¹ ^ 24 := by
  obtain ⟨n, hn⟩ : ∃ n, n = q.num.natAbs * 2 ^ 149 := ⟨_, rfl⟩
  obtain ⟨d, hd⟩ : ∃ d, d = q.den := ⟨_, rfl⟩
  have hd0 : 0 < d := hd ▸ q.pos
  have hdr : (0 : ℝ) < d := by exact_mod_cast hd0
  have hqabs : |(q : ℝ)| * 2 ^ 149 = n / d := by
    rw [hn, hd]
    conv_lhs => rw [← Rat.num_div_den q]
    push_cast
    rw [abs_div, Nat.abs_cast, Nat.cast_natAbs, Int.cast_abs]
    ring
  have hlt : (n : ℝ) / d < 2 ^ 149 + 2 ^ 125 := by
    rw [← hqabs]
    have : |(q : ℝ)| < 1 + 2⁻¹ ^ 24 := by
      have h2 : ((|q| : ℚ) : ℝ) < ((1 + 2⁻¹ ^ 24 : ℚ) : ℝ) := by exact_mod_cast h
      push_cast at h2
      exact h2
    calc |(q : ℝ)| * 2 ^ 149 < (1 + 2⁻¹ ^ 24) * 2 ^ 149 := by gcongr
      _ = 2 ^ 149 + 2 ^ 125 := by norm_num
  have hltn : n < (2 ^ 149 + 2 ^ 125) * d := by
    rw [div_lt_iff₀ hdr] at hlt
    exact_mod_cast hlt
  obtain ⟨p, r, hm, h1, h2, h3⟩ := roundMag_cases n d hd0
  have hone : magUnits 0x3F800001 = 2 ^ 149 + 2 ^ 126 := by decide +kernel
  have hp : p ≤ 0x3F800000 := by
    by_contra hc
    have : magUnits 0x3F800001 ≤ magUnits p := magUnits_strictMono.monotone (by omega)
    rw [hone] at this
    have h4 : (2 ^ 149 + 2 ^ 125) * d ≤ magUnits p * d := Nat.mul_le_mul_right d (le_trans (by norm_num) this)
    omega
  have hr : roundMag n d = r := by
    rw [hm, Nat.min_eq_left]
    have : (0x3F800001 : Nat) ≤ infMag := by decide
    omega
  have hg := magUnits_gap hp
  have hdist : |(magUnits r : ℝ) - n / d| ≤ 2 ^ 125 := by
    have hgd : magUnits (p + 1) * d ≤ magUnits p * d + 2 ^ 126 * d := by
      rw [← Nat.add_mul]; exact Nat.mul_le_mul_right d hg
    rw [Nat.add_mul] at h3
    have e : (magUnits r : ℝ) - n / d = (magUnits r * d - n) / d := by field_simp
    rw [e, abs_div, abs_of_pos hdr, div_le_iff₀ hdr, abs_le]
    have k1 : (magUnits p * d : ℝ) ≤ n := by exact_mod_cast h1
    have k2 : (n : ℝ) < magUnits (p + 1) * d := by exact_mod_cast h2
    have k3 : (magUnits (p + 1) * d : ℝ) ≤ magUnits p * d + 2 ^ 126 * d := by exact_mod_cast hgd
    rcases h3 with ⟨rfl, h4, -⟩ | ⟨rfl, h4, -⟩
    · have k4 : (2 * n : ℝ) ≤ magUnits r * d + magUnits (r + 1) * d := by exact_mod_cast h4
      constructor <;> linarith
    · have k4 : (magUnits p * d + magUnits (p + 1) * d : ℝ) ≤ 2 * n := by exact_mod_cast h4
      constructor <;> linarith
  have hrm : roundMag n d < 2 ^ 31 := roundMag_lt n d
  have hrlt : r < infMag := by
    have : (0x3F800002 : Nat) ≤ infMag := by decide
    omega
  have hw : ofRat q = ofMag (decide (q < 0)) (roundMag n d) := by rw [ofRat, hn, hd]
  have hsign : (q : ℝ) * 2 ^ 149 = signFactor (decide (q < 0)) * ((n : ℝ) / d) := by
    rw [← hqabs]
    by_cases hneg : q < 0
    · have : (q : ℝ) < 0 := by exact_mod_cast hneg
      simp [signFactor, hneg, abs_of_neg this]
    · have : (0 : ℝ) ≤ q := by exact_mod_cast not_lt.1 hneg
      simp [signFactor, hneg, abs_of_nonneg this]
  have hp149 : (0 : ℝ) < 2 ^ 149 := by positivity
  refine ⟨?_, ?_⟩
  · rw [isFinite_iff, hw, fMag_ofMag _ hrm, hr]; exact hrlt
  · have e : (value (ofRat q) : ℝ) - q = signFactor (decide (q < 0)) * ((magUnits r : ℝ) - n / d) / 2 ^ 149 := by
      rw [hw, value_eq, fMag_ofMag _ hrm, fSign_ofMag _ hrm, hr, eq_div_iff hp149.ne', sub_mul, hsign,
        div_mul_cancel₀ _ hp149.ne']
      ring
    have ha : |signFactor (decide (q < 0))| = 1 := by unfold signFactor; split <;> simp
    rw [e, abs_div, abs_mul, ha, one_mul, abs_of_pos hp149, div_le_iff₀ hp149]
    exact hdist.trans (by norm_num)

/-- A rational within 2^-40 of a real of magnitude at most 1 is rounded to a word R145 allows. -/
theorem ofRat_near_real {q : Rat} {y : ℝ} (hy : |y| ≤ 1) (h : |(q : ℝ) - y| ≤ 2⁻¹ ^ 40) :
    isFinite (ofRat q) = true ∧ |(value (ofRat q) : ℝ) - y| ≤ 2⁻¹ ^ 23 := by
  have hq : |q| < 1 + 2⁻¹ ^ 24 := by
    have h1 : |(q : ℝ)| ≤ |y| + |(q : ℝ) - y| := by
      simpa using abs_add_le y ((q : ℝ) - y)
    have h2 : ((|q| : ℚ) : ℝ) < ((1 + 2⁻¹ ^ 24 : ℚ) : ℝ) := by
      push_cast
      calc |(q : ℝ)| ≤ 1 + 2⁻¹ ^ 40 := by linarith
        _ < 1 + 2⁻¹ ^ 24 := by norm_num
    exact_mod_cast h2
  obtain ⟨hf, hn⟩ := ofRat_near hq
  refine ⟨hf, ?_⟩
  calc |(value (ofRat q) : ℝ) - y| ≤ |(value (ofRat q) : ℝ) - q| + |(q : ℝ) - y| := abs_sub_le _ _ _
    _ ≤ 2⁻¹ ^ 24 + 2⁻¹ ^ 40 := add_le_add hn h
    _ ≤ 2⁻¹ ^ 23 := by norm_num

/-! What the machine evaluates. -/

theorem cosDefault_near (x : Word) : CosNear x (cosDefault x) :=
  fun _ hx => ofRat_near_real (Real.abs_cos_le_one _) (series_near hx).1

theorem sinDefault_near (x : Word) : SinNear x (sinDefault x) :=
  fun _ hx => ofRat_near_real (Real.abs_sin_le_one _) (series_near hx).2

/-- Everything the free cosine can answer (40_numerics.md R145). -/
theorem cosFree_near (x : Word) : CosNear x (cosFree x) := by
  unfold cosFree
  split
  · rename_i w _; exact w.2
  · exact cosDefault_near x

/-- Everything the free sine can answer (40_numerics.md R145). -/
theorem sinFree_near (x : Word) : SinNear x (sinFree x) := by
  unfold sinFree
  split
  · rename_i w _; exact w.2
  · exact sinDefault_near x

/-- The free pair is accurate, before the exact points of R144 are put in. -/
theorem free_accurate : ({ cos := cosFree, sin := sinFree } : Trig).Accurate := ⟨cosFree_near, sinFree_near⟩

end Sys2Proof.Machine
end

