-- ==== Sys2Proof/Tests/Slice0.lean ====
section
/-! SUPPORT. Small tests. Every expected value is copied from spec/: the encodings of 30_encoding.md R104 and R110,
the vectors of 95_test_vectors.md (named V-...), the table of 40_numerics.md R149. The witnesses at the end show
states and operands that meet the hypotheses of the obligations. -/

namespace Sys2Proof.Tests

set_option Elab.async false

open Sys2Proof Sys2Proof.Machine

/-- A field of the state after an instruction. -/
def after {α : Type} (i : Instr) (s : State) (f : State → α) : Option α :=
  match exec i s with
  | .next t => some (f t)
  | .fault _ => none
  | .refused _ => none

/-- A field of the state after a step on one transaction. -/
def afterTxn {α : Type} (x : Txn) (s : State) (f : State → α) : Option α :=
  match step { s with bus := [.txn x] } with
  | .next t => some (f t)
  | .fault _ => none
  | .refused _ => none

/-- The word a bus read returns. -/
def readAt (a : Word) (s : State) : Option Word := after (.rd a) s State.readData

abbrev r0 : State := State.reset

/-! Well-formedness: the four addresses with rows of their own are no generic writes (30_encoding.md R104). -/

theorem test_wr_to_cmd_refused : (Instr.wr 0x00000000#32 7#32).wf = false := by decide
theorem test_wr_to_fftSize_refused : (Instr.wr 0x00000005#32 7#32).wf = false := by decide
theorem test_wr_to_maxHistory_refused : (Instr.wr 0x00000008#32 7#32).wf = false := by decide
theorem test_wr_to_specLen_refused : (Instr.wr 0x00000010#32 7#32).wf = false := by decide
theorem test_wr_elsewhere_accepted : (Instr.wr 0x00000004#32 7#32).wf = true := by decide

/-! Decoding: one transaction of each row, written out from 30_encoding.md R104, R108, R110. -/

theorem test_decode_wingen : decode (.write 0#32 0x01000004#32) = .ok (.wingen 4#24) := by decide
theorem test_decode_pcm2f : decode (.write 0#32 0x02000200#32) = .ok (.pcm2f 512#24) := by decide
theorem test_decode_wmul : decode (.write 0#32 0x03000200#32) = .ok (.wmul 512#24) := by decide
theorem test_decode_xform : decode (.write 0#32 0x04000064#32) = .ok (.xform 100#24) := by decide
theorem test_decode_magn : decode (.write 0#32 0x05000008#32) = .ok (.magn 8#24) := by decide
theorem test_decode_zoom : decode (.write 0#32 0x06000000#32) = .ok .zoom := by decide
theorem test_decode_select : decode (.write 0#32 0x07000000#32) = .ok .select := by decide
theorem test_decode_build : decode (.write 0#32 0x08000000#32) = .ok .build := by decide
theorem test_decode_hpush : decode (.write 0#32 0x09000000#32) = .ok .hpush := by decide
theorem test_decode_hsnap : decode (.write 0#32 0x0A000000#32) = .ok .hsnap := by decide
theorem test_decode_wwrite : decode (.write 0#32 0x0B000403#32) = .ok (.wwrite 1027#24) := by decide
theorem test_decode_wsnap : decode (.write 0#32 0x0C000000#32) = .ok .wsnap := by decide
theorem test_decode_tick : decode (.write 0#32 0x0D000000#32) = .ok .tick := by decide
theorem test_decode_f2bin : decode (.write 0#32 0x0E000000#32) = .ok .f2bin := by decide
theorem test_decode_bin2f : decode (.write 0#32 0x0F000000#32) = .ok .bin2f := by decide
theorem test_decode_start : decode (.write 0#32 0x10000000#32) = .ok .start := by decide
theorem test_decode_stop : decode (.write 0#32 0x11000000#32) = .ok .stop := by decide
theorem test_decode_cycle : decode (.write 0#32 0x12000000#32) = .ok .cycle := by decide
theorem test_decode_wrFftSize : decode (.write 0x05#32 100#32) = .ok (.wrFftSize 100#32) := by decide
theorem test_decode_wrMaxHistory : decode (.write 0x08#32 3#32) = .ok (.wrMaxHistory 3#32) := by decide
theorem test_decode_wrSpecLen : decode (.write 0x10#32 1#32) = .ok (.wrSpecLen 1#32) := by decide
theorem test_decode_wr : decode (.write 0x04000000#32 0x3F800000#32) = .ok (.wr 0x04000000#32 0x3F800000#32) := by
  decide
theorem test_decode_rd : decode (.read 0x0000000D#32) = .ok (.rd 0x0D#32) := by decide
theorem test_decode_largest_length : decode (.write 0#32 0x01FFFFFF#32) = .ok (.wingen 0xFFFFFF#24) := by decide
theorem test_decode_opcode_zero : decode (.write 0#32 0x00000000#32) = .illegalOpcode 0#32 := by decide
theorem test_decode_opcode_13 : decode (.write 0#32 0x13000000#32) = .illegalOpcode 0x13000000#32 := by decide
theorem test_decode_opcode_ff : decode (.write 0#32 0xFFFFFFFF#32) = .illegalOpcode 0xFFFFFFFF#32 := by decide
theorem test_decode_nonzero_field : decode (.write 0#32 0x06000001#32) = .nonzeroField 0x06000001#32 := by decide

/-! The host's table words (log 10). -/

theorem test_tableWord_commands :
    decodeTableWord 32 0x01000000 = some (.wingen 0#24) ∧ decodeTableWord 32 0x12000000 = some .cycle := by decide
theorem test_tableWord_checked_writes : decodeTableWord 32 5 = some (.wrFftSize 0#32) ∧
    decodeTableWord 32 8 = some (.wrMaxHistory 0#32) ∧ decodeTableWord 32 0x10 = some (.wrSpecLen 0#32) := by decide
theorem test_tableWord_generic : decodeTableWord 32 0x04 = some (.wr 0x04#32 0#32) ∧
    decodeTableWord 32 0 = some (.rd 0#32) := by decide

/-! Numbers: V-NUM-1 to V-NUM-16. -/

theorem test_num_1 : fadd [] 0x3F800000#32 0x33800000#32 = 0x3F800000#32 := by decide +kernel
theorem test_num_2 : fadd [] 0x3F800001#32 0x33800000#32 = 0x3F800002#32 := by decide +kernel
theorem test_num_3 : fmul [] 0x7F7FFFFF#32 0x40000000#32 = 0x7F800000#32 := by decide +kernel
theorem test_num_4 : fmul [] 0x0A000000#32 0x0A000000#32 = 0x00000000#32 := by decide +kernel
theorem test_num_5 : fdiv [] 0x3F800000#32 0x40400000#32 = 0x3EAAAAAB#32 := by decide +kernel
theorem test_num_6 : isNaN (fdiv [] 0#32 0#32) = true ∧ isNaN (fsub [] 0x7F800000#32 0x7F800000#32) = true ∧
    isNaN (fsqrt [] 0xBF800000#32) = true := ⟨isNaN_nanOf [], isNaN_nanOf [], isNaN_nanOf []⟩
theorem test_num_7 : fdiv [] 0x3F800000#32 0x80000000#32 = 0xFF800000#32 := by decide +kernel
theorem test_num_8 : fadd [] 0x00000000#32 0x80000000#32 = 0x00000000#32 ∧
    fadd [] 0x80000000#32 0x80000000#32 = 0x80000000#32 ∧ fmul [] 0xBE800000#32 0x00000000#32 = 0x80000000#32 ∧
    fsub [] 0x3F800000#32 0x3F800000#32 = 0x00000000#32 := by decide +kernel
theorem test_num_9 : fsqrt [] 0x40000000#32 = 0x3FB504F3#32 ∧ fsqrt [] 0x80000000#32 = 0x80000000#32 := by
  decide +kernel
theorem test_num_10 : u2f 16777217 = 0x4B800000#32 ∧ u2f 16777219 = 0x4B800002#32 := by decide +kernel
/-- 10.67 is 0x412A_B852, 53.33 is 0x4255_51EC. -/
theorem test_num_11 : f2iFloor 0xBF000000#32 = -1 ∧ f2iCeil 0xBF000000#32 = 0 ∧ f2iFloor 0x412AB852#32 = 10 ∧
    f2iCeil 0x425551EC#32 = 54 ∧ f2iCeil 0x40400000#32 = 3 := by decide +kernel
theorem test_num_12 : f2iFloor 0x7FC00000#32 = 0 ∧ f2iCeil 0x7F800000#32 = 2147483647 ∧
    f2iFloor 0xFF800000#32 = -2147483648 ∧ f2iFloor 0x4F000000#32 = 2147483647 := by decide +kernel
theorem test_num_13 : isPow2 0 = false ∧ isPow2 1 = true ∧ isPow2 2 = true ∧ isPow2 3 = false ∧ isPow2 100 = false ∧
    isPow2 512 = true ∧ isPow2 0x800000 = true ∧ isPow2 0xFFFFFF = false := by decide +kernel
theorem test_num_14 : decade 0x44985800#32 = 3 ∧ decade 0x40BC0000#32 = 0 ∧ decade 0x3C23D70A#32 = -3 ∧
    decade 0x42C80000#32 = 2 ∧ decade 0x42C7FFFF#32 = 1 ∧ decade 0x00000001#32 = -45 ∧
    decade 0x7F7FFFFF#32 = 38 := by decide +kernel
theorem test_num_15 : cmul [] { re := 0x3F3504F3#32, im := 0xBF3504F3#32 } { re := 0x40000000#32, im := 0#32 } =
    { re := 0x3FB504F3#32, im := 0xBFB504F3#32 } := by decide +kernel
theorem test_num_16 : fgt 0x3F800000#32 0x7FC00000#32 = false ∧ fgt 0x7FC00000#32 0#32 = false ∧
    feq 0#32 0x80000000#32 = true ∧ fgt 0x80000000#32 0#32 = false := by decide +kernel

/-- The table of 40_numerics.md R149, from `e = -45` up. -/
def powersOfTen : List Word :=
  [0x00000001#32, 0x00000007#32, 0x00000047#32, 0x000002CA#32, 0x00001BE0#32, 0x000116C2#32, 0x000AE398#32,
    0x006CE3EE#32, 0x02081CEA#32, 0x03AA2425#32, 0x0554AD2E#32, 0x0704EC3D#32, 0x08A6274C#32, 0x0A4FB11F#32] ++
  [0x0C01CEB3#32, 0x0DA24260#32, 0x0F4AD2F8#32, 0x10FD87B6#32, 0x129E74D2#32, 0x14461206#32, 0x15F79688#32,
    0x179ABE15#32, 0x19416D9A#32, 0x1AF1C901#32, 0x1C971DA0#32, 0x1E3CE508#32, 0x1FEC1E4A#32, 0x219392EF#32] ++
  [0x233877AA#32, 0x24E69595#32, 0x26901D7D#32, 0x283424DC#32, 0x29E12E13#32, 0x2B8CBCCC#32, 0x2D2FEBFF#32,
    0x2EDBE6FF#32, 0x3089705F#32, 0x322BCC77#32, 0x33D6BF95#32, 0x358637BD#32, 0x3727C5AC#32, 0x38D1B717#32] ++
  [0x3A83126F#32, 0x3C23D70A#32, 0x3DCCCCCD#32, 0x3F800000#32, 0x41200000#32, 0x42C80000#32, 0x447A0000#32,
    0x461C4000#32, 0x47C35000#32, 0x49742400#32, 0x4B189680#32, 0x4CBEBC20#32, 0x4E6E6B28#32, 0x501502F9#32] ++
  [0x51BA43B7#32, 0x5368D4A5#32, 0x551184E7#32, 0x56B5E621#32, 0x58635FA9#32, 0x5A0E1BCA#32, 0x5BB1A2BC#32,
    0x5D5E0B6B#32, 0x5F0AC723#32, 0x60AD78EC#32, 0x6258D727#32, 0x64078678#32, 0x65A96816#32, 0x6753C21C#32] ++
  [0x69045951#32, 0x6AA56FA6#32, 0x6C4ECB8F#32, 0x6E013F39#32, 0x6FA18F08#32, 0x7149F2CA#32, 0x72FC6F7C#32,
    0x749DC5AE#32, 0x76453719#32, 0x77F684DF#32, 0x799A130C#32, 0x7B4097CE#32, 0x7CF0BDC2#32, 0x7E967699#32]

theorem test_pow10_table : (List.range 84).map (fun k => pow10 ((k : Int) - 45)) = powersOfTen := by decide +kernel

/-! The window and the FFT, with a cosine and a sine given by the points that 95_test_vectors.md prints. -/

/-- V-WIN-1 and the twiddle of 95 section 2.4: `-PI32 / 2` is 0xBFC9_0FDB. -/
def vectorTrig : Trig :=
  { cos := fun x =>
      if x = 0x40060A92#32 then 0xBF000001#32 else if x = 0x40860A92#32 then 0xBEFFFFFD#32
      else if x = 0xBFC90FDB#32 then 0xB33BBD2E#32 else 0x3F800000#32
    sin := fun x => if x = 0xBFC90FDB#32 then 0xBF800000#32 else x }

/-- V-WIN-1 -/
theorem test_hann_4 : (List.range 4).map (fun i => hann vectorTrig [] i 4) =
    [0x00000000#32, 0x3F400000#32, 0x3F3FFFFF#32, 0x00000000#32] := by decide +kernel
/-- 95 section 2.4 -/
theorem test_twiddle : twiddle vectorTrig [] 0 8 = { re := 0x3F800000#32, im := 0x80000000#32 } ∧
    twiddle vectorTrig [] 1 4 = { re := 0xB33BBD2E#32, im := 0xBF800000#32 } := by decide +kernel

/-- The complex signal of a real one. -/
def realSignal (ws : List Word) : List Cplx := ws.map fun w => { re := w, im := 0#32 }

/-- V-FFT-5 -/
def vFft5 : List Cplx :=
  [{ re := 0x41200000#32, im := 0#32 }, { re := 0xBFFFFFFF#32, im := 0x40000000#32 },
    { re := 0xC0000000#32, im := 0#32 }, { re := 0xC0000000#32, im := 0xC0000000#32 }]

theorem test_fft_4 : fft vectorTrig [] 2
    (realSignal [0x3F800000#32, 0x40000000#32, 0x40400000#32, 0x40800000#32]) = vFft5 := by decide +kernel
theorem test_fftIter_4 : fftIter vectorTrig [] 2
    (realSignal [0x3F800000#32, 0x40000000#32, 0x40400000#32, 0x40800000#32]) = vFft5 := by decide +kernel

/-! The units, one step each. -/

/-- V-WIN-2, V-WIN-5: coefficient 0 and the tag; a bad length. -/
theorem test_wingen : after (.wingen 2#24) r0 (fun t => (elem t .win 0, t.winN)) = some (0#32, 2#32) ∧
    after (.wingen 3#24) r0 (fun t => (t.errCode, t.errInfo, t.winN)) = some (1#32, 3#32, 0#32) := by decide +kernel

/-- V-CND-1 -/
theorem test_pcm2f : after (.pcm2f 8#24)
    (storeBlock .pcm [0#32, 1#32, 0xFFFFFFFF#32, 32767#32, 0x8000#32, 16384#32, 0xFFFFC000#32, 12345#32] r0)
    (fun t => block t .sig 8) =
    some [0#32, 0x38000000#32, 0xB8000000#32, 0x3F7FFE00#32, 0xBF800000#32, 0x3F000000#32, 0xBF000000#32,
      0x3EC0E400#32] := by decide +kernel

/-- V-CND-2, V-CND-3: the window's words are put there by the test. -/
theorem test_wmul : after (.wmul 2#24)
    (storeBlock .sig [0xBE800000#32, 0x3E800000#32] (storeBlock .win [0#32, 0x3E40C5F2#32] { r0 with winN := 2#32 }))
    (fun t => block t .wsig 2) = some [0x80000000#32, 0x3D40C5F2#32] := by decide +kernel
/-- V-CND-4 -/
theorem test_wmul_without_window :
    after (.wmul 8#24) r0 (fun t => (t.errCode, t.errInfo, t.faulted)) = some (1#32, 8#32, true) := by decide +kernel

/-- V-FFT-2: no cosine is involved. -/
theorem test_xform_2 : after (.xform 2#24) (storeBlock .wsig [0x3F800000#32, 0x40000000#32] r0)
    (fun t => (block t .xre 2, block t .xim 2)) =
    some ([0x40400000#32, 0xBF800000#32], [0#32, 0#32]) := by decide +kernel
/-- V-FFT-1, V-FFT-11 -/
theorem test_xform_1_and_100 : after (.xform 1#24) (storeBlock .wsig [0x40600000#32] r0)
      (fun t => (elem t .xre 0, elem t .xim 0)) = some (0x40600000#32, 0#32) ∧
    after (.xform 100#24) r0 (fun t => (t.errCode, t.errInfo)) = some (1#32, 100#32) := by decide +kernel

/-- V-MAG-2 -/
theorem test_magn : after (.magn 8#24)
    (storeBlock .xim [0x40800000#32, 0#32, 0x41000000#32, 0#32]
      (storeBlock .xre [0x40400000#32, 0#32, 0x40C00000#32, 0x3F800000#32] r0))
    (fun t => (block t .norm 4, t.peak, t.degen)) =
    some ([0x3F000000#32, 0#32, 0x3F800000#32, 0x3DCCCCCD#32], 0x41200000#32, false) := by decide +kernel
/-- V-MAG-3 -/
theorem test_magn_silent : after (.magn 4#24)
    (storeBlock .xim [0x80000000#32, 0#32] (storeBlock .xre [0#32, 0x80000000#32] r0))
    (fun t => (block t .norm 2, t.peak, t.degen, t.faulted)) = some ([0#32, 0#32], 0#32, true, false) := by
  decide +kernel

/-- V-ZOOM-2 -/
theorem test_zoom : after .zoom { r0 with minFreqHz := 0x447A0000#32, maxFreqHz := 0x459C4000#32 }
    (fun t => (t.zmin, t.zmax)) = some (10#32, 54#32) := by decide +kernel
/-- V-ZOOM-11 -/
theorem test_zoom_zero_rate :
    after .zoom { r0 with sampleRate := 0#32, fftSize := 8#32, minFreqHz := 0x42C80000#32, maxFreqHz := 0x43480000#32 }
      (fun t => (t.zmin, t.zmax)) = some (3#32, 4#32) := by decide +kernel

/-- V-SEL-1 -/
theorem test_select : after .select
    (storeBlock .norm [0x3EF7BF80#32, 0x3F800000#32, 0x3F117CCE#32, 0x3E080382#32]
      { r0 with zmin := 1#32, zmax := 3#32 })
    (fun t => (block t .spec 2, t.specLen)) = some ([0x3F800000#32, 0x3F117CCE#32], 2#32) := by decide +kernel

/-- V-BLD-1: the four bins of P5's transform. -/
theorem test_build : after .build
    (storeBlock .xim [0#32, 0xBF3588B0#32, 0x3EAFCE82#32, 0x3DB922E8#32]
      (storeBlock .xre [0x3EAFCE84#32, 0xBCDAA071#32, 0xBE589426#32, 0x3CDAA061#32]
        { r0 with sampleRate := 8000#32, fftSize := 8#32, minFreqHz := 0x447A0000#32, maxFreqHz := 0x453B8000#32 }))
    (fun t => ([t.peak, t.zmin, t.zmax, t.specLen], t.degen, block t .spec 2)) =
    some ([0x3F35A996#32, 1#32, 3#32, 2#32], false, [0x3F800000#32, 0x3F117CCE#32]) := by decide +kernel

/-- V-HIS-1 -/
theorem test_hpush : after .hpush
    (storeBlock .spec [0x40800000#32]
      { r0 with specLen := 1#32, maxHistory := 3#32, hist := [[0x40400000#32], [0x40000000#32], [0x3F800000#32]] })
    State.hist = some [[0x40800000#32], [0x40400000#32], [0x40000000#32]] := by decide +kernel
/-- V-HIS-7 -/
theorem test_hpush_empty :
    after .hpush r0 (fun t => (t.errCode, t.errInfo, t.hist)) = some (1#32, 0#32, []) := by decide +kernel
/-- V-HIS-3, V-HIS-5 -/
theorem test_wrMaxHistory :
    after (.wrMaxHistory 2#32) { r0 with hist := [[5#32], [4#32], [3#32]] } (fun t => (t.maxHistory, t.hist)) =
      some (2#32, [[5#32], [4#32]]) ∧
    after (.wrMaxHistory 0#32) { r0 with hist := [[5#32], [4#32]] } (fun t => (t.maxHistory, t.hist)) =
      some (1#32, [[5#32]]) := by decide +kernel
/-- V-HIS-6 -/
theorem test_wrMaxHistory_high : after (.wrMaxHistory 0xFFFFFFFF#32) r0 State.maxHistory = some 8#32 := by
  decide +kernel
/-- V-HIS-4: a frame's length, a frame that is not there. -/
theorem test_hsnap : after .hsnap { r0 with hist := [[7#32, 8#32]] } State.hsnapBank = some [[7#32, 8#32]] ∧
    readAt 0x0B000000#32 { r0 with hsnapBank := [[7#32, 8#32]] } = some 2#32 ∧
    readAt 0x0B000001#32 { r0 with hsnapBank := [[7#32, 8#32]] } = some 0#32 ∧
    readAt 0x0A000001#32 { r0 with hsnapBank := [[7#32, 8#32]] } = some 8#32 := by decide +kernel

/-- V-WAV-3 -/
theorem test_wwrite : after (.wwrite 4#24)
    (storeBlock .sig [1#32, 2#32, 3#32, 4#32] { r0 with writePos := 1022#10 })
    (fun t => (t.writePos, [1022, 1023, 0, 1, 2].map (Memory.ringRead t.wave))) =
    some (2#10, [1#32, 2#32, 3#32, 4#32, 0#32]) := by decide +kernel
/-- V-WAV-6, V-WAV-7 -/
theorem test_wwrite_long_wsnap : after (.wwrite 2049#24) r0 State.errInfo = some 2049#32 ∧
    after .wsnap { r0 with wave := [(0, 9#32)], writePos := 1#10 }
      (fun t => (Memory.ringRead t.wsnapBank 0, t.wsnapPos)) = some (9#32, 1#10) ∧
    after (.wr 0x09000000#32 1#32) r0 (fun t => (t.errCode, t.errInfo)) = some (6#32, 0x09000000#32) := by
  decide +kernel

/-- V-TICK-1 -/
theorem test_tick : after .tick { r0 with tickRange := 0x46185800#32 } (fun t => (t.tickStep, t.tickSub)) =
    some (0x447A0000#32, 0x43480000#32) := by decide +kernel
/-- V-TICK-4, a tie, and V-TICK-12, a decade below a rounded power of ten. -/
theorem test_tick_tie :
    after .tick { r0 with tickRange := 0x41E00000#32 } (fun t => (t.tickStep, t.tickSub)) =
      some (0x40000000#32, 0x3ECCCCCD#32) ∧
    after .tick { r0 with tickRange := 0x3DA3D70A#32 } (fun t => (t.tickStep, t.tickSub)) =
      some (0x3BA3D70B#32, 0x3A83126F#32) := by decide +kernel

/-- V-MAP-1 -/
theorem test_f2bin : after .f2bin { r0 with mapArg := 0x447A0000#32 } State.mapRes = some 10#32 ∧
    after .f2bin { r0 with mapArg := 0xBF800000#32 } State.mapRes = some 0xFFFFFFFF#32 := by decide +kernel
/-- V-MAP-2 -/
theorem test_bin2f : after .bin2f { r0 with mapArg := 11#32 } State.mapRes = some 0x4480E800#32 ∧
    after .bin2f { r0 with mapArg := 0xFFFFFFFF#32 } State.mapRes = some 0xC2BB8000#32 := by decide +kernel

/-- P7: the source says no, then yes. -/
theorem test_start : after .start { r0 with availAnswers := [false] } (fun t => (statusWord t, t.srcEvents)) =
      some (0x40#32, []) ∧
    after .start { r0 with availAnswers := [true], srcUnav := true } (fun t => (statusWord t, t.srcEvents)) =
      some (1#32, [.srcStart]) := by decide +kernel
/-- P7: STOP in Running, and again. -/
theorem test_stop : after .stop { r0 with pstate := .running, srcEvents := [.srcStart] }
      (fun t => (t.pstate, t.srcEvents)) = some (.stopped, [.srcStart, .srcRelease]) ∧
    after .stop { r0 with pstate := .stopped } (fun t => (t.pstate, t.srcEvents)) = some (.stopped, []) := by
  decide +kernel
/-- P7: a short read. -/
theorem test_cycle_short : after .cycle
    { r0 with pstate := .running, readAnswers := [{ count := 5#32, samples := [1#16, 2#16, 3#16, 4#16, 5#16] }] }
    (fun t => (statusWord t, t.srcCount, elem t .pcm 4, t.winN, t.hist)) =
    some (0x11#32, 5#32, 5#32, 0#32, []) := by decide +kernel
/-- One complete cycle of length 2: its window is all zero up to the second coefficient, which the free cosine decides;
what does not depend on it is the signal, the ring, the tags and the outcome (47 R293). -/
theorem test_cycle_complete : after .cycle
    { r0 with pstate := .running, fftSize := 2#32, readAnswers := [{ count := 2#32, samples := [0x2000#16, 0xE000#16] }] }
    (fun t => (t.cyc, block t .sig 2, t.writePos, t.winN)) =
    some (.completed, [0x3E800000#32, 0xBE800000#32], 2#10, 2#32) := by decide +kernel

/-- P6: an invalid length while running. -/
theorem test_wrFftSize : after (.wrFftSize 100#32) { r0 with pstate := .running }
      (fun t => (statusWord t, t.errCode, t.errInfo, t.fftSize)) = some (6#32, 1#32, 100#32, 512#32) ∧
    after (.wrFftSize 1024#32) r0 (fun t => (t.fftSize, t.winN)) = some (1024#32, 0#32) := by decide +kernel
/-- V-REG-4 -/
theorem test_wrSpecLen : after (.wrSpecLen 1024#32) r0 State.specLen = some 1024#32 ∧
    after (.wrSpecLen 1025#32) r0 (fun t => (t.errCode, t.errInfo)) = some (1#32, 1025#32) := by decide +kernel
/-- V-REG-1 -/
theorem test_effInterval : readAt 0x07#32 { r0 with updateIntervalMs := 1#32 } = some 20#32 ∧
    readAt 0x07#32 { r0 with updateIntervalMs := 50#32 } = some 50#32 := by decide +kernel
/-- V-CND-1, bus forms; V-FLT-4 -/
theorem test_wr : after (.wr 0x01000002#32 0x0000FFFF#32) r0 (fun t => readAt 0x01000002#32 t) =
      some (some 0xFFFFFFFF#32) ∧
    after (.wr 0x0B#32 7#32) r0 (fun t => (t.errCode, t.errInfo)) = some (6#32, 0x0B#32) := by decide +kernel
/-- V-FLT-5, V-FLT-6, V-FLT-9 -/
theorem test_rd : after (.rd 0x1D#32) r0 (fun t => (t.readData, t.errCode, t.errInfo)) = some (0#32, 6#32, 0x1D#32) ∧
    after (.rd 0x02000800#32) r0 (fun t => (t.readData, t.errInfo)) = some (0#32, 0x02000800#32) ∧
    after (.rd 0x00#32) r0 (fun t => (t.readData, t.errCode)) = some (0#32, 0#32) := by decide +kernel
/-- V-REG-2 -/
theorem test_reset_reads : (List.range 29).map (fun k => readAt (BitVec.ofNat 32 k) r0) =
    ([0, 0, 0, 0, 48000, 512, 20, 20, 8, 0, 0x46BB8000, 0, 0, 0, 0, 1, 0, 0, 0, 8, 0, 0, 0, 0, 0, 0, 0, 2048, 8] :
      List Nat).map (fun n => some (BitVec.ofNat 32 n)) := by decide +kernel
/-- V-FLT-2 and V-FLT-3, through a step. -/
theorem test_illegal_words :
    afterTxn (.write 0#32 0x06000001#32) r0 (fun t => (t.errCode, t.errInfo)) = some (5#32, 0x06000001#32) ∧
    afterTxn (.write 0#32 0x13000000#32) r0 (fun t => (t.errCode, t.errInfo)) = some (5#32, 0x13000000#32) := by
  decide +kernel
/-- 70_reset_and_hazards.md R370: Reset while running releases the source and leaves the faultless reset state. -/
theorem test_reset_input :
    (match step { r0 with bus := [.reset], pstate := .running, srcEvents := [.srcStart], errCode := 0#32 } with
      | .next t => some (t.pstate, t.pastEvents, t.epoch)
      | .fault _ => none
      | .refused _ => none) = some (.idle, [.srcStart, .srcRelease], 1) := by decide +kernel
theorem test_idle_bus_stops : step r0 = .fault .busIdle := rfl
theorem test_withFetchWord :
    (match step (r0.withFetchWord 32 0x04000064) with
      | .next t => some (t.errCode, t.errInfo)
      | .fault _ => none
      | .refused _ => none) = some (1#32, 100#32) := by decide +kernel

/-! Witnesses: for each obligation with hypotheses, inputs that meet them, at the boundaries of each clause. -/

/-- A legal transform or window length of the instance, and the lengths just outside. -/
theorem lengths_around : (isPow2 2 = true ∧ 2 ≤ 2 ∧ 2 ≤ r0.params.nmax) ∧
    (isPow2 2048 = true ∧ 2 ≤ 2048 ∧ 2048 ≤ r0.params.nmax) ∧
    ¬ (isPow2 1 = true ∧ 2 ≤ 1 ∧ 1 ≤ r0.params.nmax) ∧ ¬ (isPow2 3 = true ∧ 2 ≤ 3 ∧ 3 ≤ r0.params.nmax) ∧
    ¬ (isPow2 4096 = true ∧ 2 ≤ 4096 ∧ 4096 ≤ r0.params.nmax) := by decide +kernel

theorem inv_reset : Inv r0 where
  params_legal := by decide +kernel
  fftSize_legal := by decide +kernel
  maxHistory_range := by decide +kernel
  hist_within_cap := by decide +kernel
  zoom_range := by decide +kernel
  specLen_range := by decide +kernel
  writePos_range := by decide +kernel
  winN_legal := .inl rfl
  faulted_not_running := fun h => absurd h (by decide)
  hist_frames := fun _ h => absurd h (by simp [State.reset, State.resetOf])
  bank_frames := fun _ h => absurd h (by simp [State.reset, State.resetOf])
  errCode_iff := by decide +kernel
  errCode_codes := .inl rfl
  bank_within_slots := by decide +kernel
  events_match := rfl
  past_released := rfl
  mem_wf := rfl
  mem_mapped := fun _ h => absurd h (by simp [State.reset, State.resetOf])
  pcm_samples := fun _ h => absurd h (by simp [State.reset, State.resetOf])
  wave_wf := rfl
  waveBank_wf := rfl

/-- A running state in which the source has two samples ready and the frame is two long. -/
def running2 : State :=
  { r0 with
    pstate := .running
    srcEvents := [.srcStart]
    fftSize := 2#32
    readAnswers := [{ count := 2#32, samples := [0x2000#16, 0xE000#16] }] }

theorem inv_running2 : Inv running2 :=
  { inv_reset with
    fftSize_legal := by decide +kernel
    faulted_not_running := fun h => absurd h (by decide)
    events_match := rfl }

theorem witness_DecodeOfEncodeIsIdentity : (Instr.wr 0x01#32 7#32).wf = true ∧ (Instr.wingen 0xFFFFFF#24).wf = true := by
  decide
theorem witness_EncodeOfDecodeIsIdentity : decode (.write 0x04#32 7#32) = .ok (.wr 0x04#32 7#32) := by decide
theorem witness_StepRunsDecodedInstruction :
    { r0 with bus := [.txn (.write 0#32 0x06000000#32)] }.bus = .txn (.write 0#32 0x06000000#32) :: [] ∧
    decode (.write 0#32 0x06000000#32) = .ok .zoom := by decide
theorem witness_IllegalWordRaisesIllegalCommand :
    { r0 with bus := [.txn (.write 0#32 0x13000000#32)] }.bus = .txn (.write 0#32 0x13000000#32) :: [] ∧
    r0.faulted = false ∧ IllegalWord 0x13000000#32 ∧ IllegalWord 0x00FFFFFF#32 ∧ IllegalWord 0x12000001#32 ∧
    ¬ IllegalWord 0x12000000#32 ∧ ¬ IllegalWord 0x01000000#32 ∧ ¬ IllegalWord 0x0BFFFFFF#32 := by
  simp [IllegalWord, c0Opcodes, State.reset, State.resetOf]
theorem witness_FaultEntryWritesRecordAndReleasesSource : running2.pstate = .running ∧ r0.pstate ≠ .running := by
  decide
theorem witness_FaultedStateDiscardsWrites :
    { r0 with faulted := true, bus := [.txn (.read 0x1D#32)] }.faulted = true ∧ ¬ Mapped r0.params 0x1D#32 := by
  simp [Mapped, regionSizes]
theorem witness_InvalidSizeCauses : r0.faulted = false ∧ r0.params.nmax / 2 < (1025#32).toNat ∧
    r0.params.nmax < (2049#24).toNat ∧ r0.winN = 0#32 ∧ { r0 with winN := 8#32 }.winN ≠ (4#24).setWidth 32 ∧
    ¬ (isPow2 (0#24).toNat = true ∧ 1 ≤ (0#24).toNat ∧ (0#24).toNat ≤ r0.params.nmax) ∧ r0.specLen = 0#32 := by
  decide +kernel
theorem witness_InvalidSizeCauses_converse : (Instr.wrSpecLen 1025#32).wf = true ∧
    after (.wrSpecLen 1025#32) r0 (fun t => (t.faulted, t.errCode)) = some (true, 1#32) ∧
    after (.wr 0x1D#32 0#32) r0 (fun t => (t.faulted, t.errCode)) = some (true, 6#32) := by decide +kernel
theorem witness_BusErrorCauses : ¬ Mapped r0.params 0x1D#32 ∧ Mapped r0.params 0x1C#32 ∧
    ¬ Mapped r0.params 0x02000800#32 ∧ Mapped r0.params 0x020007FF#32 ∧ ¬ Mapped r0.params 0x10000000#32 ∧
    ReadOnly r0.params 0x01#32 ∧ ReadOnly r0.params 0x0B000007#32 ∧ (Instr.wr 0x01#32 0#32).wf = true := by
  simp [ReadOnly, Mapped, regionSizes, readOnlyOffsets, State.reset, State.resetOf, Params.chosen]
  decide
theorem witness_ResetValues : Params.chosen.legal = true ∧ ({ nmax := 2, hcap := 1 } : Params).legal = true ∧
    ({ nmax := 2 ^ 23, hcap := 4 } : Params).legal = true ∧ ({ nmax := 2 ^ 23, hcap := 5 } : Params).legal = false := by
  decide +kernel
theorem witness_ResetSatisfiesInvariant : Params.chosen.legal = true := by decide +kernel
theorem witness_StepKeepsInvariant : Inv { running2 with bus := [.txn (.write 0#32 0x12000000#32)] } ∧
    ∃ t, step { running2 with bus := [.txn (.write 0#32 0x12000000#32)] } = .next t :=
  ⟨{ inv_running2 with }, _, rfl⟩
theorem witness_ResetInputGivesResetState : { running2 with bus := [.reset] }.bus = .reset :: [] := rfl
theorem witness_ReadOfMappedAddressChangesNothing : Mapped r0.params 0x00#32 ∧ Mapped r0.params 0x0A001FFF#32 := by
  simp [Mapped, regionSizes, State.reset, State.resetOf, Params.chosen]
theorem witness_WingenWritesHannWindow : r0.faulted = false ∧
    (isPow2 (2#24).toNat = true ∧ 2 ≤ (2#24).toNat ∧ (2#24).toNat ≤ r0.params.nmax) := by decide +kernel
theorem witness_Pcm2fConvertsSamplesExactly : r0.faulted = false ∧ (0#24).toNat ≤ r0.params.nmax ∧
    (2048#24).toNat ≤ r0.params.nmax ∧ r0.params.nmax < (2049#24).toNat := by decide +kernel
theorem witness_WmulMultipliesByWindow : { r0 with winN := 8#32 }.winN ≠ 0#32 ∧
    (8#24).setWidth 32 = { r0 with winN := 8#32 }.winN ∧ r0.winN = 0#32 ∧
    (4#24).setWidth 32 ≠ { r0 with winN := 8#32 }.winN := by decide +kernel
theorem witness_FirstWindowCoefficientIsZero : (withExactPoints vectorTrig).Exact ∧ 2 ≤ 2 ∧ 2 ^ 23 ≤ 2 ^ 23 :=
  ⟨trig_exact _, le_rfl, le_rfl⟩
theorem witness_TransformIsRadix2Recursion : [czero, czero].length = 2 ^ (0 + 1) ∧
    [czero, czero, czero, czero].length = 2 ^ (1 + 1) := by decide
theorem witness_IterativeTransformEqualsRecursive : [czero].length = 2 ^ 0 ∧ [czero, czero].length = 2 ^ 1 := by decide
theorem witness_TwiddleZeroIsOne : (withExactPoints vectorTrig).Exact ∧ 1 ≤ 1 ∧ 23 ≤ 23 :=
  ⟨trig_exact _, le_rfl, le_rfl⟩
theorem witness_XformWritesTransformOfWindowedSignal : r0.faulted = false ∧
    (isPow2 (1#24).toNat = true ∧ 1 ≤ (1#24).toNat ∧ (1#24).toNat ≤ r0.params.nmax) ∧
    ¬ (isPow2 (0#24).toNat = true ∧ 1 ≤ (0#24).toNat ∧ (0#24).toNat ≤ r0.params.nmax) := by decide +kernel
theorem witness_MagnWritesNormalisedMagnitudes : r0.faulted = false ∧
    (isPow2 (2#24).toNat = true ∧ 2 ≤ (2#24).toNat ∧ (2#24).toNat ≤ r0.params.nmax) := by decide +kernel
theorem witness_NormalisedMagnitudesLieInUnitInterval :
    (∀ w ∈ [0x00000000#32, 0x7F7FFFFF#32], isFinite w = true ∧ fSign w = false) ∧
    fgt (peakOf [0x00000000#32, 0x7F7FFFFF#32]) 0#32 = true := by
  refine ⟨fun w hw => ?_, by decide +kernel⟩
  simp only [List.mem_cons, List.not_mem_nil, or_false] at hw
  rcases hw with rfl | rfl <;> decide +kernel
theorem witness_ZoomWritesClampedBinRange : r0.faulted = false ∧ 2 ≤ running2.fftSize.toNat := by decide +kernel
theorem witness_SelectCopiesZoomedSlice : Inv r0 ∧ r0.faulted = false ∧ 0 < r0.zmax.toNat - r0.zmin.toNat :=
  ⟨inv_reset, by decide +kernel⟩
theorem witness_BuildIsMagnZoomSelect : Inv r0 ∧ r0.faulted = false := ⟨inv_reset, rfl⟩
theorem witness_HpushInsertsFrameAndEvictsOldest : { r0 with specLen := 1#32 }.specLen ≠ 0#32 ∧
    { r0 with specLen := 1#32 }.hist.length < r0.maxHistory.toNat ∧
    { r0 with specLen := 1#32, maxHistory := 1#32, hist := [[7#32]] }.maxHistory.toNat ≤ [[7#32]].length ∧
    r0.specLen = 0#32 := by decide +kernel
theorem witness_WriteMaxHistoryClampsAndSheds : r0.faulted = false ∧ r0.params.legal = true ∧ (0#32).toNat = 0 ∧
    (1#32).toNat ≤ r0.params.hcap ∧ (8#32).toNat ≤ r0.params.hcap ∧ r0.params.hcap < (9#32).toNat := by decide +kernel
theorem witness_HsnapCopiesHistory : r0.faulted = false := rfl
theorem witness_StoresChangeOnlyByTheirInstructions :
    after .hpush { r0 with specLen := 1#32 } (fun t => decide (t.hist.length = 1)) = some true ∧
    after .hsnap { r0 with hist := [[7#32]] } (fun t => decide (t.hsnapBank = [[7#32]])) = some true ∧
    after (.wwrite 1#24) r0 (fun t => decide (t.writePos = 1#10)) = some true ∧
    after .wsnap { r0 with writePos := 1#10 } (fun t => decide (t.wsnapPos = 1#10)) = some true := by decide +kernel
theorem witness_WwriteAppendsToRing : r0.faulted = false ∧ 1 < (1027#24).toNat ∧ (1027#24).toNat ≤ 3 + 1024 ∧
    (1027#24).toNat ≤ r0.params.nmax ∧ r0.params.nmax < (2049#24).toNat ∧
    (∀ i, i < (2#24).toNat → (r0.writePos.toNat + i) % 1024 ≠ 2) := by decide +kernel
theorem witness_WsnapCopiesRing : r0.faulted = false := rfl
theorem witness_TickChoosesNiceStep : r0.faulted = false ∧
    isFinite (fdiv [] 0x46185800#32 (u2f r0.tickCount.toNat)) = true ∧
    fgt (fdiv [] 0x46185800#32 (u2f r0.tickCount.toNat)) 0#32 = true := by decide +kernel
theorem witness_F2binFloorsFrequencyOverBinWidth : r0.faulted = false := rfl
theorem witness_Bin2fScalesBinIndex : r0.faulted = false := rfl
theorem witness_BinFrequencyRoundTrip : isPow2 (512#32).toNat = true ∧ (512#32).toNat ≤ 2 ^ 23 ∧
    1 ≤ (256#32).toNat ∧ (0x10000#32).toNat * (256#32).toNat ≤ 2 ^ 24 ∧
    (0#32).toNat * (0xFFFFFFFF#32).toNat ≤ 2 ^ 24 := by
  decide +kernel
theorem witness_StartAsksSourceInIdle : { r0 with availAnswers := [true] }.pstate = .idle ∧
    { r0 with availAnswers := [true] }.availAnswers = true :: [] ∧ { r0 with availAnswers := [false] }.availAnswers =
      false :: [] ∧ running2.pstate ≠ .idle ∧ running2.faulted = false := by decide
theorem witness_StopReleasesSourceOnce : running2.pstate = .running ∧ running2.faulted = false ∧
    r0.pstate ≠ .running := by decide
/-- The same, with a source that delivers one sample, or reports a count below zero. -/
def runningShort (count : Word) : State := { running2 with readAnswers := [{ count := count, samples := [0x2000#16] }] }

theorem witness_CycleIgnoredOrShort : r0.pstate ≠ .running ∧ (runningShort 1#32).faulted = false ∧
    (runningShort 1#32).pstate = .running ∧
    (srcReadCount (runningShort 1#32)).toInt < (runningShort 1#32).fftSize.toNat ∧
    0 < (srcReadCount (runningShort 1#32)).toInt ∧
    (srcReadCount (runningShort 0xFFFFFFFF#32)).toInt < 0 ∧ running2.readAnswers ≠ [] := by decide +kernel
theorem witness_CompleteCycleIsUnitCommandSequence : Inv running2 ∧ running2.faulted = false ∧
    running2.pstate = .running ∧ (running2.fftSize.toNat : Int) ≤ (srcReadCount running2).toInt ∧
    running2.winN ≠ running2.fftSize :=
  ⟨inv_running2, by decide +kernel⟩
theorem witness_MemoryReadsReturnTheirWords : Inv r0 ∧ r0.params.legal = true ∧ 2047 < scratchSize r0.params .pcm ∧
    1023 < scratchSize r0.params .spec ∧ 7 < r0.params.hcap ∧ 1023 < r0.params.nmax / 2 ∧
    { r0 with hsnapBank := [[7#32]] }.hsnapBank[0]? = some [7#32] ∧ [7#32][0]? = some 7#32 :=
  ⟨inv_reset, by decide +kernel⟩
theorem witness_PlainWritesStoreTheirWord : r0.faulted = false ∧ r0.params.legal = true ∧
    2047 < scratchSize r0.params .xim := by decide +kernel
theorem witness_CheckedRegisterWrites : r0.faulted = false ∧
    (isPow2 (2048#32).toNat = true ∧ 2 ≤ (2048#32).toNat ∧ (2048#32).toNat ≤ r0.params.nmax) ∧
    (1024#32).toNat ≤ r0.params.nmax / 2 ∧ r0.params.nmax / 2 < (1025#32).toNat := by decide +kernel
theorem witness_ParametersAndWindowTagAreStable :
    (∃ t, step { r0 with bus := [.reset] } = .next t) ∧ after (.wingen 2#24) r0 State.winN = some 2#32 ∧
    r0.winN ≠ 2#32 := ⟨⟨_, rfl⟩, by decide +kernel⟩
theorem witness_BasicOperationsCorrectlyRounded : isFinite 0x3F800000#32 = true ∧ isFinite 0x7F7FFFFF#32 = true ∧
    isFinite 0x80000001#32 = true ∧ isZero 0x80000001#32 = false := by decide +kernel
theorem witness_SquareRootCorrectlyRounded : isFinite 0x00000001#32 = true ∧ fSign 0x00000001#32 = false := by
  decide +kernel
theorem witness_NonFiniteArithmetic : isNaN 0x7F800001#32 = true ∧ isInf 0x7F800000#32 = true ∧
    isInf 0xFF800000#32 = true ∧ fSign 0x7F800000#32 ≠ fSign 0xFF800000#32 ∧ isZero 0x80000000#32 = true ∧
    (isNaN 0xFF800000#32 = false ∧ isZero 0xFF800000#32 = false ∧ fSign 0xFF800000#32 = true) ∧
    (isFinite 0x00000001#32 = true ∧ isZero 0x00000001#32 = false) := by decide +kernel
theorem witness_SignedZeroArithmetic : isFinite 0x80000001#32 = true ∧ isFinite 0x7F7FFFFF#32 = true ∧
    isZero (fmul [] 0x80000001#32 0x00000001#32) = true ∧ isZero (fdiv [] 0x80000001#32 0x7F7FFFFF#32) = true ∧
    isZero 0x7F7FFFFF#32 = false := by decide +kernel
theorem witness_IntegerToFloatConversions : 2 ^ 32 - 1 < 2 ^ 32 ∧ 2 ^ 24 ≤ 2 ^ 24 ∧ -2 ^ 31 ≤ (-2 ^ 31 : Int) := by
  decide
theorem witness_FloatToIntegerConversions : isNaN 0x7FC00000#32 = true ∧ isInf 0x7F800000#32 = true ∧
    fSign 0x7F800000#32 = false ∧ isInf 0xFF800000#32 = true ∧ fSign 0xFF800000#32 = true ∧
    isFinite 0x4F000000#32 = true := by decide +kernel
theorem witness_ComparisonsFollowValues : isFinite 0x80000000#32 = true ∧ isFinite 0x7F7FFFFF#32 = true ∧
    isNaN 0xFF800001#32 = true := by decide +kernel
theorem witness_DecadeAndPowersOfTen : (isFinite 0x00000001#32 = true ∧ isZero 0x00000001#32 = false ∧
    fSign 0x00000001#32 = false) ∧ isFinite 0x7F7FFFFF#32 = true ∧ -45 ≤ (-45 : Int) ∧ (38 : Int) ≤ 38 := by
  decide +kernel

theorem witness_InfiniteOperandArithmetic : isInf 0x7F800000#32 = true ∧ isInf 0xFF800000#32 = true ∧
    isFinite 0x80000000#32 = true ∧ fSign 0x7F800000#32 ≠ fSign 0xFF800000#32 ∧ isNaN 0x00000001#32 = false ∧
    isZero 0x00000001#32 = false ∧ isNaN 0xFF800000#32 = false ∧ isZero 0xFF800000#32 = false := by decide +kernel
theorem witness_TrigObeysExactPointsAndAccuracy : isFinite 0x7F800000#32 = false ∧ isFinite 0xC0C90FDC#32 = true ∧
    |value 0xC0C90FDC#32| ≤ value 0x40C90FDC#32 ∧ ¬ |value 0x40C90FDD#32| ≤ value 0x40C90FDC#32 := by decide +kernel
theorem witness_WindowAndTwiddlesAreBounded_window : isPow2 2 = true ∧ 2 ≤ 2 ∧ isPow2 (2 ^ 23) = true ∧
    2 ^ 23 - 1 < 2 ^ 23 := by decide +kernel
theorem witness_WindowAndTwiddlesAreBounded_twiddle : 1 ≤ 23 ∧ 23 ≤ 23 ∧ 2 ^ 22 - 1 < 2 ^ (23 - 1) ∧ 0 < 2 ^ (1 - 1) := by
  decide

end Sys2Proof.Tests
end

/-! SUPPORT. What no step changes: the parameters of the instance (00_scope.md R7), and, outside WINGEN and CYCLE, the
window tag WIN_N (10_state.md R39). -/

namespace Sys2Proof.Machine

variable {s t : State}

/-- What a bus write keeps, for any view `f` of the state: whatever its effect keeps. -/
theorem busWrite_keeps {α : Type} (f : State → α) {e : State → State} (h : busWrite s e = .next t)
    (he : f (e s) = f s) : f t = f s := by
  rcases busWrite_cases h with ⟨-, rfl⟩ | ⟨-, rfl⟩
  · rfl
  · exact he

/-- What a size-checked effect keeps, for any view `f` of the state: what both its fault and its effect keep. -/
theorem sizeChecked_keeps {α : Type} (f : State → α) {legal : Bool} {info : Word} {e : State → State}
    (hr : f (raise codeInvalidSize info s) = f s) (he : f (e s) = f s) : f (sizeChecked legal info e s) = f s := by
  cases legal with
  | false => exact hr
  | true => exact he

/-- The parameters and the window tag together, so that one case split over the instructions speaks of both. An
`abbrev`, so that the kernel compares the two fields and not the whole states. -/
abbrev paramsAndTag (s : State) : Params × Word := (s.params, s.winN)

theorem paramsAndTag_raise (code info : Word) (s : State) : paramsAndTag (raise code info s) = paramsAndTag s := by
  simp [paramsAndTag]

theorem paramsAndTag_sizeChecked {legal : Bool} {info : Word} {e : State → State}
    (he : paramsAndTag (e s) = paramsAndTag s) : paramsAndTag (sizeChecked legal info e s) = paramsAndTag s :=
  sizeChecked_keeps _ (paramsAndTag_raise ..) he

theorem paramsAndTag_writeReg (r : Reg) (addr v : Word) (s : State) :
    paramsAndTag (writeReg r addr v s) = paramsAndTag s := by
  cases r with
  | fftSize | specLen => exact paramsAndTag_sizeChecked rfl
  | cmd | sampleRate | updateIntervalMs | maxHistory | minFreqHz | maxFreqHz | tickRange | tickCount | mapArg => rfl
  | status | errCode | errInfo | effIntervalMs | histLen | writePos | winN | zmin | zmax | peak | tickStep | tickSub
  | mapRes | hsnapLen | wsnapPos | srcCount | nmaxR | hcapR => exact paramsAndTag_raise ..

theorem paramsAndTag_doWrite (addr v : Word) (s : State) : paramsAndTag (doWrite addr v s) = paramsAndTag s := by
  unfold doWrite
  split
  case h_2 r _ => exact paramsAndTag_writeReg r addr v s
  case h_3 => rfl
  all_goals exact paramsAndTag_raise ..

theorem paramsAndTag_doRead (addr : Word) (s : State) : paramsAndTag (doRead addr s) = paramsAndTag s := by
  unfold doRead
  split
  · rfl
  · split
    · rfl
    · exact paramsAndTag_raise codeBusError addr s

/-- Every instruction but WINGEN and CYCLE keeps the parameters and the window tag. -/
theorem exec_keeps_paramsAndTag {i : Instr} (hi : ¬ (i = .cycle ∨ ∃ n, i = .wingen n)) (h : exec i s = .next t) :
    paramsAndTag t = paramsAndTag s := by
  cases i with
  | cycle => exact absurd (.inl rfl) hi
  | wingen n => exact absurd (.inr ⟨n, rfl⟩) hi
  | pcm2f | wmul | xform | magn | hpush | wwrite | wrFftSize | wrSpecLen =>
    exact busWrite_keeps _ h (paramsAndTag_sizeChecked rfl)
  | select | hsnap | wsnap | wrMaxHistory => exact busWrite_keeps _ h rfl
  | zoom => exact busWrite_keeps _ h (congrArg paramsAndTag (doZoom_frame s) :)
  | build => exact busWrite_keeps _ h (congrArg paramsAndTag (doBuild_frame s) :)
  | tick => exact busWrite_keeps _ h (congrArg paramsAndTag (doTick_frame s) :)
  | f2bin => exact busWrite_keeps _ h (congrArg paramsAndTag (doF2bin_frame s) :)
  | bin2f => exact busWrite_keeps _ h (congrArg paramsAndTag (doBin2f_frame s) :)
  | start => exact busWrite_keeps _ h (congrArg paramsAndTag (doStart_frame s) :)
  | stop => exact busWrite_keeps _ h (congrArg paramsAndTag (releaseSource_frame s) :)
  | wr addr data => exact busWrite_keeps _ h (paramsAndTag_doWrite addr data s)
  | rd addr =>
    obtain rfl := Host.Outcome.next.inj h
    exact paramsAndTag_doRead addr s

/-- No instruction changes the parameters (00_scope.md R7). -/
theorem exec_keeps_params {i : Instr} (h : exec i s = .next t) : t.params = s.params := by
  by_cases hi : i = .cycle ∨ ∃ n, i = .wingen n
  · rcases hi with rfl | ⟨n, rfl⟩
    · exact busWrite_keeps _ h (congrArg State.params (doCycle_frame s) :)
    · exact busWrite_keeps _ h (sizeChecked_keeps _ (raise_params ..) rfl)
  · exact congrArg Prod.fst (exec_keeps_paramsAndTag hi h)

/-- No step changes the parameters, whatever it takes off the bus (00_scope.md R7). -/
theorem step_keeps_params (h : step s = .next t) : t.params = s.params := by
  unfold step at h
  split at h
  · cases h
  case h_2 rest _ =>
    obtain rfl := Host.Outcome.next.inj h
    rfl
  case h_3 x rest _ =>
    cases hd : decode x with
    | ok i =>
      rw [hd] at h
      exact exec_keeps_params (s := fetched rest s) h
    | illegalOpcode w | nonzeroField w =>
      rw [hd] at h
      exact busWrite_keeps (s := fetched rest s) State.params h (raise_params ..)

/-- Settles O49: Reset and every instruction keep the parameters; every instruction but WINGEN and CYCLE keeps WIN_N. -/
theorem parametersAndWindowTagAreStable : Obligations.ParametersAndWindowTagAreStable := by
  refine ⟨fun _ _ => step_keeps_params, fun i s t h hw => ?_⟩
  by_contra hi
  exact hw (congrArg Prod.snd (exec_keeps_paramsAndTag hi h))

end Sys2Proof.Machine

/-! SUPPORT. The machine's COS32 and SIN32 obey the exact points and the accuracy of 40_numerics.md R144 and R145. The
accuracy away from zero is that of the free pair; at a zero the exact point is the real function's own value. -/

namespace Sys2Proof.Machine

theorem isFinite_of_isZero {x : Word} (h : isZero x = true) : isFinite x = true := by
  rw [isFinite_iff, (isZero_iff x).1 h]
  decide

theorem value_of_isZero {x : Word} (h : isZero x = true) : value x = 0 := by
  have hm : magUnits 0 = 0 := rfl
  have hr : (value x : ℝ) = 0 := by simp [value_eq, (isZero_iff x).1 h, hm]
  exact_mod_cast hr

theorem value_f1 : value f1 = 1 := by decide +kernel

theorem trig32_cos_of_isZero {x : Word} (h : isZero x = true) : trig32.cos x = f1 := if_pos h

theorem trig32_sin_of_isZero {x : Word} (h : isZero x = true) : trig32.sin x = x := if_pos h

theorem trig32_cos_of_isFinite {x : Word} (hz : isZero x ≠ true) (hf : isFinite x = true) :
    trig32.cos x = cosFree x := (if_neg hz).trans (if_pos hf)

theorem trig32_sin_of_isFinite {x : Word} (hz : isZero x ≠ true) (hf : isFinite x = true) :
    trig32.sin x = sinFree x := (if_neg hz).trans (if_pos hf)

/-- The machine's pair obeys 40_numerics.md R145, the exact points included. -/
theorem trig32_accurate : trig32.Accurate where
  cos_near x := by
    intro hf hx
    by_cases hz : isZero x = true
    · rw [trig32_cos_of_isZero hz, value_of_isZero hz, value_f1]
      exact ⟨rfl, by simp⟩
    · rw [trig32_cos_of_isFinite hz hf]
      exact cosFree_near x hf hx
  sin_near x := by
    intro hf hx
    by_cases hz : isZero x = true
    · rw [trig32_sin_of_isZero hz, value_of_isZero hz]
      exact ⟨hf, by simp⟩
    · rw [trig32_sin_of_isFinite hz hf]
      exact sinFree_near x hf hx

/-- Settles O59: the exact points are put in by `withExactPoints`, and the pair is accurate. -/
theorem trigObeysExactPointsAndAccuracy : Obligations.TrigObeysExactPointsAndAccuracy := by
  have he : trig32.Exact := trig_exact _
  have heps : (1 / 2 ^ 23 : ℝ) = 2⁻¹ ^ 23 := by norm_num
  refine ⟨he.cos_zero, he.cos_negZero, he.sin_zero, he.sin_negZero,
    fun x hx => ⟨he.cos_nonfinite x hx, he.sin_nonfinite x hx⟩, fun x hf hx => ?_⟩
  obtain ⟨hcf, hc⟩ := trig32_accurate.cos_near x hf hx
  obtain ⟨hsf, hs⟩ := trig32_accurate.sin_near x hf hx
  rw [heps]
  exact ⟨hcf, hsf, hc, hs⟩

end Sys2Proof.Machine

/-! SUPPORT. One step of the block, and the invariant of 10_state.md R62 along it. -/

namespace Sys2Proof.Machine

variable {s t : State}

/-- Everything a step that answers a state can do: Reset, an instruction, or a word that is no command
(20_memory.md R71, R80; 30_encoding.md R107; 70_reset_and_hazards.md R370). -/
theorem step_cases (h : step s = .next t) :
    (∃ rest, s.bus = .reset :: rest ∧ t = takeReset (fetched rest s)) ∨
    (∃ x rest i, s.bus = .txn x :: rest ∧ decode x = .ok i ∧ exec i (fetched rest s) = .next t) ∨
    (∃ x rest w, s.bus = .txn x :: rest ∧ (decode x = .illegalOpcode w ∨ decode x = .nonzeroField w) ∧
      illegalCommand w (fetched rest s) = .next t) := by
  unfold step at h
  split at h
  · cases h
  case h_2 rest hb => exact .inl ⟨rest, hb, (Host.Outcome.next.inj h).symm⟩
  case h_3 x rest hb =>
    cases hd : decode x with
    | ok i => exact .inr (.inl ⟨x, rest, i, hb, hd, by rwa [hd] at h⟩)
    | illegalOpcode w => exact .inr (.inr ⟨x, rest, w, hb, .inl hd, by rwa [hd] at h⟩)
    | nonzeroField w => exact .inr (.inr ⟨x, rest, w, hb, .inr hd, by rwa [hd] at h⟩)

/-- The reset state of every legal pair of parameters satisfies the invariant (70_reset_and_hazards.md R371). -/
theorem inv_resetOf {p : Params} (h : p.legal = true) : Inv (State.resetOf p) := by
  obtain ⟨hpow, h2, hmax, hcap, -⟩ := (params_legal_iff p).1 h
  have hfft : (State.resetOf p).fftSize.toNat = min 512 p.nmax := setWidth_toNat (by omega)
  have hhist : (State.resetOf p).maxHistory.toNat = p.hcap := setWidth_toNat (by have := hcap_le h; omega)
  have hmin : isPow2 (min 512 p.nmax) = true := by
    rcases min_choice 512 p.nmax with hm | hm <;> rw [hm]
    · decide
    · exact hpow
  exact {
    params_legal := h
    fftSize_legal := by rw [hfft]; exact ⟨hmin, by omega, min_le_right _ _⟩
    maxHistory_range := by rw [hhist]; exact ⟨hcap, le_rfl⟩
    hist_within_cap := Nat.zero_le _
    zoom_range := ⟨Nat.zero_lt_one, (Nat.le_div_iff_mul_le (by decide)).2 h2⟩
    specLen_range := Nat.zero_le _
    writePos_range := (0#10).isLt
    winN_legal := .inl rfl
    faulted_not_running := fun hf => nomatch hf
    hist_frames := fun _ hf => nomatch hf
    bank_frames := fun _ hf => nomatch hf
    errCode_iff := by simp [State.resetOf]
    errCode_codes := .inl rfl
    bank_within_slots := Nat.zero_le _
    events_match := rfl
    past_released := rfl
    mem_wf := rfl
    mem_mapped := fun _ hc => nomatch hc
    pcm_samples := fun _ hc => nomatch hc
    wave_wf := rfl
    waveBank_wf := rfl }

/-- Reset keeps the invariant: the state is that of reset, and a source that was held is released
(70_reset_and_hazards.md R370; 20_memory.md R89). -/
theorem Inv.takeReset (h : Inv s) : Inv (takeReset s) :=
  { inv_resetOf h.params_legal with
    past_released := releasedAll_append h.past_released (releasedAll_releaseSource h) }

/-- A length that WMUL accepts fits the sample memories, because WIN_N does (10_state.md R62, I7). -/
theorem Inv.legalWindowed_le (h : Inv s) {n : Nat} (hn : legalWindowed s.winN n = true) : n ≤ s.params.nmax := by
  simp only [legalWindowed, Bool.and_eq_true, beq_iff_eq] at hn
  exact hn.2 ▸ h.winN_le

/-- The axis mapper writes only result registers, of which the invariant does not speak (46_axis_mapper.md). -/
theorem Inv.doTick (h : Inv s) : Inv (doTick s) := by rw [doTick_frame]; exact { h with }

theorem Inv.doF2bin (h : Inv s) : Inv (doF2bin s) := by rw [doF2bin_frame]; exact { h with }

theorem Inv.doBin2f (h : Inv s) : Inv (doBin2f s) := by rw [doBin2f_frame]; exact { h with }

/-- Every instruction keeps the invariant: the effect behind its size check does, and so does the fault entry. -/
theorem Inv.exec (h : Inv s) {i : Instr} (ht : exec i s = .next t) : Inv t := by
  cases i with
  | wingen n => exact h.busWrite (fun _ => h.sizeChecked _ h.doWingen) ht
  | pcm2f n => exact h.busWrite (fun _ => h.sizeChecked _ fun hl => h.doPcm2f ((legalCount_iff _ _).1 hl)) ht
  | wmul n => exact h.busWrite (fun _ => h.sizeChecked _ fun hl => h.doWmul (h.legalWindowed_le hl)) ht
  | xform n =>
    refine h.busWrite (fun _ => h.sizeChecked _ fun hl => ?_) ht
    obtain ⟨hpow, -, hmax⟩ := (legalPow2_iff _ _ _).1 hl
    exact h.doXform hpow hmax
  | magn n =>
    refine h.busWrite (fun _ => h.sizeChecked _ fun hl => ?_) ht
    obtain ⟨-, -, hmax⟩ := (legalPow2_iff _ _ _).1 hl
    exact h.doMagn hmax
  | zoom => exact h.busWrite (fun _ => h.doZoom) ht
  | select => exact h.busWrite (fun _ => h.doSelect) ht
  | build => exact h.busWrite (fun _ => h.doBuild) ht
  | hpush => exact h.busWrite (fun _ => h.sizeChecked _ fun hl => h.doHpush (by simpa using hl)) ht
  | hsnap => exact h.busWrite (fun _ => h.doHsnap) ht
  | wwrite n => exact h.busWrite (fun _ => h.sizeChecked _ fun _ => h.doWwrite _) ht
  | wsnap => exact h.busWrite (fun _ => h.doWsnap) ht
  | tick => exact h.busWrite (fun _ => h.doTick) ht
  | f2bin => exact h.busWrite (fun _ => h.doF2bin) ht
  | bin2f => exact h.busWrite (fun _ => h.doBin2f) ht
  | start => exact h.busWrite h.doStart ht
  | stop => exact h.busWrite (fun _ => h.doStop) ht
  | cycle => exact h.busWrite (fun _ => h.doCycle) ht
  | wrFftSize v => exact h.busWrite (fun _ => h.doWriteFftSize v) ht
  | wrMaxHistory v => exact h.busWrite (fun _ => h.doWriteMaxHistory v) ht
  | wrSpecLen v => exact h.busWrite (fun _ => h.doWriteSpecLen v) ht
  | wr addr data => exact h.busWrite (fun _ => h.doWrite addr data) ht
  | rd addr =>
    obtain rfl := Host.Outcome.next.inj ht
    exact h.doRead addr

/-- Settles O12: taking an input off the bus keeps the invariant, and so does each of the three things a step does
with it: Reset, an instruction, the fault of an illegal word. -/
theorem stepKeepsInvariant : Obligations.StepKeepsInvariant := by
  intro s t h ht
  rcases step_cases ht with ⟨rest, -, rfl⟩ | ⟨-, rest, i, -, -, hi⟩ | ⟨-, rest, w, -, -, hw⟩
  · exact (h.fetched rest).takeReset
  · exact (h.fetched rest).exec hi
  · exact (h.fetched rest).busWrite (fun _ => (h.fetched rest).raise (.inr (.inl rfl)) w) hw

end Sys2Proof.Machine

/-! SUPPORT. The registers as a host sees them: what they read as, at reset and at every other time, the layout of
STATUS, and the checked writes (10_state.md R21 to R51, R63). -/

namespace Sys2Proof.Machine

variable {s : State}

/-- EFF_INTERVAL_MS is the larger of UPDATE_INTERVAL_MS and the floor (10_state.md R33). -/
theorem effInterval_eq_max (v : Word) : effInterval v = BitVec.ofNat 32 (max v.toNat 20) := by
  unfold effInterval
  split
  case isTrue h => rw [max_eq_right_of_lt h]
  case isFalse h => rw [max_eq_left (not_lt.1 h), BitVec.ofNat_toNat, BitVec.setWidth_eq]

/-- The bus address of the register at offset `k` (20_memory.md R74, region 0). -/
theorem locate_register (p : Params) {k : Nat} {r : Reg} (h : regTable[k]? = some r) :
    locate p (BitVec.ofNat 32 k) = some (.csr r) := by
  have hk : k < 29 := (List.getElem?_eq_some_iff.1 h).1
  have hl : locate p (BitVec.ofNat 32 k) = locateIn p 0 k := by
    simpa using locate_ofNat p (r := 0) (off := k) (by decide) (by omega)
  rw [hl, locateIn, h, Option.map_some]

/-- A read of a mapped address returns the word of its location, faulted or not (47_pipeline_and_system.md R298). -/
theorem exec_rd_of_locate {a : Word} {loc : Loc} (h : locate s.params a = some loc) :
    exec (.rd a) s = .next { s with readData := readLoc s loc } := by
  simp only [exec, execRd, doRead, h]

/-- A read at a register's offset returns what the register reads as. -/
theorem exec_rd_register {k : Nat} {r : Reg} (h : regTable[k]? = some r) :
    exec (.rd (BitVec.ofNat 32 k)) s = .next { s with readData := readReg s r } :=
  exec_rd_of_locate (locate_register s.params h)

/-- Settles O45: the list of the statement is the register table, each register at its offset with its word. -/
theorem registerReadsReturnTheirWords : Obligations.RegisterReadsReturnTheirWords := by
  intro s x hx
  have htable : x ∈ regTable.zipIdx.map fun e => (BitVec.ofNat 32 e.2, readReg s e.1) := by
    simpa [regTable, readReg, effInterval_eq_max, BitVec.ofNat_toNat] using hx
  obtain ⟨e, he, rfl⟩ := List.mem_map.1 htable
  exact exec_rd_register (List.mem_zipIdx_iff_getElem?.1 he)

/-- A concatenation as a number: the upper part is shifted past the lower one. -/
theorem toNat_append_eq_add {m n : Nat} (x : BitVec m) (y : BitVec n) :
    (x ++ y).toNat = x.toNat * 2 ^ n + y.toNat := by
  rw [BitVec.toNat_append, ← Nat.shiftLeft_add_eq_or_of_lt y.isLt, Nat.shiftLeft_eq]

/-- STATUS as a sum of its fields, each at the weight of its lowest bit (10_state.md R26). -/
theorem toNat_statusWord (s : State) :
    (statusWord s).toNat = (pstateCode s.pstate).toNat + s.faulted.toNat * 4 + (cycCode s.cyc).toNat * 8 +
      s.degen.toNat * 32 + s.srcUnav.toNat * 64 := by
  simp only [statusWord, toNat_append_eq_add, BitVec.toNat_ofBool, BitVec.toNat_ofNat]
  omega

/-- Settles O44: STATUS is the sum of its fields, and each field takes the values of its codes. -/
theorem statusWordLayout : Obligations.StatusWordLayout := by
  intro s
  rw [toNat_statusWord]
  congr 4
  · cases s.pstate <;> rfl
  · cases s.faulted <;> rfl
  · cases s.cyc <;> rfl
  · cases s.degen <;> rfl
  · cases s.srcUnav <;> rfl

/-- Idle, no fault, no cycle outcome, both flags clear (10_state.md R63). -/
theorem statusWord_resetOf (p : Params) : statusWord (State.resetOf p) = 0#32 :=
  BitVec.eq_of_toNat_eq (toNat_statusWord (State.resetOf p))

/-- Settles O10: each register's word at reset, row by row, and the stores' empty lists. -/
theorem resetValues : Obligations.ResetValues := by
  intro p _
  refine ⟨fun x hx => ?_, rfl, rfl, rfl, fun _ => rfl, fun _ => rfl⟩
  obtain rfl | hx := List.mem_cons.1 hx
  · rfl
  obtain rfl | hx := List.mem_cons.1 hx
  · exact statusWord_resetOf p
  · fin_cases hx <;> rfl

/-- Settles O48: with FAULT clear each write is its size check, which stores a legal value and faults on any other. -/
theorem checkedRegisterWrites : Obligations.CheckedRegisterWrites := by
  intro s v hf
  have hfft : exec (.wrFftSize v) s = .next (doWriteFftSize v s) := busWrite_clear hf _
  have hspec : exec (.wrSpecLen v) s = .next (doWriteSpecLen v s) := busWrite_clear hf _
  rw [hfft, hspec]
  refine ⟨fun h => ?_, fun h => ?_, fun h => ?_, fun h => ?_⟩
  · exact congrArg _ (sizeChecked_legal ((legalPow2_iff _ _ _).2 h) _ _ _)
  · exact congrArg _ (sizeChecked_illegal (Bool.eq_false_iff.2 (mt (legalPow2_iff _ _ _).1 h)) _ _ _)
  · exact congrArg _ (sizeChecked_legal (decide_eq_true h) _ _ _)
  · exact congrArg _ (sizeChecked_illegal (decide_eq_false (not_le.2 h)) _ _ _)

end Sys2Proof.Machine

/-! SUPPORT. The memory and the snapshot banks as a host reads them, that a read of a mapped address has no other
effect, and what a step does with a transaction (20_memory.md R71 to R76, R80, R86; 47_pipeline_and_system.md R298). -/

namespace Sys2Proof.Machine

variable {s : State} {p : Params}

/-- A step on a transaction is what it decodes to, on the state that has taken it off the bus (20_memory.md R71). -/
theorem step_eq_runDecoded {x : Txn} {rest : List BusInput} (h : s.bus = .txn x :: rest) :
    step s = runDecoded (decode x) (fetched rest s) := by
  simp only [step, h]

/-- Settles O4: the step runs the decoded transaction, and what decodes to an instruction runs as that instruction. -/
theorem stepRunsDecodedInstruction : Obligations.StepRunsDecodedInstruction := by
  intro s x rest i hbus hdec
  rw [step_eq_runDecoded hbus, hdec]
  rfl

/-- Settles O14: a mapped address names a location, and a read of a location returns its word and does nothing else. -/
theorem readOfMappedAddressChangesNothing : Obligations.ReadOfMappedAddressChangesNothing := by
  intro s a ha
  obtain ⟨loc, hloc⟩ := Option.isSome_iff_exists.1 ((locate_isSome_iff s.params a).2 ha)
  exact ⟨readLoc s loc, exec_rd_of_locate hloc⟩

/-- The bus address of a slot of the ring's snapshot (20_memory.md R74, region 9). -/
theorem locate_waveBank (p : Params) {j : Nat} (hj : j < 1024) :
    locate p (BitVec.ofNat 32 (0x09000000 + j)) = some (.waveBank j) :=
  (locate_ofNat p (r := 9) (by decide) (by omega)).trans (if_pos hj)

/-- Word `j` of frame `i` lies within the history bank: the frames stand one after the other, `NMAX/2` words each
(20_memory.md R75). -/
theorem histOffset_lt {i j : Nat} (hi : i < p.hcap) (hj : j < p.nmax / 2) :
    i * (p.nmax / 2) + j < p.hcap * (p.nmax / 2) :=
  calc i * (p.nmax / 2) + j < i * (p.nmax / 2) + p.nmax / 2 := Nat.add_lt_add_left hj _
    _ = (i + 1) * (p.nmax / 2) := (Nat.succ_mul _ _).symm
    _ ≤ p.hcap * (p.nmax / 2) := Nat.mul_le_mul_right _ hi

/-- The bus address of a word of a snapshot frame (20_memory.md R74, R75, region 0xA). -/
theorem locate_histData (h : p.legal = true) {i j : Nat} (hi : i < p.hcap) (hj : j < p.nmax / 2) :
    locate p (BitVec.ofNat 32 (0x0A000000 + i * (p.nmax / 2) + j)) = some (.histData i j) := by
  obtain ⟨-, -, -, -, hbank⟩ := (params_legal_iff p).1 h
  have hlt := histOffset_lt hi hj
  have hframe : (i * (p.nmax / 2) + j) / (p.nmax / 2) = i := by
    rw [Nat.add_comm, Nat.add_mul_div_right _ _ (by omega), Nat.div_eq_of_lt hj, Nat.zero_add]
  have hword : (i * (p.nmax / 2) + j) % (p.nmax / 2) = j := by
    rw [Nat.mul_add_mod_self_right, Nat.mod_eq_of_lt hj]
  rw [Nat.add_assoc]
  refine (locate_ofNat p (r := 10) (by decide) (hlt.trans_le hbank)).trans ((if_pos hlt).trans ?_)
  rw [hframe, hword]

/-- The bus address of the length of a snapshot frame (20_memory.md R74, R75, region 0xB). -/
theorem locate_histFlen (h : p.legal = true) {i : Nat} (hi : i < p.hcap) :
    locate p (BitVec.ofNat 32 (0x0B000000 + i)) = some (.histFlen i) :=
  (locate_ofNat p (r := 11) (by decide) (hi.trans_le (hcap_le h))).trans (if_pos hi)

/-- Where the snapshot has a word, that word is read (20_memory.md R75). -/
theorem readLoc_histData {i j : Nat} {f : Frame} {v : Word} (hf : s.hsnapBank[i]? = some f) (hv : f[j]? = some v) :
    readLoc s (.histData i j) = v := by
  simp only [readLoc, hf, hv]

/-- A PCM element holds a 16-bit sample: a stored one by the invariant, an unwritten one by its reset value
(10_state.md R53; 93_implementation_defined.md U1). -/
theorem Inv.peek_pcm (h : Inv s) {a : Nat} (ha : a < scratchBase .sig) : pcmWord (peek s a) = peek s a := by
  unfold peek
  cases hl : Memory.lookup s.mem a with
  | some v => rw [Option.getD_some, h.pcm_samples _ (mem_of_lookup hl) ha]
  | none => rw [Option.getD_none, unwritten, if_pos ha, pcmWord_pcmWord]

/-- The PCM memory ends below the next region (20_memory.md R74). -/
theorem pcmAddr_lt (h : p.legal = true) {i : Nat} (hi : i < p.nmax) : scratchBase .pcm + i < scratchBase .sig := by
  obtain ⟨-, -, hmax, -, -⟩ := (params_legal_iff p).1 h
  simp only [scratchBase]
  omega

/-- Settles O46: each address is the location it is meant to be, a read returns the word of its location, and a PCM
element is a sample. -/
theorem memoryReadsReturnTheirWords : Obligations.MemoryReadsReturnTheirWords := by
  intro s hp
  refine ⟨fun m i hi => ?scratch, fun hinv i hi => ?pcm, fun j hj => ?ring, fun i j hi hj => ?frames,
    fun i hi => ?lengths⟩
  case scratch => exact exec_rd_of_locate (locate_scratch hp m hi)
  case pcm => exact (hinv.peek_pcm (pcmAddr_lt hp hi)).symm
  case ring => exact exec_rd_of_locate (locate_waveBank s.params hj)
  case frames => exact ⟨_, exec_rd_of_locate (locate_histData hp hi hj), fun f v => readLoc_histData⟩
  case lengths => exact exec_rd_of_locate (locate_histFlen hp hi)

end Sys2Proof.Machine

/-! SUPPORT. The encoding: a command word is its opcode and its operand, what the decoder answers to a word written to
CMD, and that decoder and encoder undo each other (30_encoding.md R101 to R105, R110). -/

namespace Sys2Proof.Machine

@[simp] theorem opcOf_commandWord (opc : BitVec 8) (n : Len) : opcOf (commandWord opc n) = opc :=
  BitVec.extractLsb'_append_eq_left

@[simp] theorem lenOf_commandWord (opc : BitVec 8) (n : Len) : lenOf (commandWord opc n) = n :=
  BitVec.extractLsb'_append_eq_right

/-- The two fields of a word make up the word (30_encoding.md R101, R102). -/
theorem commandWord_opcOf_lenOf (w : Word) : commandWord (opcOf w) (lenOf w) = w :=
  (BitVec.extractLsb'_append_extractLsb'_eq_extractLsb' rfl).trans BitVec.extractLsb'_eq_self

theorem toNat_opcOf (w : Word) : (opcOf w).toNat = w.toNat / 2 ^ 24 := by
  simp only [opcOf, BitVec.extractLsb'_toNat, Nat.shiftRight_eq_div_pow]
  omega

theorem toNat_lenOf (w : Word) : (lenOf w).toNat = w.toNat % 2 ^ 24 := by
  simp only [lenOf, BitVec.extractLsb'_toNat, Nat.shiftRight_zero]

/-- A write to CMD is decoded by its word alone (30_encoding.md R104). -/
@[simp] theorem decode_write_addrCmd (w : Word) : decode (.write addrCmd w) = decodeCommand w := rfl

@[simp] theorem decode_encodeCommand (opc : BitVec 8) (n : Len) :
    decode (encodeCommand opc n) = decodeCommand (commandWord opc n) := rfl

/-- A write to CMD is the encoding with the word's own fields, the opcode given as a number (30_encoding.md R108). -/
theorem encodeCommand_lenOf {w : Word} {opc : BitVec 8} (h : (opcOf w).toNat = opc.toNat) :
    encodeCommand opc (lenOf w) = .write addrCmd w := by
  rw [encodeCommand, ← BitVec.eq_of_toNat_eq h, commandWord_opcOf_lenOf]

/-- The generic write is the one to none of the four addresses with rows of their own (30_encoding.md R104). -/
theorem wf_wr_iff (addr data : Word) : (Instr.wr addr data).wf = true ↔
    addr ≠ addrCmd ∧ addr ≠ addrFftSize ∧ addr ≠ addrMaxHistory ∧ addr ≠ addrSpecLen := by
  simp only [Instr.wf, Bool.and_eq_true, bne_iff_ne, and_assoc]

/-- Illegality in terms of the two fields of the word (30_encoding.md R105). -/
theorem illegalWord_iff_fields (w : Word) :
    IllegalWord w ↔ (opcOf w).toNat = 0 ∨ 0x12 < (opcOf w).toNat ∨ (opcOf w).toNat ∈ c0Opcodes ∧ lenOf w ≠ 0#24 := by
  rw [IllegalWord, toNat_opcOf, Ne, Ne, ← BitVec.toNat_inj, toNat_lenOf, BitVec.toNat_ofNat, Nat.zero_mod]

/-- A word with an opcode of the map is legal, if its operand is 0 wherever the command has none. -/
theorem not_illegalWord {w : Word} {k : Nat} (h : (opcOf w).toNat = k) (hk : k ≠ 0 ∧ k ≤ 0x12)
    (hz : k ∈ c0Opcodes → lenOf w = 0#24) : ¬ IllegalWord w := by
  rw [illegalWord_iff_fields, h]
  rintro (h0 | hgt | ⟨hc0, hnz⟩)
  · exact hk.1 h0
  · exact not_lt.2 hk.2 hgt
  · exact hnz (hz hc0)

/-- What the decoder may answer to a word written to CMD: an instruction whose encoding that write is, or, to an
illegal word, one of the two refusals, which name the word (30_encoding.md R104, R105). -/
inductive CommandAnswer (w : Word) : Decoded → Prop where
  | command {i : Instr} (henc : encode i = .write addrCmd w) (hwf : i.wf = true) (hlegal : ¬ IllegalWord w) :
      CommandAnswer w (.ok i)
  | illegalOpcode (hw : IllegalWord w) : CommandAnswer w (.illegalOpcode w)
  | nonzeroField (hw : IllegalWord w) : CommandAnswer w (.nonzeroField w)

/-- A command with an operand takes every operand (30_encoding.md R102). -/
theorem CommandAnswer.withOperand {w : Word} {i : Instr} {opc : BitVec 8}
    (henc : encode i = encodeCommand opc (lenOf w)) (hwf : i.wf = true) (h : (opcOf w).toNat = opc.toNat)
    (hk : opc.toNat ≠ 0 ∧ opc.toNat ≤ 0x12) (hc0 : opc.toNat ∉ c0Opcodes) : CommandAnswer w (.ok i) :=
  .command (henc.trans (encodeCommand_lenOf h)) hwf (not_illegalWord h hk fun hmem => absurd hmem hc0)

/-- A C0 command takes the operand 0 alone (30_encoding.md R101, R105 b). -/
theorem CommandAnswer.withoutOperand {w : Word} {i : Instr} {opc : BitVec 8}
    (henc : encode i = encodeCommand opc 0#24) (hwf : i.wf = true) (h : (opcOf w).toNat = opc.toNat)
    (hk : opc.toNat ≠ 0 ∧ opc.toNat ≤ 0x12) (hc0 : opc.toNat ∈ c0Opcodes) : CommandAnswer w (decodeC0 w i) := by
  unfold decodeC0
  split
  case isTrue hz => exact .command (henc.trans (hz ▸ encodeCommand_lenOf h)) hwf (not_illegalWord h hk fun _ => hz)
  case isFalse hnz => exact .nonzeroField ((illegalWord_iff_fields w).2 (.inr (.inr ⟨h ▸ hc0, hnz⟩)))

/-- The opcode map, row by row: a command with an operand, a C0 command, no command. -/
theorem commandAnswer_decodeCommand (w : Word) : CommandAnswer w (decodeCommand w) := by
  unfold decodeCommand
  split
  case h_1 h | h_2 h | h_3 h | h_4 h | h_5 h | h_11 h => exact .withOperand rfl rfl h (by decide) (by decide)
  case h_6 h | h_7 h | h_8 h | h_9 h | h_10 h | h_12 h | h_13 h | h_14 h | h_15 h | h_16 h | h_17 h | h_18 h =>
    exact .withoutOperand rfl rfl h (by decide) (by decide)
  case h_19 =>
    simp only [imp_false] at *
    have hopc : (opcOf w).toNat = 0 ∨ 0x12 < (opcOf w).toNat := by omega
    exact .illegalOpcode ((illegalWord_iff_fields w).2 (hopc.imp_right .inl))

/-- The decoder accepts exactly the words that are not illegal (30_encoding.md R105). -/
theorem illegalWord_iff_decodeCommand_ne_ok (w : Word) : IllegalWord w ↔ ∀ i, decodeCommand w ≠ .ok i := by
  have hans := commandAnswer_decodeCommand w
  generalize decodeCommand w = d at hans ⊢
  cases hans with
  | command henc hwf hlegal => exact iff_of_false hlegal fun h => h _ rfl
  | illegalOpcode hw | nonzeroField hw => exact iff_of_true hw (by simp)

/-- Whichever refusal an illegal word gets, it does what R335 says (60_exceptions.md). -/
theorem runDecoded_illegalWord {w : Word} (hw : IllegalWord w) (s : State) :
    runDecoded (decodeCommand w) s = illegalCommand w s := by
  have hans := commandAnswer_decodeCommand w
  generalize decodeCommand w = d at hans ⊢
  cases hans with
  | command henc hwf hlegal => exact absurd hw hlegal
  | illegalOpcode | nonzeroField => rfl

/-- Settles O1: the decoder reads back the opcode and the operand of a command, and the address of a bus operation. -/
theorem decodeOfEncodeIsIdentity : Obligations.DecodeOfEncodeIsIdentity := by
  intro i hwf
  cases i with
  | wingen n | pcm2f n | wmul n | xform n | magn n | wwrite n => simp [encode, decodeCommand]
  | zoom | select | build | hpush | hsnap | wsnap | tick | f2bin | bin2f | start | stop | cycle =>
    simp [encode, decodeCommand, decodeC0]
  | wrFftSize v | wrMaxHistory v | wrSpecLen v => rfl
  | wr addr data => simp [encode, decode, decodeWrite, (wf_wr_iff addr data).1 hwf]
  | rd addr => rfl

/-- Settles O2: a write to CMD by the opcode map, any other write by its address, a read as it stands. -/
theorem encodeOfDecodeIsIdentity : Obligations.EncodeOfDecodeIsIdentity := by
  intro x i h
  cases x with
  | read addr =>
    cases h
    exact ⟨rfl, rfl⟩
  | write addr data =>
    simp only [decode, decodeWrite] at h
    split_ifs at h with hcmd hfft hhist hspec
    · have hans := commandAnswer_decodeCommand data
      rw [h] at hans
      obtain ⟨henc, hwf, -⟩ := hans
      exact ⟨hcmd ▸ henc, hwf⟩
    · cases h
      exact ⟨hfft ▸ rfl, rfl⟩
    · cases h
      exact ⟨hhist ▸ rfl, rfl⟩
    · cases h
      exact ⟨hspec ▸ rfl, rfl⟩
    · cases h
      exact ⟨rfl, (wf_wr_iff addr data).2 ⟨hcmd, hfft, hhist, hspec⟩⟩

/-- Settles O5: the step runs the refusal of the word, which with FAULT clear is the fault entry and nothing else. -/
theorem illegalWordRaisesIllegalCommand : Obligations.IllegalWordRaisesIllegalCommand := by
  refine ⟨fun s w rest hbus hw hf => ?_, .inl rfl, .inr (.inl (by decide)), illegalWord_iff_decodeCommand_ne_ok⟩
  calc step s = runDecoded (decodeCommand w) (fetched rest s) := step_eq_runDecoded hbus
    _ = illegalCommand w (fetched rest s) := runDecoded_illegalWord hw _
    _ = .next (raise codeIllegalCommand w (fetched rest s)) := busWrite_clear (s := fetched rest s) hf _

/-- Settles O3: each of the printed words is evaluated. -/
theorem workedEncodingsDecode : Obligations.WorkedEncodingsDecode := by
  unfold Obligations.WorkedEncodingsDecode
  decide

end Sys2Proof.Machine

/-! SUPPORT. The classes, the sign and the magnitude of a pattern (40_numerics.md R130, R141). A pattern is its sign and
its magnitude, and the classes are read off the magnitude, so `fneg` and `fabs` keep every class. -/

namespace Sys2Proof.Machine

variable {a b w : Word}

theorem toNat_eq_sign_add_fMag (w : Word) : w.toNat = (if fSign w then 2 ^ 31 else 0) + fMag w := by
  have hlt := w.isLt
  by_cases h : fSign w = true
  · rw [if_pos h, fMag]
    rw [fSign_iff] at h
    omega
  · rw [if_neg h, fMag]
    rw [fSign_iff] at h
    omega

theorem eq_of_fSign_of_fMag (hs : fSign a = fSign b) (hm : fMag a = fMag b) : a = b :=
  BitVec.eq_of_toNat_eq (by rw [toNat_eq_sign_add_fMag, toNat_eq_sign_add_fMag b, hs, hm])

theorem isNaN_of_isFinite (h : isFinite w = true) : isNaN w = false := by
  rw [Bool.eq_false_iff, ne_eq, isNaN_iff, not_lt]
  exact ((isFinite_iff w).1 h).le

theorem isInf_of_isFinite (h : isFinite w = true) : isInf w = false := by
  rw [Bool.eq_false_iff, ne_eq, isInf_iff]
  exact ((isFinite_iff w).1 h).ne

theorem isNaN_of_isInf (h : isInf w = true) : isNaN w = false := by
  rw [Bool.eq_false_iff, ne_eq, isNaN_iff, (isInf_iff w).1 h]
  exact lt_irrefl _

theorem isZero_of_isInf (h : isInf w = true) : isZero w = false := by
  rw [Bool.eq_false_iff, ne_eq, isZero_iff, (isInf_iff w).1 h]
  decide

theorem isZero_of_isNaN (h : isNaN w = true) : isZero w = false := by
  rw [Bool.eq_false_iff]
  exact fun hz => by simp [isNaN_of_isFinite (isFinite_of_isZero hz)] at h

@[simp] theorem fSign_fneg (w : Word) : fSign (fneg w) = !fSign w := by
  simp [fSign, fneg, BitVec.msb_xor, show (0x80000000#32).msb = true from rfl]

@[simp] theorem fMag_fneg (w : Word) : fMag (fneg w) = fMag w := by
  rw [fMag, fneg, BitVec.toNat_xor, Nat.xor_mod_two_pow]
  exact Nat.xor_zero _

@[simp] theorem fSign_fabs (w : Word) : fSign (fabs w) = false := by
  simp [fSign, fabs, BitVec.msb_and, show (0x7FFFFFFF#32).msb = false from rfl]

@[simp] theorem fMag_fabs (w : Word) : fMag (fabs w) = fMag w := by
  rw [fMag, fabs, BitVec.toNat_and, show (0x7FFFFFFF#32).toNat = 2 ^ 31 - 1 from rfl, Nat.and_two_pow_sub_one_eq_mod,
    Nat.mod_mod, fMag]

theorem isNaN_congr (h : fMag a = fMag b) : isNaN a = isNaN b := by rw [Bool.eq_iff_iff, isNaN_iff, isNaN_iff, h]

theorem isInf_congr (h : fMag a = fMag b) : isInf a = isInf b := by rw [Bool.eq_iff_iff, isInf_iff, isInf_iff, h]

theorem isFinite_congr (h : fMag a = fMag b) : isFinite a = isFinite b := by
  rw [Bool.eq_iff_iff, isFinite_iff, isFinite_iff, h]

@[simp] theorem isNaN_fneg (w : Word) : isNaN (fneg w) = isNaN w := isNaN_congr (fMag_fneg w)

@[simp] theorem isInf_fneg (w : Word) : isInf (fneg w) = isInf w := isInf_congr (fMag_fneg w)

@[simp] theorem isFinite_fneg (w : Word) : isFinite (fneg w) = isFinite w := isFinite_congr (fMag_fneg w)

@[simp] theorem fMag_infinity (neg : Bool) : fMag (infinity neg) = infMag := fMag_ofMag neg (by decide)

@[simp] theorem fSign_infinity (neg : Bool) : fSign (infinity neg) = neg := fSign_ofMag neg (by decide)

@[simp] theorem isInf_infinity (neg : Bool) : isInf (infinity neg) = true := (isInf_iff _).2 (fMag_infinity neg)

theorem eq_infinity_of_isInf (h : isInf w = true) : w = infinity (fSign w) :=
  eq_of_fSign_of_fMag (by simp) (by rw [fMag_infinity, (isInf_iff w).1 h])

@[simp] theorem isZero_ofMag_zero (neg : Bool) : isZero (ofMag neg 0) = true :=
  (isZero_iff _).2 (fMag_ofMag neg (by decide))

@[simp] theorem fSign_ofMag_zero (neg : Bool) : fSign (ofMag neg 0) = neg := fSign_ofMag neg (by decide)

end Sys2Proof.Machine

/-! SUPPORT. What each operation answers, class by class of its operands (40_numerics.md R132, R135, R136): one equation
per case, which the statements about arithmetic cite. -/

namespace Sys2Proof.Machine

variable {a b : Word} (d : Draw)

/-! The sum. -/

theorem fadd_of_isNaN (h : isNaN a = true ∨ isNaN b = true) : fadd d a b = nanOf d := by
  rw [← Bool.or_eq_true] at h
  exact if_pos h

theorem fadd_of_isInf_cancel (ha : isInf a = true) (hb : isInf b = true) (hs : fSign a ≠ fSign b) :
    fadd d a b = nanOf d := by
  simp [fadd, isNaN_of_isInf ha, isNaN_of_isInf hb, ha, hb, hs]

theorem fadd_of_isInf_left (ha : isInf a = true) (hb : isNaN b = false) (hs : isInf b = true → fSign a = fSign b) :
    fadd d a b = a := by
  simpa [fadd, isNaN_of_isInf ha, hb, ha] using fun hi hne => absurd (hs hi) hne

theorem fadd_of_isInf_right (ha : isFinite a = true) (hb : isInf b = true) : fadd d a b = b := by
  simp [fadd, isNaN_of_isFinite ha, isNaN_of_isInf hb, isInf_of_isFinite ha, hb]

theorem fadd_of_isFinite (ha : isFinite a = true) (hb : isFinite b = true) : fadd d a b =
    if signedUnits a + signedUnits b = 0 then ofMag (fSign a && fSign b) 0
    else ofMag (decide (signedUnits a + signedUnits b < 0)) (roundMag (signedUnits a + signedUnits b).natAbs 1) := by
  simp [fadd, isNaN_of_isFinite ha, isNaN_of_isFinite hb, isInf_of_isFinite ha, isInf_of_isFinite hb]

/-! The product. -/

theorem fmul_of_isNaN (h : isNaN a = true ∨ isNaN b = true) : fmul d a b = nanOf d := by
  rw [← Bool.or_eq_true] at h
  exact if_pos h

theorem fmul_of_isZero_of_isInf (ha : isZero a = true) (hb : isInf b = true) :
    fmul d a b = nanOf d ∧ fmul d b a = nanOf d := by
  simp [fmul, isNaN_of_isFinite (isFinite_of_isZero ha), isNaN_of_isInf hb, ha, hb]

theorem fmul_of_isInf (ha : isInf a = true) (hn : isNaN b = false) (hz : isZero b = false) :
    fmul d a b = infinity (fSign a != fSign b) ∧ fmul d b a = infinity (fSign a != fSign b) := by
  simp [fmul, isNaN_of_isInf ha, isZero_of_isInf ha, hn, hz, ha, bne_comm]

theorem fmul_of_isFinite (ha : isFinite a = true) (hb : isFinite b = true) :
    fmul d a b = ofMag (fSign a != fSign b) (roundMag (units a * units b) (2 ^ 149)) := by
  simp [fmul, isNaN_of_isFinite ha, isNaN_of_isFinite hb, isInf_of_isFinite ha, isInf_of_isFinite hb]

/-! The quotient. -/

theorem fdiv_of_isNaN (h : isNaN a = true ∨ isNaN b = true) : fdiv d a b = nanOf d := by
  rw [← Bool.or_eq_true] at h
  exact if_pos h

theorem fdiv_of_isInf_of_isInf (ha : isInf a = true) (hb : isInf b = true) : fdiv d a b = nanOf d := by
  simp [fdiv, isNaN_of_isInf ha, isNaN_of_isInf hb, ha, hb]

theorem fdiv_of_isInf_left (ha : isInf a = true) (hb : isFinite b = true) :
    fdiv d a b = infinity (fSign a != fSign b) := by
  simp [fdiv, isNaN_of_isInf ha, isNaN_of_isFinite hb, ha, isInf_of_isFinite hb]

theorem fdiv_of_isInf_right (ha : isFinite a = true) (hb : isInf b = true) :
    fdiv d a b = ofMag (fSign a != fSign b) 0 := by
  simp [fdiv, isNaN_of_isFinite ha, isNaN_of_isInf hb, isInf_of_isFinite ha, hb]

theorem fdiv_of_isZero_of_isZero (ha : isZero a = true) (hb : isZero b = true) : fdiv d a b = nanOf d := by
  have ha' := isFinite_of_isZero ha
  have hb' := isFinite_of_isZero hb
  simp [fdiv, isNaN_of_isFinite ha', isNaN_of_isFinite hb', isInf_of_isFinite ha', isInf_of_isFinite hb', ha, hb]

theorem fdiv_of_isZero_right (ha : isFinite a = true) (hz : isZero a = false) (hb : isZero b = true) :
    fdiv d a b = infinity (fSign a != fSign b) := by
  have hb' := isFinite_of_isZero hb
  simp [fdiv, isNaN_of_isFinite ha, isNaN_of_isFinite hb', isInf_of_isFinite ha, isInf_of_isFinite hb', hz, hb]

theorem fdiv_of_isFinite (ha : isFinite a = true) (hb : isFinite b = true) (hz : isZero b = false) :
    fdiv d a b = ofMag (fSign a != fSign b) (roundMag (units a * 2 ^ 149) (units b)) := by
  simp [fdiv, isNaN_of_isFinite ha, isNaN_of_isFinite hb, isInf_of_isFinite ha, isInf_of_isFinite hb, hz]

/-! The square root. -/

theorem fsqrt_of_isNaN (h : isNaN a = true) : fsqrt d a = nanOf d := if_pos h

theorem fsqrt_of_isZero (h : isZero a = true) : fsqrt d a = a := by
  simp [fsqrt, isNaN_of_isFinite (isFinite_of_isZero h), h]

theorem fsqrt_of_fSign (hn : isNaN a = false) (hz : isZero a = false) (hs : fSign a = true) :
    fsqrt d a = nanOf d := by
  simp [fsqrt, hn, hz, hs]

theorem fsqrt_of_isInf (ha : isInf a = true) (hs : fSign a = false) : fsqrt d a = a := by
  simp [fsqrt, isNaN_of_isInf ha, isZero_of_isInf ha, hs, ha]

theorem fsqrt_of_isFinite (ha : isFinite a = true) (hz : isZero a = false) (hs : fSign a = false) :
    fsqrt d a = ofMag false (roundMag (2 * isqrt (units a * 2 ^ 149) +
      if isqrt (units a * 2 ^ 149) * isqrt (units a * 2 ^ 149) = units a * 2 ^ 149 then 0 else 1) 2) := by
  simp [fsqrt, isNaN_of_isFinite ha, isInf_of_isFinite ha, hz, hs]

end Sys2Proof.Machine

/-! SUPPORT. The special values of the arithmetic: NaNs, zeros and infinities (40_numerics.md R135, R136). -/

namespace Sys2Proof.Machine

/-- Settles O52: each case is the equation of its operation, and what an operation draws for a NaN is a NaN. -/
theorem nonFiniteArithmetic : Obligations.NonFiniteArithmetic := by
  intro d a b
  refine ⟨fun h => ⟨?_, ?_, ?_, ?_⟩, fun h => ?_, fun ha hb hs => ?_, fun ha hb hs => ?_, fun ha hb => ?_,
    fun ha hb => ?_, fun ha hb => ?_, fun hn hz hs => ?_, fsqrt_of_isZero d (by decide), fdiv_of_isZero_right d⟩
  · rw [fadd_of_isNaN d h, isNaN_nanOf]
  · rw [fsub, fadd_of_isNaN d (by simpa using h), isNaN_nanOf]
  · rw [fmul_of_isNaN d h, isNaN_nanOf]
  · rw [fdiv_of_isNaN d h, isNaN_nanOf]
  · rw [fsqrt_of_isNaN d h, isNaN_nanOf]
  · rw [fadd_of_isInf_cancel d ha hb hs, isNaN_nanOf]
  · rw [fsub, fadd_of_isInf_cancel d ha (by simpa using hb) (by simp [hs]), isNaN_nanOf]
  · rw [(fmul_of_isZero_of_isInf d ha hb).1, (fmul_of_isZero_of_isInf d ha hb).2, isNaN_nanOf]
    exact ⟨rfl, rfl⟩
  · rw [fdiv_of_isZero_of_isZero d ha hb, isNaN_nanOf]
  · rw [fdiv_of_isInf_of_isInf d ha hb, isNaN_nanOf]
  · rw [fsqrt_of_fSign d hn hz hs, isNaN_nanOf]

/-- Settles O58: each case is the equation of its operation; subtraction adds the negation. -/
theorem infiniteOperandArithmetic : Obligations.InfiniteOperandArithmetic := by
  intro d a b
  refine ⟨fun ha hb => ⟨?_, ?_, ?_, ?_⟩, fun ha hb hs => ?_, fun ha hb hs => ?_, fmul_of_isInf d,
    fun ha hb => ⟨fdiv_of_isInf_left d ha hb, ?_, ?_⟩, fsqrt_of_isInf d (by simp) (by simp)⟩
  · exact fadd_of_isInf_left d ha (isNaN_of_isFinite hb) (by simp [isInf_of_isFinite hb])
  · exact fadd_of_isInf_right d hb ha
  · exact fadd_of_isInf_left d ha (by simp [isNaN_of_isFinite hb]) (by simp [isInf_of_isFinite hb])
  · rw [fsub, fadd_of_isInf_right d hb (by simpa using ha), eq_infinity_of_isInf (w := fneg a) (by simpa using ha),
      fSign_fneg]
  · exact fadd_of_isInf_left d ha (isNaN_of_isInf hb) fun _ => hs
  · exact fadd_of_isInf_left d ha (by simp [isNaN_of_isInf hb]) fun _ => by simpa [Bool.eq_not] using hs
  · rw [fdiv_of_isInf_right d hb ha, isZero_ofMag_zero]
  · rw [fdiv_of_isInf_right d hb ha, fSign_ofMag_zero, bne_comm]

/-- A product is a NaN or has the xor of the signs. -/
theorem fmul_eq_nanOf_or_ofMag (d : Draw) (a b : Word) :
    fmul d a b = nanOf d ∨ ∃ m < 2 ^ 31, fmul d a b = ofMag (fSign a != fSign b) m := by
  unfold fmul
  dsimp only
  split
  · exact .inl rfl
  · split
    · split
      · exact .inl rfl
      · exact .inr ⟨infMag, by decide, rfl⟩
    · exact .inr ⟨_, roundMag_lt .., rfl⟩

/-- A quotient is a NaN or has the xor of the signs. -/
theorem fdiv_eq_nanOf_or_ofMag (d : Draw) (a b : Word) :
    fdiv d a b = nanOf d ∨ ∃ m < 2 ^ 31, fdiv d a b = ofMag (fSign a != fSign b) m := by
  unfold fdiv
  dsimp only
  split
  · exact .inl rfl
  · split
    · split
      · exact .inl rfl
      · exact .inr ⟨infMag, by decide, rfl⟩
    · split
      · exact .inr ⟨0, by decide, rfl⟩
      · split
        · split
          · exact .inl rfl
          · exact .inr ⟨infMag, by decide, rfl⟩
        · exact .inr ⟨_, roundMag_lt .., rfl⟩

/-- A zero is no NaN, so what is a NaN or has a given sign has that sign where it is a zero. -/
theorem fSign_of_isZero_of_eq_nanOf_or_ofMag {d : Draw} {w : Word} {neg : Bool}
    (h : w = nanOf d ∨ ∃ m < 2 ^ 31, w = ofMag neg m) (hz : isZero w = true) : fSign w = neg := by
  rcases h with rfl | ⟨m, hm, rfl⟩
  · simp [isZero_of_isNaN (isNaN_nanOf d)] at hz
  · exact fSign_ofMag neg hm

@[simp] theorem units_fneg (w : Word) : units (fneg w) = units w := by
  rw [units_eq_magUnits, units_eq_magUnits, fMag_fneg]

@[simp] theorem signedUnits_fneg (w : Word) : signedUnits (fneg w) = -signedUnits w := by
  cases h : fSign w <;> simp [signedUnits, h]

/-- `x - x` is +0 (40_numerics.md R136). -/
theorem fsub_self (d : Draw) {a : Word} (ha : isFinite a = true) : fsub d a a = f0 := by
  rw [fsub, fadd_of_isFinite d ha (by simpa using ha), signedUnits_fneg, add_neg_cancel, if_pos rfl, fSign_fneg,
    Bool.and_not_self]
  rfl

/-- The sign of a zero does not enter its key (40_numerics.md R141). -/
theorem fKey_of_isZero {a : Word} (h : isZero a = true) : fKey a = 0 := by
  simp [fKey, (isZero_iff a).1 h]

/-- Settles O53: a zero that an operation gives is built with its sign, and all zeros have the same key. -/
theorem signedZeroArithmetic : Obligations.SignedZeroArithmetic := by
  intro d a b
  refine ⟨rfl, rfl, rfl, fsub_self d, fSign_of_isZero_of_eq_nanOf_or_ofMag (fmul_eq_nanOf_or_ofMag d a b),
    fSign_of_isZero_of_eq_nanOf_or_ofMag (fdiv_eq_nanOf_or_ofMag d a b), rfl, fun ha => ?_⟩
  have hn : isNaN a = false := isNaN_of_isFinite (isFinite_of_isZero ha)
  have hn0 : isNaN f0 = false := by decide
  have hk : fKey a = fKey f0 := (fKey_of_isZero ha).trans (fKey_of_isZero (by decide)).symm
  simp [flt, fgt, fle, feq, hn, hn0, hk]

end Sys2Proof.Machine

/-! SUPPORT. The order of the patterns is that of their values (40_numerics.md R141): the value is an odd, strictly
increasing function of the key, so every comparison of keys is one of values. -/

namespace Sys2Proof.Machine

variable {a b : Word}

/-- The units of 2^-149 as a function of the key of a finite pattern. -/
def keyUnits (k : ℤ) : ℤ := k.sign * magUnits k.natAbs

theorem keyUnits_fKey (w : Word) : keyUnits (fKey w) = signedUnits w := by
  have h0 : magUnits 0 = 0 := rfl
  unfold keyUnits fKey signedUnits
  rw [units_eq_magUnits]
  rcases Nat.eq_zero_or_pos (fMag w) with h | h
  · simp [h, h0]
  · split <;> simp [Int.sign_eq_one_of_pos, h]

theorem keyUnits_strictMono : StrictMono keyUnits := by
  refine strictMono_of_odd_strictMonoOn_nonneg (fun k => by simp [keyUnits]) fun j hj k hk hjk => ?_
  obtain ⟨m, rfl⟩ := Int.eq_ofNat_of_zero_le hj
  obtain ⟨n, rfl⟩ := Int.eq_ofNat_of_zero_le hk
  have hcast : ∀ i : Nat, keyUnits i = magUnits i := by
    intro i
    rcases Nat.eq_zero_or_pos i with rfl | h
    · rfl
    · simp [keyUnits, Int.sign_eq_one_of_pos, h]
  rw [hcast, hcast]
  exact_mod_cast magUnits_strictMono (Int.ofNat_lt.1 hjk)

theorem value_eq_keyUnits (w : Word) : value w = keyUnits (fKey w) / 2 ^ 149 := by rw [keyUnits_fKey]; rfl

theorem value_lt_iff : value a < value b ↔ fKey a < fKey b := by
  rw [value_eq_keyUnits, value_eq_keyUnits, div_lt_div_iff_of_pos_right (by positivity), Int.cast_lt,
    keyUnits_strictMono.lt_iff_lt]

theorem value_le_iff : value a ≤ value b ↔ fKey a ≤ fKey b := by
  rw [← not_lt, value_lt_iff, not_lt]

theorem value_eq_iff : value a = value b ↔ fKey a = fKey b := by
  rw [le_antisymm_iff, value_le_iff, value_le_iff, ← le_antisymm_iff]

theorem fKey_infinity (neg : Bool) : fKey (infinity neg) = if neg then -(infMag : ℤ) else infMag := by
  simp [fKey]

theorem abs_fKey_lt (ha : isFinite a = true) : |fKey a| < infMag := by
  have := (isFinite_iff a).1 ha
  unfold fKey
  split <;> simpa using this

@[simp] theorem isNaN_infinity (neg : Bool) : isNaN (infinity neg) = false := isNaN_of_isInf (isInf_infinity neg)

/-- The comparisons of patterns that are not NaN compare keys. -/
theorem flt_of_not_isNaN (ha : isNaN a = false) (hb : isNaN b = false) : flt a b = decide (fKey a < fKey b) := by
  simp [flt, ha, hb]

theorem fle_of_not_isNaN (ha : isNaN a = false) (hb : isNaN b = false) : fle a b = decide (fKey a ≤ fKey b) := by
  simp [fle, ha, hb]

theorem feq_of_not_isNaN (ha : isNaN a = false) (hb : isNaN b = false) : feq a b = decide (fKey a = fKey b) := by
  simp [feq, ha, hb]

/-- Every finite pattern lies strictly between the infinities. -/
theorem flt_infinity_of_isFinite (ha : isFinite a = true) :
    flt a (infinity false) = true ∧ flt (infinity true) a = true ∧
      flt (infinity false) a = false ∧ flt a (infinity true) = false := by
  have hn := isNaN_of_isFinite ha
  obtain ⟨hlo, hhi⟩ := abs_lt.1 (abs_fKey_lt ha)
  simp [flt_of_not_isNaN, hn, fKey_infinity, hlo, hhi, hlo.le, hhi.le]

/-- A comparison with a NaN operand is false (40_numerics.md R141). -/
theorem compare_of_isNaN (h : isNaN a = true ∨ isNaN b = true) :
    flt a b = false ∧ fgt a b = false ∧ fle a b = false ∧ feq a b = false := by
  rcases h with h | h <;> simp [flt, fgt, fle, feq, h]

/-- `fabs` is exact (40_numerics.md R141). -/
theorem value_fabs (a : Word) : value (fabs a) = |value a| := by
  have hu : units (fabs a) = units a := by rw [units_eq_magUnits, fMag_fabs, ← units_eq_magUnits]
  have hs : signedUnits (fabs a) = |signedUnits a| := by
    cases h : fSign a <;> simp [signedUnits, h, hu]
  rw [value, hs, value, abs_div, abs_of_pos (by positivity : (0 : ℚ) < 2 ^ 149), Int.cast_abs]

/-- Settles O56: comparisons are of keys, and keys are in the order of values. -/
theorem comparisonsFollowValues : Obligations.ComparisonsFollowValues := by
  intro a b
  refine ⟨fun ha hb => ?_, flt_infinity_of_isFinite, by decide, by decide, by decide, by decide, fun ha hb => ?_,
    compare_of_isNaN, fSign_fabs a, fMag_fabs a, fun ha => ⟨?_, value_fabs a⟩⟩
  · have hna := isNaN_of_isFinite ha
    have hnb := isNaN_of_isFinite hb
    simp [flt_of_not_isNaN, fle_of_not_isNaN, feq_of_not_isNaN, fgt, hna, hnb, value_lt_iff, value_le_iff,
      value_eq_iff]
  · refine ⟨rfl, ?_, ?_⟩
    · rw [fle_of_not_isNaN ha hb, flt_of_not_isNaN hb ha, ← decide_not, decide_eq_decide, not_lt]
    · rw [feq_of_not_isNaN ha hb, fle_of_not_isNaN ha hb, fle_of_not_isNaN hb ha, ← Bool.decide_and,
        decide_eq_decide, le_antisymm_iff]
  · rw [isFinite_congr (fMag_fabs a), ha]

end Sys2Proof.Machine

/-! SUPPORT. From binary32 to i32 (40_numerics.md R139): the quotient of the units by 2^149 is the floor of the value. -/

namespace Sys2Proof.Machine

theorem floor_value (x : Word) : ⌊value x⌋ = signedUnits x / 2 ^ 149 := by
  have h := Rat.floor_intCast_div_natCast (signedUnits x) (2 ^ 149)
  simp only [Nat.cast_pow, Nat.cast_ofNat] at h
  exact h

theorem ceil_value (x : Word) : ⌈value x⌉ = -(-(signedUnits x) / 2 ^ 149) := by
  have h := Rat.floor_intCast_div_natCast (-signedUnits x) (2 ^ 149)
  simp only [Nat.cast_pow, Nat.cast_ofNat, Int.cast_neg] at h
  rw [← h, neg_div, Int.floor_neg, neg_neg]
  rfl

/-- Settles O55: each class of the operand is one branch of the conversion. -/
theorem floatToIntegerConversions : Obligations.FloatToIntegerConversions := by
  intro x
  refine ⟨fun h => ⟨if_pos h, if_pos h⟩, fun h hs => ?_, fun h hs => ?_, fun h => ?_⟩
  · simp [f2iFloor, f2iCeil, isNaN_of_isInf h, h, hs]
  · simp [f2iFloor, f2iCeil, isNaN_of_isInf h, h, hs]
  · rw [floor_value, ceil_value]
    simp [f2iFloor, f2iCeil, isNaN_of_isFinite h, isInf_of_isFinite h, satI32, clampInt]

end Sys2Proof.Machine

/-! SUPPORT. The four operations on finite operands (40_numerics.md R132, R133, R134): each rounds the exact result once,
and `roundMag_roundsTo` says that this rounding is correct. -/

namespace Sys2Proof.Machine

variable {a b : Word}

theorem value_eq_signedUnits (w : Word) : (value w : ℝ) = signedUnits w / 2 ^ 149 := by
  rw [value]; push_cast; rfl

theorem value_eq_units (w : Word) : (value w : ℝ) = signFactor (fSign w) * units w / 2 ^ 149 := by
  rw [value_eq, units_eq_magUnits]

theorem value_fneg (w : Word) : value (fneg w) = -value w := by
  rw [value, signedUnits_fneg, Int.cast_neg, neg_div, value]

@[simp] theorem signFactor_false : signFactor false = 1 := if_neg Bool.false_ne_true

theorem abs_signFactor (s : Bool) : |signFactor s| = 1 := by cases s <;> simp [signFactor]

theorem signFactor_bne (s t : Bool) : signFactor (s != t) = signFactor s * signFactor t := by
  cases s <;> cases t <;> simp [signFactor]

theorem signFactor_mul_self (s : Bool) : signFactor s * signFactor s = 1 := by cases s <;> simp [signFactor]

theorem signFactor_mul_natAbs (z : ℤ) : signFactor (decide (z < 0)) * (z.natAbs : ℝ) = z := by
  rw [Nat.cast_natAbs, Int.cast_abs]
  by_cases h : z < 0
  · have h' : (z : ℝ) < 0 := by exact_mod_cast h
    simp [signFactor, h, abs_of_neg h']
  · have h' : (0 : ℝ) ≤ z := by exact_mod_cast not_lt.1 h
    simp [signFactor, h, abs_of_nonneg h']

theorem roundsTo_zero (neg : Bool) : RoundsTo (ofMag neg 0) 0 := by
  have h := roundMag_roundsTo neg 0 1 one_pos
  rwa [show roundMag 0 1 = 0 from rfl, Nat.cast_zero, zero_div, mul_zero, zero_div] at h

/-- An integer number of units of 2^-149 is rounded correctly. -/
theorem roundMag_roundsTo_int (z : ℤ) :
    RoundsTo (ofMag (decide (z < 0)) (roundMag z.natAbs 1)) ((z : ℝ) / 2 ^ 149) := by
  have h := roundMag_roundsTo (decide (z < 0)) z.natAbs 1 one_pos
  rwa [Nat.cast_one, div_one, signFactor_mul_natAbs] at h

theorem fadd_roundsTo (d : Draw) (ha : isFinite a = true) (hb : isFinite b = true) :
    RoundsTo (fadd d a b) ((value a : ℝ) + value b) := by
  have hv : (value a : ℝ) + value b = ((signedUnits a + signedUnits b : ℤ) : ℝ) / 2 ^ 149 := by
    rw [value_eq_signedUnits, value_eq_signedUnits, Int.cast_add, add_div]
  rw [fadd_of_isFinite d ha hb, hv]
  split
  case isTrue hz => rw [hz, Int.cast_zero, zero_div]; exact roundsTo_zero _
  case isFalse => exact roundMag_roundsTo_int _

theorem fsub_roundsTo (d : Draw) (ha : isFinite a = true) (hb : isFinite b = true) :
    RoundsTo (fsub d a b) ((value a : ℝ) - value b) := by
  have h := fadd_roundsTo d ha (b := fneg b) (by simpa using hb)
  rwa [value_fneg, Rat.cast_neg, ← sub_eq_add_neg] at h

theorem fmul_roundsTo (d : Draw) (ha : isFinite a = true) (hb : isFinite b = true) :
    RoundsTo (fmul d a b) ((value a : ℝ) * value b) := by
  have h := roundMag_roundsTo (fSign a != fSign b) (units a * units b) (2 ^ 149) (by positivity)
  rw [← fmul_of_isFinite d ha hb] at h
  convert h using 1
  rw [value_eq_units, value_eq_units, signFactor_bne]
  push_cast
  ring

theorem units_pos (hz : isZero a = false) : 0 < units a := by
  have hm : fMag a ≠ 0 := fun h => by simp [(isZero_iff a).2 h] at hz
  rw [units_eq_magUnits]
  exact magUnits_strictMono (Nat.pos_of_ne_zero hm)

theorem fdiv_roundsTo (d : Draw) (ha : isFinite a = true) (hb : isFinite b = true) (hz : isZero b = false) :
    RoundsTo (fdiv d a b) ((value a : ℝ) / value b) := by
  have hu := units_pos hz
  have hur : (units b : ℝ) ≠ 0 := by exact_mod_cast hu.ne'
  have hsf : signFactor (fSign b) ≠ 0 := left_ne_zero_of_mul_eq_one (signFactor_mul_self _)
  have h := roundMag_roundsTo (fSign a != fSign b) (units a * 2 ^ 149) (units b) hu
  rw [← fdiv_of_isFinite d ha hb hz] at h
  convert h using 1
  rw [value_eq_units, value_eq_units, signFactor_bne, Nat.cast_mul, Nat.cast_pow, Nat.cast_ofNat]
  field_simp
  rw [pow_two, signFactor_mul_self, mul_one]

/-- Settles O50: each operation rounds its exact result once. -/
theorem basicOperationsCorrectlyRounded : Obligations.BasicOperationsCorrectlyRounded :=
  fun d _ _ ha hb => ⟨fadd_roundsTo d ha hb, fsub_roundsTo d ha hb, fmul_roundsTo d ha hb, fdiv_roundsTo d ha hb⟩

end Sys2Proof.Machine

/-! SUPPORT. Exact results (40_numerics.md R132, R138, R149): a number with a significand of at most 24 bits is the value
of a pattern, and a correctly rounded result that could be exact is exact. -/

namespace Sys2Proof.Machine

variable {w c : Word} {q : ℝ}

/-- Half way above the largest finite value lies above every finite value. -/
theorem abs_value_lt_overflowBound (h : isFinite w = true) : |(value w : ℝ)| < overflowBound := by
  have hm : fMag w ≤ infMag - 1 := Nat.le_sub_one_of_lt ((isFinite_iff w).1 h)
  have hu : units w ≤ (2 ^ 24 - 1) * 2 ^ 253 := by
    rw [units_eq_magUnits, ← magUnits_infMag.2]
    exact magUnits_strictMono.monotone hm
  have hur : (units w : ℝ) ≤ ((2 ^ 24 - 1) * 2 ^ 253 : ℕ) := Nat.cast_le.2 hu
  rw [value_eq_units, abs_div, abs_mul, abs_signFactor, one_mul, Nat.abs_cast, abs_of_pos (by positivity),
    div_lt_iff₀ (by positivity)]
  refine hur.trans_lt ?_
  norm_num [overflowBound]

theorem RoundsTo.eq_value (h : RoundsTo w q) (hc : isFinite c = true) (hq : (value c : ℝ) = q) :
    (value w : ℝ) = q := by
  have hn := (h.1 (hq ▸ abs_value_lt_overflowBound hc)).nearest c hc
  rw [hq, sub_self, abs_zero] at hn
  exact sub_eq_zero.1 (abs_nonpos_iff.1 hn)

theorem NearestEven.roundsTo (h : NearestEven w q) (hq : |q| < overflowBound) : RoundsTo w q :=
  ⟨fun _ => h, fun ho => absurd (le_abs_self q) (not_le.2 (hq.trans_le ho)),
    fun ho => absurd (neg_le_abs q) (not_le.2 (hq.trans_le (le_neg_of_le_neg ho)))⟩

/-- `k * 2^s` units with a significand `k` of at most 24 bits are a finite magnitude pattern. -/
theorem exists_magUnits_eq (s k : Nat) (hk : k ≤ 2 ^ 24) (hs : s ≤ 252) : ∃ m < infMag, magUnits m = k * 2 ^ s := by
  induction s generalizing k with
  | zero => exact ⟨k, hk.trans_lt (by decide), by simpa using magUnits_scaled (s := 0) hk (.inl rfl)⟩
  | succ s ih =>
    rcases Nat.lt_or_ge k (2 ^ 23) with h | h
    · obtain ⟨m, hm, he⟩ := ih (2 * k) (by omega) (by omega)
      exact ⟨m, hm, by rw [he]; ring⟩
    · exact ⟨(s + 1) * 2 ^ 23 + k, by unfold infMag; omega, magUnits_scaled hk (.inr h)⟩

theorem exists_value_eq (neg : Bool) {k j : Nat} (hk : k ≤ 2 ^ 24) (hj : j ≤ 103) :
    ∃ c, isFinite c = true ∧ (value c : ℝ) = signFactor neg * (k * 2 ^ j) := by
  obtain ⟨m, hm, he⟩ := exists_magUnits_eq (149 + j) k hk (by omega)
  have hlt : m < 2 ^ 31 := hm.trans (by decide)
  refine ⟨ofMag neg m, (isFinite_iff _).2 (by rwa [fMag_ofMag neg hlt]), ?_⟩
  rw [value_eq, fSign_ofMag neg hlt, fMag_ofMag neg hlt, he]
  push_cast
  rw [pow_add]
  field_simp

/-! Integers to binary32. -/

theorem u2f_eq_i2f (n : Nat) : u2f n = i2f n := by
  rw [u2f, i2f, Int.natAbs_natCast, decide_eq_false (by omega)]

theorem i2f_roundsTo (z : ℤ) : RoundsTo (i2f z) z := by
  have h := roundMag_roundsTo (decide (z < 0)) (z.natAbs * 2 ^ 149) 1 one_pos
  rwa [Nat.cast_one, div_one, Nat.cast_mul, ← mul_assoc, signFactor_mul_natAbs, Nat.cast_pow, Nat.cast_ofNat,
    mul_div_cancel_right₀ _ (by positivity)] at h

/-- An integer of at most 24 significant bits is converted exactly (40_numerics.md R138). -/
theorem value_i2f {z : ℤ} {k j : Nat} (hz : z.natAbs = k * 2 ^ j) (hk : k ≤ 2 ^ 24) (hj : j ≤ 103) :
    value (i2f z) = z := by
  obtain ⟨c, hc, hv⟩ := exists_value_eq (decide (z < 0)) hk hj
  have he : (value c : ℝ) = z := by
    rw [hv, ← signFactor_mul_natAbs z, hz]
    push_cast
    rfl
  exact_mod_cast (i2f_roundsTo z).eq_value hc he

theorem value_i2f_of_natAbs_le {z : ℤ} (h : z.natAbs ≤ 2 ^ 24) : value (i2f z) = z :=
  value_i2f (j := 0) (by simp) h (by decide)

/-- Settles O54: up to 2^24 the integer is its own significand, and a power of two has the significand 1. -/
theorem integerToFloatConversions : Obligations.IntegerToFloatConversions := by
  refine ⟨fun n _ => ⟨?_, fun hn => ?_⟩, fun z _ _ => ⟨i2f_roundsTo z, fun _ _ => value_i2f_of_natAbs_le (by omega)⟩,
    fun e he => ?_, fun e he => ?_, fun e he => ?_, fun x => value_i2f_of_natAbs_le ?_, by decide +kernel⟩
  · rw [u2f_eq_i2f]
    exact_mod_cast i2f_roundsTo n
  · rw [u2f_eq_i2f]
    exact_mod_cast value_i2f_of_natAbs_le (z := n) (by simpa using hn)
  · rw [u2f_eq_i2f]
    exact_mod_cast value_i2f (z := (2 ^ e : Nat)) (k := 1) (j := e) (by simp) (by decide) (by omega)
  · exact_mod_cast value_i2f (z := 2 ^ e) (k := 1) (j := e) (by simp [Int.natAbs_pow]) (by decide) (by omega)
  · exact_mod_cast value_i2f (z := -2 ^ e) (k := 1) (j := e) (by simp [Int.natAbs_pow]) (by decide) (by omega)
  · have hlo := BitVec.le_toInt x
    have hhi := BitVec.toInt_lt (x := x)
    omega

end Sys2Proof.Machine

/-! SUPPORT. Powers of ten (40_numerics.md R148, R149): the search of `decade` and the table of `pow10`. -/

namespace Sys2Proof.Machine

theorem pow10Le_iff (e : ℤ) (u : Nat) : pow10Le e u = true ↔ (10 : ℚ) ^ e ≤ u / 2 ^ 149 := by
  rw [le_div_iff₀ (by positivity), pow10Le]
  split
  case isTrue h =>
    obtain ⟨n, rfl⟩ := Int.eq_ofNat_of_zero_le h
    rw [decide_eq_true_iff, Int.toNat_natCast, zpow_natCast]
    exact_mod_cast Iff.rfl
  case isFalse h =>
    obtain ⟨n, hn⟩ := Int.eq_ofNat_of_zero_le (by omega : 0 ≤ -e)
    rw [decide_eq_true_iff, hn, Int.toNat_natCast, ← neg_neg e, hn, zpow_neg, zpow_natCast,
      inv_mul_le_iff₀ (by positivity), mul_comm u]
    exact_mod_cast Iff.rfl

/-- The search answers an exponent of its range, of a power of ten that `u` units reach unless it is the lowest, and the
next power of ten, if in range, is not reached. -/
theorem decadeFrom_spec (u k : Nat) : -45 ≤ decadeFrom u k ∧ decadeFrom u k ≤ k - 45 ∧
    (decadeFrom u k = -45 ∨ pow10Le (decadeFrom u k) u = true) ∧
    (decadeFrom u k < k - 45 → pow10Le (decadeFrom u k + 1) u = false) := by
  induction k with
  | zero => simp [decadeFrom]
  | succ k ih =>
    obtain ⟨hlo, hhi, hle, hlt⟩ := ih
    rw [decadeFrom]
    split
    case isTrue h => exact ⟨by omega, by omega, .inr h, by omega⟩
    case isFalse h =>
      refine ⟨hlo, by omega, hle, fun _ => ?_⟩
      rcases hhi.lt_or_eq with hd | hd
      · exact hlt hd
      · rw [hd, sub_add_eq_add_sub]
        exact Bool.eq_false_iff.2 h

theorem value_of_not_fSign {r : Word} (hs : fSign r = false) : value r = units r / 2 ^ 149 := by
  simp [value, signedUnits, hs]

/-- The exponent of the largest power of ten that a positive value reaches (40_numerics.md R148). -/
theorem decade_spec {r : Word} (hf : isFinite r = true) (hz : isZero r = false) (hs : fSign r = false) :
    -45 ≤ decade r ∧ decade r ≤ 38 ∧ (10 : ℚ) ^ decade r ≤ value r ∧ value r < (10 : ℚ) ^ (decade r + 1) := by
  obtain ⟨hlo, hhi, hle, hlt⟩ := decadeFrom_spec (units r) 83
  have hv := value_of_not_fSign hs
  refine ⟨hlo, hhi, ?_, ?_⟩
  · rw [hv]
    rcases hle with he | he
    · have h1 : (1 : ℚ) ≤ units r := by exact_mod_cast units_pos hz
      calc (10 : ℚ) ^ decade r = 10 ^ (-45 : ℤ) := by rw [decade, he]
        _ ≤ 1 / 2 ^ 149 := by norm_num
        _ ≤ units r / 2 ^ 149 := by gcongr
    · exact (pow10Le_iff _ _).1 he
  · rcases hhi.lt_or_eq with hd | hd
    · rw [hv, ← not_le, ← pow10Le_iff, decade, hlt hd]
      exact Bool.false_ne_true
    · have hb := (le_abs_self _).trans_lt (abs_value_lt_overflowBound hf)
      have h39 : (value r : ℝ) < ((10 ^ 39 : ℚ) : ℝ) := hb.trans (by norm_num [overflowBound])
      rw [decade, hd]
      exact_mod_cast h39

theorem pow10_roundsTo (e : ℤ) : RoundsTo (pow10 e) ((10 : ℝ) ^ e) := by
  unfold pow10
  split
  case isTrue h =>
    obtain ⟨n, rfl⟩ := Int.eq_ofNat_of_zero_le h
    rw [Int.toNat_natCast]
    convert roundMag_roundsTo false (10 ^ n * 2 ^ 149) 1 one_pos using 1
    rw [signFactor_false, Nat.cast_mul, Nat.cast_pow, Nat.cast_pow, Nat.cast_ofNat, Nat.cast_ofNat, Nat.cast_one,
      div_one, one_mul, mul_div_cancel_right₀ _ (by positivity), zpow_natCast]
  case isFalse h =>
    obtain ⟨n, hn⟩ := Int.eq_ofNat_of_zero_le (by omega : 0 ≤ -e)
    rw [hn, Int.toNat_natCast]
    convert roundMag_roundsTo false (2 ^ 149) (10 ^ n) (by positivity) using 1
    rw [signFactor_false, Nat.cast_pow, Nat.cast_pow, Nat.cast_ofNat, Nat.cast_ofNat, one_mul, div_right_comm,
      div_self (by positivity), one_div, ← neg_neg e, hn, zpow_neg, zpow_natCast]

/-- The powers of ten up to the 10th are exact: the fifth powers have at most 24 bits (40_numerics.md R149). -/
theorem value_pow10_of_le {n : Nat} (hn : n ≤ 10) : value (pow10 n) = (10 : ℚ) ^ n := by
  have h5 : 5 ^ n ≤ 2 ^ 24 := (Nat.pow_le_pow_right (by decide) hn).trans (by decide)
  obtain ⟨c, hc, hv⟩ := exists_value_eq false (k := 5 ^ n) (j := n) h5 (by omega)
  have he : (value c : ℝ) = (10 : ℝ) ^ (n : ℤ) := by
    rw [hv, Nat.cast_pow, Nat.cast_ofNat, ← mul_pow, zpow_natCast]
    norm_num
  exact_mod_cast (pow10_roundsTo n).eq_value hc he

/-- Settles O57: the search of `decade` ends at the largest power reached, and no power of the range overflows. -/
theorem decadeAndPowersOfTen : Obligations.DecadeAndPowersOfTen := by
  refine ⟨fun r => decade_spec, fun e _ he => (pow10_roundsTo e).1 ?_, fun e h0 he => ?_⟩
  · rw [abs_of_pos (by positivity)]
    calc (10 : ℝ) ^ e ≤ 10 ^ (38 : ℤ) := zpow_le_zpow_right₀ (by norm_num) he
      _ < overflowBound := by norm_num [overflowBound]
  · obtain ⟨n, rfl⟩ := Int.eq_ofNat_of_zero_le h0
    exact_mod_cast value_pow10_of_le (by omega)

end Sys2Proof.Machine

/-! SUPPORT. The square root (40_numerics.md R132, R133). Where the root of the units is no integer it lies strictly
between an integer `q` and the next, and so does `q + 1/2`, which `fsqrt` rounds. Every midpoint of two patterns near
them is an integer, so the pattern nearest to the one is nearest to the other. -/

namespace Sys2Proof.Machine

variable {a c w : Word}

/-! The integer square root. -/

/-- The search from bit `k - 1` down keeps `r * r ≤ v < (r + 2^k) * (r + 2^k)`. -/
theorem isqrtFrom_eq_sqrt (v k r : Nat) (hlo : r * r ≤ v) (hhi : v < (r + 2 ^ k) * (r + 2 ^ k)) :
    isqrtFrom v k r = Nat.sqrt v := by
  induction k generalizing r with
  | zero => exact Nat.eq_sqrt.2 ⟨hlo, hhi⟩
  | succ k ih =>
    rw [isqrtFrom]
    split
    case isTrue h => exact ih _ h (by rwa [add_assoc, ← two_mul, ← pow_succ'])
    case isFalse h => exact ih _ hlo (not_le.1 h)

theorem isqrt_eq_sqrt (v : Nat) : isqrt v = Nat.sqrt v := by
  refine isqrtFrom_eq_sqrt v _ 0 (Nat.zero_le v) ?_
  calc v < 2 ^ (v.log2 + 1) := Nat.lt_log2_self
    _ ≤ 2 ^ ((v.log2 / 2 + 1) + (v.log2 / 2 + 1)) := Nat.pow_le_pow_right (by decide) (by omega)
    _ = _ := by rw [pow_add, zero_add]

/-! Nearness in units of 2^-149. -/

theorem abs_value_sub (w : Word) (x : ℝ) : |(value w : ℝ) - x / 2 ^ 149| = |(signedUnits w : ℝ) - x| / 2 ^ 149 := by
  rw [value_eq_signedUnits, ← sub_div, abs_div, abs_of_pos (by positivity : (0 : ℝ) < 2 ^ 149)]

/-- Nothing is half way between two patterns and irrational, so there the tie rule is empty. -/
theorem nearestEven_of_irrational {x : ℝ} (hx : Irrational x) (hf : isFinite w = true)
    (hn : ∀ c, isFinite c = true → |(signedUnits w : ℝ) - x| ≤ |(signedUnits c : ℝ) - x|) :
    NearestEven w (x / 2 ^ 149) where
  finite := hf
  nearest c hc := by
    rw [abs_value_sub, abs_value_sub]
    exact div_le_div_of_nonneg_right (hn c hc) (by positivity)
  even c hc he hne := by
    rw [abs_value_sub, abs_value_sub, div_left_inj' (by positivity), abs_eq_abs] at he
    rcases he with he | he
    · have hu : signedUnits c = signedUnits w := by exact_mod_cast sub_left_injective he
      exact absurd (by rw [value, hu, value]) hne
    · exact absurd ⟨(signedUnits c + signedUnits w) / 2, by push_cast; linarith⟩ hx

/-- An odd number of units has all its bits in the significand. -/
theorem units_lt_of_odd (h : units w % 2 = 1) : units w < 2 ^ 24 := by
  have hfrac : fFrac w < 2 ^ 23 := Nat.mod_lt _ (by positivity)
  by_cases he : fExp w = 0
  · rw [units, if_pos he]
    omega
  · rw [units, if_neg he] at h ⊢
    rcases Nat.eq_zero_or_pos (fExp w - 1) with h0 | h0
    · rw [h0, pow_zero]
      omega
    · have h2 : 2 ∣ (2 ^ 23 + fFrac w) * 2 ^ (fExp w - 1) := (dvd_pow_self 2 h0.ne').mul_left _
      rw [Nat.mod_eq_zero_of_dvd h2] at h
      exact absurd h zero_ne_one

theorem natAbs_signedUnits (w : Word) : (signedUnits w).natAbs = units w := by
  unfold signedUnits
  split <;> simp

/-- The numbers nearest to `n + 1/2` are even, where `n` is large enough for 2^24 units to be nearer than an odd one. -/
theorem signedUnits_even_of_nearest {n : Nat} (hn : 2 ^ 24 ≤ n)
    (hw : ∀ c, isFinite c = true → |2 * signedUnits w - (2 * n + 1)| ≤ |2 * signedUnits c - (2 * n + 1)|) :
    signedUnits w % 2 = 0 := by
  by_contra hodd
  have hlt : units w < 2 ^ 24 := units_lt_of_odd (by rw [← natAbs_signedUnits]; omega)
  have hle := le_trans (neg_le_abs _) (hw 0x01000000#32 (by decide))
  rw [show signedUnits 0x01000000#32 = 2 ^ 24 by decide, abs_of_neg (by omega)] at hle
  rw [← natAbs_signedUnits] at hlt
  omega

/-- A pattern nearest to `n + 1/2` is nearest to every number strictly between `n` and `n + 1`: no two patterns that are
nearest have their midpoint there. -/
theorem nearest_of_between {n : Nat} {x : ℝ} (hn : 2 ^ 24 ≤ n) (hlo : n < x) (hhi : x < n + 1)
    (hw : ∀ c, isFinite c = true → |2 * signedUnits w - (2 * n + 1)| ≤ |2 * signedUnits c - (2 * n + 1)|)
    (hc : isFinite c = true) : |(signedUnits w : ℝ) - x| ≤ |(signedUnits c : ℝ) - x| := by
  have hmid : signedUnits c + signedUnits w ≠ 2 * n + 1 := by
    intro he
    have hdist : |2 * signedUnits c - (2 * n + 1)| = |2 * signedUnits w - (2 * n + 1)| := by
      rw [← he, ← abs_neg]
      congr 1
      ring
    have hcw := signedUnits_even_of_nearest hn (w := c) fun e hf => hdist ▸ hw e hf
    have hww := signedUnits_even_of_nearest hn hw
    omega
  have hside : 0 ≤ (signedUnits c - signedUnits w) * (signedUnits c + signedUnits w - (2 * n + 1)) := by
    linarith [sq_le_sq.2 (hw c hc)]
  by_contra hnot
  have hnear : ((signedUnits c : ℝ) - signedUnits w) * (signedUnits c + signedUnits w - 2 * x) < 0 := by
    linarith [sq_lt_sq.2 (not_le.1 hnot)]
  rcases mul_neg_iff.1 hnear with ⟨hd, hs⟩ | ⟨hd, hs⟩
  · have hd' : 0 < signedUnits c - signedUnits w := by exact_mod_cast hd
    have hs' : signedUnits c + signedUnits w < 2 * n + 2 := by
      exact_mod_cast (by linarith : (signedUnits c + signedUnits w : ℝ) < 2 * n + 2)
    exact (mul_neg_of_pos_of_neg hd' (by omega)).not_ge hside
  · have hd' : signedUnits c - signedUnits w < 0 := by exact_mod_cast hd
    have hs' : 2 * n < signedUnits c + signedUnits w := by
      exact_mod_cast (by linarith : (2 * n : ℝ) < signedUnits c + signedUnits w)
    exact (mul_neg_of_neg_of_pos hd' (by omega)).not_ge hside

/-! The root of the units. -/

/-- The roots lie far below the bound of the overflow. -/
theorem abs_lt_overflowBound {x : ℝ} (h0 : 0 ≤ x) (h : x ≤ 2 ^ 213) : |x / 2 ^ 149| < overflowBound := by
  rw [abs_of_nonneg (by positivity), div_lt_iff₀ (by positivity)]
  exact h.trans_lt (by norm_num [overflowBound])

/-- `n + 1/2` units, with `n` in the range of the roots, are finite and correctly rounded. -/
theorem nearest_half {n : Nat} (hn : n < 2 ^ 213) : isFinite (ofMag false (roundMag (2 * n + 1) 2)) = true ∧
    ∀ c, isFinite c = true →
      |2 * signedUnits (ofMag false (roundMag (2 * n + 1) 2)) - (2 * n + 1)| ≤ |2 * signedUnits c - (2 * n + 1)| := by
  have hhalf : ∀ z : ℤ, |(z : ℝ) - (2 * n + 1 : Nat) / (2 : Nat)| = (|2 * z - (2 * n + 1)| : ℤ) / 2 := by
    intro z
    have he : (z : ℝ) - (2 * n + 1 : Nat) / (2 : Nat) = (2 * z - (2 * n + 1) : ℤ) / 2 := by
      push_cast
      ring
    rw [he, abs_div, abs_two, Int.cast_abs]
  have hr := roundMag_roundsTo false (2 * n + 1) 2 two_pos
  rw [signFactor_false, one_mul] at hr
  have hle : ((2 * n + 1 : Nat) : ℝ) / (2 : Nat) ≤ 2 ^ 213 := by
    rw [div_le_iff₀ (by positivity)]
    exact_mod_cast (by omega : 2 * n + 1 ≤ 2 ^ 213 * 2)
  have hnear := hr.1 (abs_lt_overflowBound (by positivity) hle)
  refine ⟨hnear.finite, fun c hc => ?_⟩
  have h := hnear.nearest c hc
  rw [abs_value_sub, abs_value_sub, div_le_div_iff_of_pos_right (by positivity), hhalf, hhalf,
    div_le_div_iff_of_pos_right two_pos] at h
  exact_mod_cast h

/-- The root of `v` units of 2^-298, rounded the way `fsqrt` does. -/
theorem sqrt_roundsTo {v : Nat} (hlo : 2 ^ 149 ≤ v) (hhi : v < 2 ^ 213 * 2 ^ 213) :
    RoundsTo (ofMag false (roundMag (2 * isqrt v + if isqrt v * isqrt v = v then 0 else 1) 2)) (√v / 2 ^ 149) := by
  rw [isqrt_eq_sqrt]
  split
  case isTrue h =>
    have hv : √(v : ℝ) = v.sqrt := by
      rw [Real.sqrt_eq_iff_mul_self_eq (Nat.cast_nonneg _) (Nat.cast_nonneg _)]
      exact_mod_cast h.symm
    have hr := roundMag_roundsTo false (2 * v.sqrt) 2 two_pos
    rwa [signFactor_false, one_mul, Nat.cast_mul, mul_div_cancel_left₀ _ (by positivity), ← hv] at hr
  case isFalse h =>
    have hn : 2 ^ 24 ≤ v.sqrt := Nat.le_sqrt.2 (le_trans (by norm_num) hlo)
    have hn' : v.sqrt < 2 ^ 213 := Nat.sqrt_lt.2 hhi
    have hirr : Irrational √(v : ℝ) := irrational_sqrt_natCast_iff.2 fun ⟨r, hr⟩ => h (by rw [hr, Nat.sqrt_eq])
    have hge : (v.sqrt : ℝ) < √(v : ℝ) := Real.nat_sqrt_le_real_sqrt.lt_of_ne fun he => hirr ⟨v.sqrt, by simpa using he⟩
    have hlt : √(v : ℝ) < v.sqrt + 1 := Real.real_sqrt_lt_nat_sqrt_succ
    obtain ⟨hf, hw⟩ := nearest_half hn'
    refine (nearestEven_of_irrational hirr hf fun c hc => nearest_of_between hn hge hlt hw hc).roundsTo ?_
    exact abs_lt_overflowBound (Real.sqrt_nonneg _) (hlt.le.trans (by exact_mod_cast hn'))

theorem units_lt (h : isFinite a = true) : units a < 2 ^ 277 := by
  rw [units_eq_magUnits]
  refine (magUnits_strictMono ((isFinite_iff a).1 h)).trans_eq ?_
  rw [magUnits_infMag.1, ← pow_add]

theorem fsqrt_roundsTo (d : Draw) (hf : isFinite a = true) (hs : fSign a = false) :
    RoundsTo (fsqrt d a) √(value a : ℝ) := by
  by_cases hz : isZero a = true
  · rw [fsqrt_of_isZero d hz, value_of_isZero hz, Rat.cast_zero, Real.sqrt_zero,
      show a = ofMag false 0 from eq_of_fSign_of_fMag (by simp [hs]) (by rw [(isZero_iff a).1 hz]; rfl)]
    exact roundsTo_zero false
  · rw [Bool.not_eq_true] at hz
    have hv : √(value a : ℝ) = √((units a * 2 ^ 149 : Nat) : ℝ) / 2 ^ 149 := by
      have he : (value a : ℝ) = (units a * 2 ^ 149 : Nat) / (2 ^ 149) ^ 2 := by
        rw [value_eq_units, hs, signFactor_false, one_mul, Nat.cast_mul, Nat.cast_pow, Nat.cast_ofNat, pow_two,
          mul_div_mul_right _ _ (by positivity)]
      rw [he, Real.sqrt_div (Nat.cast_nonneg _), Real.sqrt_sq (by positivity)]
    rw [fsqrt_of_isFinite d hf hz hs, hv]
    exact sqrt_roundsTo (Nat.le_mul_of_pos_left _ (units_pos hz)) 
      ((Nat.mul_lt_mul_of_pos_right (units_lt hf) (by positivity)).trans_eq (by rw [← pow_add, ← pow_add]))

/-- Settles O51: an exact root is rounded as it is, any other like the half unit `fsqrt` puts in its place. -/
theorem squareRootCorrectlyRounded : Obligations.SquareRootCorrectlyRounded := fun d _ => fsqrt_roundsTo d

end Sys2Proof.Machine

/-! SUPPORT. The instructions of the window unit, as a host that finds FAULT clear sees them: each is its size check,
then a block of computed words in one scratch memory (41_window_and_conditioning.md R161, R162, R163). -/

namespace Sys2Proof.Machine

variable {s : State}

theorem busWrite_sizeChecked_legal {legal : Bool} (hf : s.faulted = false) (hl : legal = true) (info : Word)
    (e : State → State) : busWrite s (sizeChecked legal info e) = .next (e s) := by
  rw [busWrite_clear hf, sizeChecked_legal hl]

theorem busWrite_sizeChecked_illegal {legal : Bool} (hf : s.faulted = false) (hl : legal ≠ true) (info : Word)
    (e : State → State) : busWrite s (sizeChecked legal info e) = .next (raise 1#32 info s) := by
  rw [busWrite_clear hf, sizeChecked_illegal (Bool.eq_false_iff.2 hl)]

/-- A block computed index by index reads back as computed; only PCM narrows what is stored. -/
theorem elem_storeBlock_range {m : ScratchMem} (hm : m ≠ .pcm) (f : Nat → Word) (s : State) {n i : Nat} (hi : i < n) :
    elem (storeBlock m ((List.range n).map f) s) m i = f i := by
  rw [elem_storeBlock_same m _ s (by simpa using hi), elementWord, if_neg hm, List.getElem_map, List.getElem_range]

theorem peek_storeBlock_range_other (m : ScratchMem) (f : Nat → Word) (s : State) {n a : Nat}
    (h : a < scratchBase m ∨ scratchBase m + n ≤ a) : peek (storeBlock m ((List.range n).map f) s) a = peek s a :=
  peek_storeBlock_other m _ s (by simpa using h)

theorem elem_doWingen (s : State) {n i : Nat} (hi : i < n) :
    elem (doWingen n s) .win i = hann trig32 (i :: drawAt s siteWingen) i n :=
  elem_storeBlock_range (by decide) (fun i => hann trig32 (i :: drawAt s siteWingen) i n) s hi

theorem elem_doPcm2f (s : State) {n i : Nat} (hi : i < n) :
    elem (doPcm2f n s) .sig i = pcmToFloat (i :: drawAt s sitePcm2f) (elem s .pcm i) :=
  elem_storeBlock_range (by decide) (fun i => pcmToFloat (i :: drawAt s sitePcm2f) (elem s .pcm i)) s hi

theorem elem_doWmul (s : State) {n i : Nat} (hi : i < n) :
    elem (doWmul n s) .wsig i = fmul (i :: drawAt s siteWmul) (elem s .sig i) (elem s .win i) :=
  elem_storeBlock_range (by decide) (fun i => fmul (i :: drawAt s siteWmul) (elem s .sig i) (elem s .win i)) s hi

/-- Settles O15: the check is that of the power of two, the coefficients are stored index by index, and the tag is the
operand. -/
theorem wingenWritesHannWindow : Obligations.WingenWritesHannWindow := by
  intro s n hf
  refine ⟨fun h => ⟨doWingen n.toNat s, ?_, fun i hi => ⟨_, _, _, _, elem_doWingen s hi⟩, fun a ha => ?_, ?_⟩,
    fun h => ?_⟩
  · exact busWrite_sizeChecked_legal hf ((legalPow2_iff _ _ _).2 h) _ _
  · exact peek_storeBlock_range_other .win _ s ha
  · rw [doWingen_frame, BitVec.ofNat_toNat]
  · exact busWrite_sizeChecked_illegal hf (mt (legalPow2_iff _ _ _).1 h) _ _

/-- Settles O17: the check is that of the window tag, and the products are stored index by index. -/
theorem wmulMultipliesByWindow : Obligations.WmulMultipliesByWindow := by
  intro s n hf
  refine ⟨fun hw hn => ⟨doWmul n.toNat s, ?_, fun i hi => ⟨_, elem_doWmul s hi⟩, fun a ha => ?_, doWmul_frame s _⟩,
    fun h => ?_⟩
  · exact busWrite_sizeChecked_legal hf ((legalWindowed_iff _ _).2 ⟨hw, hn⟩) _ _
  · exact peek_storeBlock_range_other .wsig _ s ha
  · exact busWrite_sizeChecked_illegal hf (mt (legalWindowed_iff _ _).1 (by tauto)) _ _

end Sys2Proof.Machine

/-! SUPPORT. Intervals and exact points of rounding (40_numerics.md R133): what rounds to a pattern stays on the side of
every pattern where the exact result is. -/

namespace Sys2Proof.Machine

variable {w lo hi : Word} {q : ℝ}

/-- Rounding does not leave an interval whose ends are patterns. -/
theorem RoundsTo.between (h : RoundsTo w q) (hlo : isFinite lo = true) (hhi : isFinite hi = true)
    (hl : (value lo : ℝ) ≤ q) (hr : q ≤ value hi) :
    isFinite w = true ∧ value lo ≤ value w ∧ value w ≤ value hi := by
  obtain ⟨hlb, -⟩ := abs_lt.1 (abs_value_lt_overflowBound hlo)
  obtain ⟨-, hub⟩ := abs_lt.1 (abs_value_lt_overflowBound hhi)
  obtain ⟨hf, hnear, -⟩ := h.1 (abs_lt.2 ⟨hlb.trans_le hl, hr.trans_lt hub⟩)
  refine ⟨hf, ?_, ?_⟩
  · by_contra hlt
    have hlt' : (value w : ℝ) < value lo := by exact_mod_cast not_le.1 hlt
    have hd := hnear lo hlo
    rw [abs_of_neg (by linarith), abs_of_nonpos (by linarith)] at hd
    linarith
  · by_contra hlt
    have hlt' : (value hi : ℝ) < value w := by exact_mod_cast not_le.1 hlt
    have hd := hnear hi hhi
    rw [abs_of_pos (by linarith), abs_of_nonneg (by linarith)] at hd
    linarith

/-- A result that could be exact is finite. -/
theorem RoundsTo.isFinite {c : Word} (h : RoundsTo w q) (hc : isFinite c = true) (hq : (value c : ℝ) = q) :
    isFinite w = true :=
  (h.1 (hq ▸ abs_value_lt_overflowBound hc)).finite

/-- `z * 2^j` units, with a significand of at most 24 bits, are the value of a pattern. -/
theorem exists_value_eq_units {z : ℤ} {j : Nat} (hz : z.natAbs ≤ 2 ^ 24) (hj : j ≤ 252) :
    ∃ c, isFinite c = true ∧ (value c : ℝ) = z * 2 ^ j / 2 ^ 149 := by
  obtain ⟨m, hm, he⟩ := exists_magUnits_eq j z.natAbs hz hj
  have hlt : m < 2 ^ 31 := hm.trans (by decide)
  refine ⟨ofMag (decide (z < 0)) m, (isFinite_iff _).2 (by rwa [fMag_ofMag _ hlt]), ?_⟩
  rw [value_eq, fSign_ofMag _ hlt, fMag_ofMag _ hlt, he, Nat.cast_mul, ← mul_assoc, signFactor_mul_natAbs, Nat.cast_pow,
    Nat.cast_ofNat]

theorem isFinite_i2f {z : ℤ} (hz : z.natAbs ≤ 2 ^ 24) : isFinite (i2f z) = true := by
  obtain ⟨c, hc, hv⟩ := exists_value_eq_units (j := 149) hz (by decide)
  rw [mul_div_cancel_right₀ _ (by positivity)] at hv
  exact (i2f_roundsTo z).isFinite hc hv

theorem value_f32768 : value f32768 = 32768 := by decide +kernel

/-- A sample has at most 16 bits, so its quotient by 2^15 is exact (41_window_and_conditioning.md R162). -/
theorem pcmToFloat_exact (d : Draw) (v : Word) :
    isFinite (pcmToFloat d v) = true ∧ value (pcmToFloat d v) = (v.setWidth 16).toInt / 32768 := by
  have hbits : (v.setWidth 16).toInt.natAbs ≤ 2 ^ 24 := by
    have hlo := BitVec.le_toInt (v.setWidth 16)
    have hhi := BitVec.toInt_lt (x := v.setWidth 16)
    omega
  have hround := fdiv_roundsTo d (isFinite_i2f hbits) (b := f32768) (by decide) (by decide)
  rw [value_i2f_of_natAbs_le hbits, value_f32768] at hround
  obtain ⟨c, hc, hv⟩ := exists_value_eq_units (j := 134) hbits (by decide)
  have hq : (value c : ℝ) = ((v.setWidth 16).toInt : ℚ) / (32768 : ℚ) := by
    rw [hv]
    push_cast
    ring
  exact ⟨hround.isFinite hc hq, by exact_mod_cast hround.eq_value hc hq⟩

/-- Settles O16: the check is that of the count, the quotients are stored index by index, and each is exact. -/
theorem pcm2fConvertsSamplesExactly : Obligations.Pcm2fConvertsSamplesExactly := by
  intro s n hf
  refine ⟨fun h => ⟨doPcm2f n.toNat s, ?_, fun i hi => ?_, fun a ha => ?_, doPcm2f_frame s _⟩, fun h => ?_⟩
  · exact busWrite_sizeChecked_legal hf ((legalCount_iff _ _).2 h) _ _
  · rw [elem_doPcm2f s hi]
    exact ⟨⟨_, rfl⟩, pcmToFloat_exact _ _⟩
  · exact peek_storeBlock_range_other .sig _ s ha
  · exact busWrite_sizeChecked_illegal hf (mt (legalCount_iff _ _).1 (not_le.2 h)) _ _

end Sys2Proof.Machine

/-! SUPPORT. The arguments of the cosine and the sine (41_window_and_conditioning.md R160; 42_fft.md R180): a constant
times an index over a length, each rounded. Rounding is monotone, so the largest index bounds all of them. -/

namespace Sys2Proof.Machine

/-- With the same neighbours the smaller quotient is rounded up and the larger down only if both are the tie, which has
one answer. -/
theorem roundMag_mono {n n' d : Nat} (hd : 0 < d) (h : n ≤ n') : roundMag n d ≤ roundMag n' d := by
  obtain ⟨p, r, hr, hp, -, hcase⟩ := roundMag_cases n d hd
  obtain ⟨p', r', hr', -, hp', hcase'⟩ := roundMag_cases n' d hd
  have hlt : magUnits p < magUnits (p' + 1) := Nat.lt_of_mul_lt_mul_right (hp.trans_lt (h.trans_lt hp'))
  have hpp : p ≤ p' := Nat.lt_succ_iff.1 (magUnits_strictMono.lt_iff_lt.1 hlt)
  rw [hr, hr']
  refine min_le_min_right _ ?_
  rcases hpp.lt_or_eq with hne | rfl <;> omega

@[simp] theorem roundMag_zero (d : Nat) : roundMag 0 d = 0 := by simp [roundMag]

/-- The argument of index `i` over the length `m`, with the constant `c` in front. -/
def angle (d1 d2 : Draw) (c : Word) (i m : Nat) : Word := fdiv d1 (fmul d2 c (u2f i)) (u2f m)

theorem hann_eq (t : Trig) (d : Draw) (i n : Nat) : hann t d i n =
    fmul (2 :: d) fHalf (fsub (3 :: d) f1 (t.cos (angle (0 :: d) (1 :: d) twoPi32 i (n - 1)))) := rfl

theorem twiddle_eq (t : Trig) (d : Draw) (k n : Nat) : twiddle t d k n =
    { re := t.cos (angle (0 :: d) (1 :: d) negTwoPi32 k n), im := t.sin (angle (0 :: d) (1 :: d) negTwoPi32 k n) } :=
  rfl

/-- The magnitude pattern of an argument. -/
def angleMag (c : Word) (i m : Nat) : Nat :=
  roundMag (magUnits (roundMag (units c * units (u2f i)) (2 ^ 149)) * 2 ^ 149) (units (u2f m))

theorem units_u2f_mono {i j : Nat} (h : i ≤ j) : units (u2f i) ≤ units (u2f j) := by
  rw [units_eq_magUnits, units_eq_magUnits, u2f, u2f, fMag_ofMag _ (roundMag_lt ..), fMag_ofMag _ (roundMag_lt ..)]
  exact magUnits_strictMono.monotone (roundMag_mono one_pos (Nat.mul_le_mul_right _ h))

theorem isFinite_u2f {n : Nat} (h : n ≤ 2 ^ 24) : isFinite (u2f n) = true :=
  u2f_eq_i2f n ▸ isFinite_i2f (by simpa using h)

theorem isZero_u2f {n : Nat} (h0 : n ≠ 0) (h : n ≤ 2 ^ 24) : isZero (u2f n) = false := by
  rw [Bool.eq_false_iff]
  intro hz
  have hv := value_of_isZero hz
  rw [u2f_eq_i2f, value_i2f_of_natAbs_le (by simpa using h)] at hv
  exact h0 (by exact_mod_cast hv)

theorem angleMag_mono (c : Word) {i j m : Nat} (hij : i ≤ j) (h0 : m ≠ 0) (hm : m ≤ 2 ^ 24) :
    angleMag c i m ≤ angleMag c j m := by
  refine roundMag_mono (units_pos (isZero_u2f h0 hm)) (Nat.mul_le_mul_right _ ?_)
  exact magUnits_strictMono.monotone (roundMag_mono (by positivity) (Nat.mul_le_mul_left _ (units_u2f_mono hij)))

theorem fSign_u2f (n : Nat) : fSign (u2f n) = false := fSign_ofMag _ (roundMag_lt ..)

/-- An argument has the sign of its constant, and its draws do not matter, where the product does not overflow. -/
theorem angle_eq_ofMag {c : Word} {i m : Nat} (d1 d2 : Draw) (hc : isFinite c = true)
    (hprod : roundMag (units c * units (u2f (2 ^ 24))) (2 ^ 149) < infMag) (hi : i ≤ 2 ^ 24) (h0 : m ≠ 0)
    (hm : m ≤ 2 ^ 24) : angle d1 d2 c i m = ofMag (fSign c) (angleMag c i m) := by
  have hlt : roundMag (units c * units (u2f i)) (2 ^ 149) < infMag :=
    (roundMag_mono (by positivity) (Nat.mul_le_mul_left _ (units_u2f_mono hi))).trans_lt hprod
  have hmul : fmul d2 c (u2f i) = ofMag (fSign c) (roundMag (units c * units (u2f i)) (2 ^ 149)) := by
    rw [fmul_of_isFinite d2 hc (isFinite_u2f hi), fSign_u2f, Bool.bne_false]
  have hfin : isFinite (ofMag (fSign c) (roundMag (units c * units (u2f i)) (2 ^ 149))) = true := by
    rwa [isFinite_iff, fMag_ofMag _ (roundMag_lt ..)]
  rw [angle, hmul, fdiv_of_isFinite d1 hfin (isFinite_u2f hm) (isZero_u2f h0 hm), fSign_ofMag _ (roundMag_lt ..),
    fSign_u2f, Bool.bne_false, units_eq_magUnits (ofMag _ _), fMag_ofMag _ (roundMag_lt ..), angleMag]

theorem window_angle_eq {i m : Nat} (d1 d2 : Draw) (hi : i ≤ 2 ^ 24) (h0 : m ≠ 0) (hm : m ≤ 2 ^ 24) :
    angle d1 d2 twoPi32 i m = ofMag false (angleMag twoPi32 i m) :=
  angle_eq_ofMag d1 d2 (by decide) (by decide +kernel) hi h0 hm

theorem twiddle_angle_eq {k m : Nat} (d1 d2 : Draw) (hk : k ≤ 2 ^ 24) (h0 : m ≠ 0) (hm : m ≤ 2 ^ 24) :
    angle d1 d2 negTwoPi32 k m = ofMag true (angleMag negTwoPi32 k m) :=
  angle_eq_ofMag d1 d2 (by decide) (by decide +kernel) hk h0 hm

/-- The argument of index 0 is +0, so the cosine is 1.0 and the coefficient the half of a difference that cancels. -/
theorem hann_zero {g : Trig} (d : Draw) {n : Nat} (hg : g.Exact) (h2 : 2 ≤ n) (hn : n ≤ 2 ^ 23) :
    hann g d 0 n = f0 := by
  have hangle : angle (0 :: d) (1 :: d) twoPi32 0 (n - 1) = f0 := by
    have hz : units (u2f 0) = 0 := rfl
    have hm : angleMag twoPi32 0 (n - 1) = 0 := by simp [angleMag, hz, magUnits]
    rw [window_angle_eq _ _ (Nat.zero_le _) (by omega) (by omega), hm]
    rfl
  rw [hann_eq, hangle, hg.cos_zero, fsub_self _ (by decide), fmul_of_isFinite _ (by decide) (by decide)]
  decide

/-- Settles O18: by the exact point at +0. -/
theorem firstWindowCoefficientIsZero : Obligations.FirstWindowCoefficientIsZero :=
  fun _ d _ hg h2 hn => hann_zero d hg h2 hn

/-- The last argument of each window is TWO_PI32: the rounding of the quotient undoes that of the product. -/
theorem angleMag_window_last : ∀ e < 23, angleMag twoPi32 (2 ^ (e + 1) - 1) (2 ^ (e + 1) - 1) = fMag twoPi32 := by
  decide +kernel

/-- The last argument of each twiddle stays below PI32. -/
theorem angleMag_twiddle_last : ∀ e < 23, angleMag negTwoPi32 (2 ^ e - 1) (2 ^ (e + 1)) < fMag 0x40490FDB#32 := by
  decide +kernel

theorem fKey_ofMag_false {m : Nat} (h : m < 2 ^ 31) : fKey (ofMag false m) = m := by
  rw [fKey, fSign_ofMag false h, fMag_ofMag false h, if_neg Bool.false_ne_true]

theorem fKey_ofMag_true {m : Nat} (h : m < 2 ^ 31) : fKey (ofMag true m) = -m := by
  rw [fKey, fSign_ofMag true h, fMag_ofMag true h, if_pos rfl]

theorem value_f0 : value f0 = 0 := value_of_isZero (by decide)

theorem fKey_f0 : fKey f0 = 0 := fKey_of_isZero (by decide)

theorem angleMag_lt (c : Word) (i m : Nat) : angleMag c i m < 2 ^ 31 := roundMag_lt ..

/-- A length of the window unit, by its exponent (30_encoding.md R106). -/
theorem exists_eq_two_pow_succ {n : Nat} (hn : isPow2 n = true) (h2 : 2 ≤ n) (hmax : n ≤ 2 ^ 23) :
    ∃ e < 23, n = 2 ^ (e + 1) := by
  obtain ⟨k, rfl⟩ := (isPow2_iff n).1 hn
  have h0 : k ≠ 0 := by
    rintro rfl
    exact absurd h2 (by decide)
  have hk : k ≤ 23 := (Nat.pow_le_pow_iff_right (by decide)).1 hmax
  exact ⟨k - 1, by omega, by rw [Nat.sub_add_cancel (by omega)]⟩

/-- The arguments of a window: none is larger than the last, which is TWO_PI32
(41_window_and_conditioning.md R160 b). -/
theorem window_angle_range (d1 d2 : Draw) {n i : Nat} (hn : isPow2 n = true) (h2 : 2 ≤ n) (hmax : n ≤ 2 ^ 23)
    (hi : i < n) : isFinite (angle d1 d2 twoPi32 i (n - 1)) = true ∧ 0 ≤ value (angle d1 d2 twoPi32 i (n - 1)) ∧
      value (angle d1 d2 twoPi32 i (n - 1)) ≤ value twoPi32 ∧
      (i = n - 1 → angle d1 d2 twoPi32 i (n - 1) = twoPi32) := by
  have hlast : angleMag twoPi32 (n - 1) (n - 1) = fMag twoPi32 := by
    obtain ⟨e, he, rfl⟩ := exists_eq_two_pow_succ hn h2 hmax
    exact angleMag_window_last e he
  have hle : angleMag twoPi32 i (n - 1) ≤ fMag twoPi32 :=
    (angleMag_mono twoPi32 (by omega) (by omega) (by omega)).trans_eq hlast
  have hk : fKey twoPi32 = fMag twoPi32 := by decide
  rw [window_angle_eq _ _ (by omega) (by omega) (by omega), ← value_f0, value_le_iff, value_le_iff,
    fKey_ofMag_false (angleMag_lt ..), fKey_f0, hk]
  refine ⟨?_, ?_, ?_, ?_⟩
  · rw [isFinite_iff, fMag_ofMag _ (angleMag_lt ..)]
    exact hle.trans_lt (by decide)
  · exact Int.natCast_nonneg _
  · exact Int.ofNat_le.2 hle
  · rintro rfl
    rw [hlast]
    rfl

/-- The arguments of the twiddles of a length: none is further from 0 than the last, and all have sign 1
(42_fft.md R180 b). -/
theorem twiddle_angle_range (d1 d2 : Draw) {L k : Nat} (h1 : 1 ≤ L) (hL : L ≤ 23) (hk : k < 2 ^ (L - 1)) :
    isFinite (angle d1 d2 negTwoPi32 k (2 ^ L)) = true ∧
      -value 0x40490FDB#32 < value (angle d1 d2 negTwoPi32 k (2 ^ L)) ∧
      value (angle d1 d2 negTwoPi32 k (2 ^ L)) ≤ 0 ∧ fSign (angle d1 d2 negTwoPi32 k (2 ^ L)) = true := by
  obtain ⟨e, rfl⟩ := Nat.exists_eq_add_of_le' h1
  rw [Nat.add_sub_cancel] at hk
  have hpow : 2 ^ e ≤ 2 ^ 22 := Nat.pow_le_pow_right (by decide) (by omega)
  have hlen : 2 ^ (e + 1) ≤ 2 ^ 24 := Nat.pow_le_pow_right (by decide) (by omega)
  have hlt : angleMag negTwoPi32 k (2 ^ (e + 1)) < fMag 0x40490FDB#32 :=
    (angleMag_mono negTwoPi32 (Nat.le_sub_one_of_lt hk) (by positivity) hlen).trans_lt
      (angleMag_twiddle_last e (by omega))
  have hkpi : fKey (fneg 0x40490FDB#32) = -fMag 0x40490FDB#32 := by decide
  rw [twiddle_angle_eq _ _ (by omega) (by positivity) hlen, ← value_f0, ← value_fneg, value_lt_iff, value_le_iff,
    fKey_ofMag_true (angleMag_lt ..), fSign_ofMag _ (angleMag_lt ..), fKey_f0, hkpi]
  refine ⟨?_, ?_, ?_, rfl⟩
  · rw [isFinite_iff, fMag_ofMag _ (angleMag_lt ..)]
    exact hlt.trans (by decide)
  · exact neg_lt_neg (Int.ofNat_lt.2 hlt)
  · exact neg_nonpos.2 (Int.natCast_nonneg _)

end Sys2Proof.Machine

/-! SUPPORT. The bounds of window coefficients and twiddle factors (41_window_and_conditioning.md R160; 42_fft.md R180):
the arguments lie where 40_numerics.md R145 speaks, and the roundings that follow keep the bounds, which are
patterns. -/

namespace Sys2Proof.Machine

variable {a b lo hi x v : Word}

/-- A word within 2^-23 of a real of magnitude at most 1. -/
theorem abs_value_le_of_near {y : ℝ} (hy : |y| ≤ 1) (h : |(value v : ℝ) - y| ≤ 2⁻¹ ^ 23) :
    |value v| ≤ 1 + 1 / 2 ^ 23 := by
  rw [← Rat.cast_le (K := ℝ), Rat.cast_abs]
  calc |(value v : ℝ)| ≤ |(value v : ℝ) - y| + |y| := by simpa using abs_add_le ((value v : ℝ) - y) y
    _ ≤ 2⁻¹ ^ 23 + 1 := add_le_add h hy
    _ = ((1 + 1 / 2 ^ 23 : ℚ) : ℝ) := by norm_num

theorem trig32_cos_bounded (hf : isFinite x = true) (hx : |value x| ≤ value trigBound) :
    isFinite (trig32.cos x) = true ∧ |value (trig32.cos x)| ≤ 1 + 1 / 2 ^ 23 := by
  obtain ⟨hc, hnear⟩ := trig32_accurate.cos_near x hf hx
  exact ⟨hc, abs_value_le_of_near (Real.abs_cos_le_one _) hnear⟩

theorem trig32_sin_bounded (hf : isFinite x = true) (hx : |value x| ≤ value trigBound) :
    isFinite (trig32.sin x) = true ∧ |value (trig32.sin x)| ≤ 1 + 1 / 2 ^ 23 := by
  obtain ⟨hc, hnear⟩ := trig32_accurate.sin_near x hf hx
  exact ⟨hc, abs_value_le_of_near (Real.abs_sin_le_one _) hnear⟩

theorem fsub_between (d : Draw) (ha : isFinite a = true) (hb : isFinite b = true) (hlo : isFinite lo = true)
    (hhi : isFinite hi = true) (hl : value lo ≤ value a - value b) (hr : value a - value b ≤ value hi) :
    isFinite (fsub d a b) = true ∧ value lo ≤ value (fsub d a b) ∧ value (fsub d a b) ≤ value hi :=
  (fsub_roundsTo d ha hb).between hlo hhi (by exact_mod_cast hl) (by exact_mod_cast hr)

theorem fmul_between (d : Draw) (ha : isFinite a = true) (hb : isFinite b = true) (hlo : isFinite lo = true)
    (hhi : isFinite hi = true) (hl : value lo ≤ value a * value b) (hr : value a * value b ≤ value hi) :
    isFinite (fmul d a b) = true ∧ value lo ≤ value (fmul d a b) ∧ value (fmul d a b) ≤ value hi :=
  (fmul_roundsTo d ha hb).between hlo hhi (by exact_mod_cast hl) (by exact_mod_cast hr)

/-- The difference lies between the patterns -2^-23 and 2 + 2^-22 (the bound 2 + 2^-23 itself is none), its half between
half of these. -/
theorem half_one_sub_bounded (d1 d2 : Draw) (hv : isFinite v = true) (hb : |value v| ≤ 1 + 1 / 2 ^ 23) :
    isFinite (fmul d1 fHalf (fsub d2 f1 v)) = true ∧
      -(1 / 2 ^ 24) ≤ value (fmul d1 fHalf (fsub d2 f1 v)) ∧ value (fmul d1 fHalf (fsub d2 f1 v)) ≤ 1 + 1 / 2 ^ 23 := by
  have hsubLo : value 0xB4000000#32 = -(1 / 2 ^ 23) := by decide +kernel
  have hsubHi : value 0x40000001#32 = 2 + 1 / 2 ^ 22 := by decide +kernel
  have hmulLo : value 0xB3800000#32 = -(1 / 2 ^ 24) := by decide +kernel
  have hmulHi : value 0x3F800001#32 = 1 + 1 / 2 ^ 23 := by decide +kernel
  have hhalf : value fHalf = 1 / 2 := by decide +kernel
  obtain ⟨hvlo, hvhi⟩ := abs_le.1 hb
  obtain ⟨hf, hlo, hhi⟩ := fsub_between d2 (a := f1) (lo := 0xB4000000#32) (hi := 0x40000001#32) (by decide) hv
    (by decide) (by decide) (by rw [hsubLo, value_f1]; linarith) (by rw [hsubHi, value_f1]; linarith)
  rw [hsubLo] at hlo
  rw [hsubHi] at hhi
  rw [← hmulLo, ← hmulHi]
  exact fmul_between d1 (by decide) hf (by decide) (by decide) (by rw [hmulLo, hhalf]; linarith)
    (by rw [hmulHi, hhalf]; linarith)

theorem value_twoPi32_le : value twoPi32 ≤ value trigBound := by decide +kernel

/-- Settles O60: the ranges of the arguments, and the accuracy of the pair inside them. -/
theorem windowAndTwiddlesAreBounded : Obligations.WindowAndTwiddlesAreBounded := by
  refine ⟨fun d1 d2 n i hn h2 hmax hi => ⟨window_angle_range d1 d2 hn h2 hmax hi, ?_⟩,
    fun d1 d2 L k h1 hL hk => ⟨twiddle_angle_range d1 d2 h1 hL hk, ?_⟩⟩
  · obtain ⟨hf, h0, hle, -⟩ := window_angle_range (0 :: d1) (1 :: d1) hn h2 hmax hi
    obtain ⟨hcf, hcb⟩ := trig32_cos_bounded hf (by rw [abs_of_nonneg h0]; exact hle.trans value_twoPi32_le)
    exact half_one_sub_bounded _ _ hcf hcb
  · obtain ⟨hf, hlt, h0, -⟩ := twiddle_angle_range (0 :: d1) (1 :: d1) h1 hL hk
    have hb : |value (angle (0 :: d1) (1 :: d1) negTwoPi32 k (2 ^ L))| ≤ value trigBound := by
      rw [abs_of_nonpos h0]
      exact (neg_lt.1 hlt).le.trans (by decide +kernel)
    obtain ⟨hcf, hcb⟩ := trig32_cos_bounded hf hb
    obtain ⟨hsf, hsb⟩ := trig32_sin_bounded hf hb
    exact ⟨hcf, hcb, hsf, hsb⟩

end Sys2Proof.Machine

/-! SUPPORT. The butterfly, its twiddles, and the recursion by index (42_fft.md R180, R181, R182): element `k` of each
half of the result is an output of butterfly `k` of the transforms of the even-indexed and the odd-indexed half. -/

namespace Sys2Proof.Machine

/-- Settles O22: each of the ten roundings has the draw of its place in the formula. -/
theorem butterflyWrittenOut : Obligations.ButterflyWrittenOut :=
  fun _ _ _ _ => ⟨_, _, _, _, _, _, _, _, _, _, rfl⟩

theorem angleMag_index_zero (c : Word) (m : Nat) : angleMag c 0 m = 0 := by
  have hz : units (u2f 0) = 0 := rfl
  simp [angleMag, hz, magUnits]

/-- Settles O21: the argument is a zero with the sign of -2π, so the exact points at -0 answer. -/
theorem twiddleZeroIsOne : Obligations.TwiddleZeroIsOne := by
  intro g d L hg _ hL
  have hlen : 2 ^ L ≤ 2 ^ 24 := Nat.pow_le_pow_right (by decide) (by omega)
  have hangle : angle (0 :: d) (1 :: d) negTwoPi32 0 (2 ^ L) = fNeg0 := by
    rw [twiddle_angle_eq _ _ (Nat.zero_le _) (by positivity) hlen, angleMag_index_zero]
    rfl
  rw [twiddle_eq, hangle, hg.cos_negZero, hg.sin_negZero]

theorem getD_map_range (f : Nat → Cplx) {n i : Nat} (hi : i < n) : ((List.range n).map f).getD i czero = f i := by
  simp [hi]

/-- Lists of one length with the same elements. -/
theorem eq_of_getD_eq {x y : List Cplx} (hlen : x.length = y.length)
    (h : ∀ i < y.length, x.getD i czero = y.getD i czero) : x = y := by
  refine List.ext_getElem hlen fun i hx hy => ?_
  rw [← List.getD_eq_getElem _ czero hx, ← List.getD_eq_getElem _ czero hy, h i hy]

theorem evens_eq_map {x : List Cplx} {n : Nat} (h : x.length = 2 * n) :
    evens x = (List.range n).map fun i => x.getD (2 * i) czero := by
  refine eq_of_getD_eq (by simpa using (length_evens_odds n x h).1) fun i hi => ?_
  rw [getD_evens, getD_map_range _ (by simpa using hi)]

theorem odds_eq_map {x : List Cplx} {n : Nat} (h : x.length = 2 * n) :
    odds x = (List.range n).map fun i => x.getD (2 * i + 1) czero := by
  refine eq_of_getD_eq (by simpa using (length_evens_odds n x h).2) fun i hi => ?_
  rw [getD_odds, getD_map_range _ (by simpa using hi)]

/-- Butterfly `k` that combines the transforms of the two halves of `x` (R182). -/
def combine (g : Trig) (d : Draw) (L off stride : Nat) (x : List Cplx) (k : Nat) : Cplx × Cplx :=
  butterflyAt g d (2 ^ (L + 1)) off k ((fftRec g d L off (2 * stride) (evens x)).getD k czero)
    ((fftRec g d L (off + stride) (2 * stride) (odds x)).getD k czero)

theorem fftRec_succ (g : Trig) (d : Draw) (L off stride : Nat) (x : List Cplx) :
    fftRec g d (L + 1) off stride x = ((List.range (2 ^ L)).map fun k => (combine g d L off stride x k).1) ++
      (List.range (2 ^ L)).map fun k => (combine g d L off stride x k).2 := by
  simp only [fftRec, List.map_map]
  rfl

theorem getD_fftRec_lower (g : Trig) (d : Draw) (L off stride : Nat) (x : List Cplx) {k : Nat} (hk : k < 2 ^ L) :
    (fftRec g d (L + 1) off stride x).getD k czero = (combine g d L off stride x k).1 := by
  rw [fftRec_succ, List.getD_append _ _ _ _ (by simpa using hk), getD_map_range _ hk]

theorem getD_fftRec_upper (g : Trig) (d : Draw) (L off stride : Nat) (x : List Cplx) {k : Nat} (hk : k < 2 ^ L) :
    (fftRec g d (L + 1) off stride x).getD (k + 2 ^ L) czero = (combine g d L off stride x k).2 := by
  rw [fftRec_succ, List.getD_append_right _ _ _ _ (by simp), List.length_map, List.length_range, Nat.add_sub_cancel,
    getD_map_range _ hk]

/-- Settles O19: the halves by index, and the two outputs of each butterfly. -/
theorem transformIsRadix2Recursion : Obligations.TransformIsRadix2Recursion := by
  refine fun g d off stride => ⟨fun x => rfl, fun L x hx => ⟨_, _, rfl, rfl, length_fftRec _ _ _ _ _ _ hx, ?_⟩⟩
  have hx2 : x.length = 2 * 2 ^ L := hx.trans (pow_succ' 2 L)
  rw [← evens_eq_map hx2, ← odds_eq_map hx2]
  exact fun k hk => ⟨_, _, getD_fftRec_lower g d L off stride x hk, getD_fftRec_upper g d L off stride x hk⟩

end Sys2Proof.Machine

/-! SUPPORT. The iterative form equals the recursion (42_fft.md R183). Before stage `s + 1` each block of `2^s` elements
holds the recursion's transform of one strided subsequence of the input: block `c` that of the subsequence which begins
at the bit-reversal of `c`. A stage turns blocks `2c` and `2c + 1` into block `c` of twice the length. -/

namespace Sys2Proof.Machine

variable {g : Trig} {d : Draw} {x a : List Cplx} {n s : Nat}

/-- The `2^s` elements of `x` from `off` on, `stride` apart. -/
def subseq (x : List Cplx) (s off stride : Nat) : List Cplx :=
  (List.range (2 ^ s)).map fun i => x.getD (off + i * stride) czero

theorem length_subseq (x : List Cplx) (s off stride : Nat) : (subseq x s off stride).length = 2 ^ s := by
  simp [subseq]

theorem getD_subseq (x : List Cplx) (off stride : Nat) {s i : Nat} (hi : i < 2 ^ s) :
    (subseq x s off stride).getD i czero = x.getD (off + i * stride) czero := getD_map_range _ hi

theorem subseq_whole (hx : x.length = 2 ^ s) : subseq x s 0 1 = x := by
  refine eq_of_getD_eq ((length_subseq ..).trans hx.symm) fun i hi => ?_
  rw [getD_subseq _ _ _ (hx ▸ hi), Nat.zero_add, Nat.mul_one]

theorem evens_subseq (x : List Cplx) (s off stride : Nat) :
    evens (subseq x (s + 1) off stride) = subseq x s off (2 * stride) := by
  rw [evens_eq_map ((length_subseq ..).trans (pow_succ' 2 s)), subseq.eq_def x s]
  refine List.map_congr_left fun i hi => ?_
  rw [List.mem_range] at hi
  rw [getD_subseq _ _ _ (by omega), show 2 * i * stride = i * (2 * stride) by ring]

theorem odds_subseq (x : List Cplx) (s off stride : Nat) :
    odds (subseq x (s + 1) off stride) = subseq x s (off + stride) (2 * stride) := by
  rw [odds_eq_map ((length_subseq ..).trans (pow_succ' 2 s)), subseq.eq_def x s]
  refine List.map_congr_left fun i hi => ?_
  rw [List.mem_range] at hi
  rw [getD_subseq _ _ _ (by omega), show off + (2 * i + 1) * stride = off + stride + i * (2 * stride) by ring]

theorem bitrev_double (n c : Nat) : bitrev (n + 1) (2 * c) = bitrev n c := by simp [bitrev]

theorem bitrev_double_add_one (n c : Nat) : bitrev (n + 1) (2 * c + 1) = bitrev n c + 2 ^ n := by
  rw [bitrev, show (2 * c + 1) % 2 = 1 by omega, show (2 * c + 1) / 2 = c by omega]
  ring

/-- The reversal of the first index of block `c` is that of the block's number. -/
theorem bitrev_blockStart (n s c : Nat) : bitrev (n + s) (c * 2 ^ s) = bitrev n c := by
  induction s with
  | zero => simp
  | succ s ih => rw [pow_succ, ← mul_assoc, mul_comm _ 2, ← Nat.add_assoc, bitrev_double, ih]

/-- What block `c` of length `2^s` holds: the transform of the subsequence that begins at the reversal of `c`. -/
def blockTransform (g : Trig) (d : Draw) (x : List Cplx) (n s c : Nat) : List Cplx :=
  fftRec g d s (bitrev n c) (2 ^ n) (subseq x s (bitrev n c) (2 ^ n))

/-- Butterfly `j` of block `c` of stage `s + 1` on the array `a` (R183). -/
def stageButterfly (g : Trig) (d : Draw) (n s : Nat) (a : List Cplx) (c j : Nat) : Cplx × Cplx :=
  butterflyAt g d (2 ^ (s + 1)) (bitrev n c) j (a.getD (2 * c * 2 ^ s + j) czero)
    (a.getD ((2 * c + 1) * 2 ^ s + j) czero)

/-- The butterflies of a stage that combine the blocks' transforms are those of the recursion. -/
theorem combine_subseq (g : Trig) (d : Draw) (x : List Cplx) (n s c j : Nat) :
    combine g d s (bitrev n c) (2 ^ n) (subseq x (s + 1) (bitrev n c) (2 ^ n)) j =
      butterflyAt g d (2 ^ (s + 1)) (bitrev n c) j ((blockTransform g d x (n + 1) s (2 * c)).getD j czero)
        ((blockTransform g d x (n + 1) s (2 * c + 1)).getD j czero) := by
  rw [combine, evens_subseq, odds_subseq, ← pow_succ', blockTransform, blockTransform, bitrev_double,
    bitrev_double_add_one]

theorem length_fftStage (g : Trig) (d : Draw) (L s : Nat) (a : List Cplx) :
    (fftStage g d L s a).length = 2 ^ L := by simp [fftStage]

theorem blockIndex_lt {c q : Nat} (hc : c < 2 ^ n) (hq : q < 2 ^ s) : c * 2 ^ s + q < 2 ^ (n + s) :=
  calc c * 2 ^ s + q < (c + 1) * 2 ^ s := by rw [Nat.succ_mul]; exact Nat.add_lt_add_left hq _
    _ ≤ 2 ^ n * 2 ^ s := Nat.mul_le_mul_right _ hc
    _ = 2 ^ (n + s) := (pow_add 2 n s).symm

theorem getD_fftStage (g : Trig) (d : Draw) (a : List Cplx) {c q : Nat} (hc : c < 2 ^ n) (hq : q < 2 ^ (s + 1)) :
    (fftStage g d (n + (s + 1)) (s + 1) a).getD (c * 2 ^ (s + 1) + q) czero =
      if q < 2 ^ s then (stageButterfly g d n s a c (q % 2 ^ s)).1
      else (stageButterfly g d n s a c (q % 2 ^ s)).2 := by
  have hmod : (c * 2 ^ (s + 1) + q) % 2 ^ (s + 1) = q := by
    rw [Nat.mul_add_mod_self_right, Nat.mod_eq_of_lt hq]
  have hhalf : 2 ^ (s + 1) / 2 = 2 ^ s := by rw [pow_succ, Nat.mul_div_cancel _ two_pos]
  have hlo : 2 * c * 2 ^ s = c * 2 ^ (s + 1) := by ring
  have hhi : (2 * c + 1) * 2 ^ s + q % 2 ^ s = c * 2 ^ (s + 1) + q % 2 ^ s + 2 ^ s := by ring
  rw [fftStage, getD_map_range _ (blockIndex_lt hc hq), stageButterfly, hlo, hhi]
  simp only [hmod, hhalf, Nat.add_sub_cancel, bitrev_blockStart]

theorem getD_fftStage_lower (g : Trig) (d : Draw) (a : List Cplx) {c j : Nat} (hc : c < 2 ^ n) (hj : j < 2 ^ s) :
    (fftStage g d (n + (s + 1)) (s + 1) a).getD (c * 2 ^ (s + 1) + j) czero = (stageButterfly g d n s a c j).1 := by
  rw [getD_fftStage g d a hc (by omega), if_pos hj, Nat.mod_eq_of_lt hj]

theorem getD_fftStage_upper (g : Trig) (d : Draw) (a : List Cplx) {c j : Nat} (hc : c < 2 ^ n) (hj : j < 2 ^ s) :
    (fftStage g d (n + (s + 1)) (s + 1) a).getD (c * 2 ^ (s + 1) + (j + 2 ^ s)) czero =
      (stageButterfly g d n s a c j).2 := by
  rw [getD_fftStage g d a hc (by omega), if_neg (by omega), Nat.add_mod_right, Nat.mod_eq_of_lt hj]

/-- The array before stage `s + 1` of `n + s`: each block holds its transform. -/
structure BlocksTransformed (g : Trig) (d : Draw) (x : List Cplx) (n s : Nat) (a : List Cplx) : Prop where
  length_eq : a.length = 2 ^ (n + s)
  getD_eq : ∀ c < 2 ^ n, ∀ j < 2 ^ s, a.getD (c * 2 ^ s + j) czero = (blockTransform g d x n s c).getD j czero

/-- The permuted input: a block of one element is its own transform. -/
theorem blocksTransformed_bitrev (g : Trig) (d : Draw) (x : List Cplx) (n : Nat) :
    BlocksTransformed g d x n 0 ((List.range (2 ^ n)).map fun p => x.getD (bitrev n p) czero) where
  length_eq := by simp
  getD_eq c hc j hj := by
    obtain rfl : j = 0 := Nat.lt_one_iff.1 hj
    rw [blockTransform, fftRec, getD_subseq _ _ _ hj, pow_zero, Nat.mul_one, Nat.add_zero, getD_map_range _ hc,
      Nat.zero_mul, Nat.add_zero]

/-- Where the blocks hold their transforms, a butterfly of the stage is one of the recursion. -/
theorem BlocksTransformed.stageButterfly_eq (h : BlocksTransformed g d x (n + 1) s a) {c j : Nat} (hc : c < 2 ^ n)
    (hj : j < 2 ^ s) : stageButterfly g d n s a c j =
      combine g d s (bitrev n c) (2 ^ n) (subseq x (s + 1) (bitrev n c) (2 ^ n)) j := by
  rw [combine_subseq, stageButterfly, h.getD_eq (2 * c) (by omega) j hj, h.getD_eq (2 * c + 1) (by omega) j hj]

theorem BlocksTransformed.fftStage (h : BlocksTransformed g d x (n + 1) s a) :
    BlocksTransformed g d x n (s + 1) (fftStage g d (n + (s + 1)) (s + 1) a) where
  length_eq := length_fftStage ..
  getD_eq c hc q hq := by
    rcases Nat.lt_or_ge q (2 ^ s) with hlow | hhigh
    · rw [getD_fftStage_lower g d a hc hlow, h.stageButterfly_eq hc hlow]
      exact (getD_fftRec_lower _ _ _ _ _ _ hlow).symm
    · obtain ⟨j, rfl⟩ := Nat.exists_eq_add_of_le' hhigh
      have hj : j < 2 ^ s := by omega
      rw [getD_fftStage_upper g d a hc hj, h.stageButterfly_eq hc hj]
      exact (getD_fftRec_upper _ _ _ _ _ _ hj).symm

/-- The array after the first `s` stages of `L`. -/
def afterStages (g : Trig) (d : Draw) (L : Nat) (x : List Cplx) (s : Nat) : List Cplx :=
  (List.range s).foldl (fun a s => fftStage g d L (s + 1) a)
    ((List.range (2 ^ L)).map fun p => x.getD (bitrev L p) czero)

theorem fftIter_eq_afterStages (g : Trig) (d : Draw) (L : Nat) (x : List Cplx) :
    fftIter g d L x = afterStages g d L x L := rfl

theorem afterStages_succ (g : Trig) (d : Draw) (L : Nat) (x : List Cplx) (s : Nat) :
    afterStages g d L x (s + 1) = fftStage g d L (s + 1) (afterStages g d L x s) := by
  simp [afterStages, List.range_succ]

theorem blocksTransformed_afterStages (g : Trig) (d : Draw) (x : List Cplx) (n s : Nat) :
    BlocksTransformed g d x n s (afterStages g d (n + s) x s) := by
  induction s generalizing n with
  | zero => exact blocksTransformed_bitrev g d x n
  | succ s ih =>
    have h := ih (n + 1)
    rw [Nat.add_right_comm] at h
    rw [afterStages_succ]
    exact h.fftStage

theorem blockTransform_whole (g : Trig) (d : Draw) {L : Nat} (hx : x.length = 2 ^ L) :
    blockTransform g d x 0 L 0 = fft g d L x := by
  rw [blockTransform, bitrev, pow_zero, subseq_whole hx, fft]

/-- Settles O20: after the last stage there is one block, and its subsequence is the whole input. -/
theorem iterativeTransformEqualsRecursive : Obligations.IterativeTransformEqualsRecursive := by
  intro g d L x hx
  have hblocks := blocksTransformed_afterStages g d x 0 L
  have hlen : (fft g d L x).length = 2 ^ L := length_fftRec g d L 0 1 x hx
  rw [Nat.zero_add, ← fftIter_eq_afterStages] at hblocks
  refine eq_of_getD_eq (hblocks.length_eq.trans (by rw [hlen, Nat.zero_add])) fun i hi => ?_
  simpa [blockTransform_whole g d hx] using hblocks.getD_eq 0 one_pos i (hlen ▸ hi)

end Sys2Proof.Machine

/-! SUPPORT. XFORM as a host that finds FAULT clear sees it (42_fft.md R184): the size check, then the real parts in XRE
and the imaginary parts in XIM. -/

namespace Sys2Proof.Machine

variable {s : State} {n : Nat}

theorem xformResult_eq (n : Nat) (s : State) : xformResult n s = fft trig32 (drawAt s siteXform) n.log2
    ((List.range n).map fun i => { re := elem s .wsig i, im := f0 }) := by
  rw [xformResult, block, List.map_map]
  rfl

theorem elem_doXform_xim (hp : isPow2 n = true) {k : Nat} (hk : k < n) :
    elem (doXform n s) .xim k = ((xformResult n s).getD k czero).im := by
  have hlen : k < (xformResult n s).length := by rwa [length_xformResult s hp]
  rw [doXform, elem_storeBlock_same .xim _ _ (by simpa using hlen), elementWord, if_neg (by decide), List.getElem_map,
    List.getD_eq_getElem _ _ hlen]

/-- A length is less than 2^24, so the real parts end below XIM (20_memory.md R74). -/
theorem elem_doXform_xre (hp : isPow2 n = true) (hn : n ≤ 2 ^ 24) {k : Nat} (hk : k < n) :
    elem (doXform n s) .xre k = ((xformResult n s).getD k czero).re := by
  have hlen : k < (xformResult n s).length := by rwa [length_xformResult s hp]
  have hbelow : scratchBase .xre + k < scratchBase .xim := by
    simp only [scratchBase]
    omega
  rw [doXform, elem, peek_storeBlock_other _ _ _ (.inl hbelow), ← elem,
    elem_storeBlock_same .xre _ _ (by simpa using hlen), elementWord, if_neg (by decide), List.getElem_map,
    List.getD_eq_getElem _ _ hlen]

theorem peek_doXform_other (hp : isPow2 n = true) {a : Nat}
    (hre : a < scratchBase .xre ∨ scratchBase .xre + n ≤ a) (him : a < scratchBase .xim ∨ scratchBase .xim + n ≤ a) :
    peek (doXform n s) a = peek s a := by
  have hlen := length_xformResult s hp
  rw [doXform, peek_storeBlock_other _ _ _ (by simpa [hlen] using him),
    peek_storeBlock_other _ _ _ (by simpa [hlen] using hre)]

/-- Settles O23: the check is that of the power of two, and the two blocks are the parts of the transform. -/
theorem xformWritesTransformOfWindowedSignal : Obligations.XformWritesTransformOfWindowedSignal := by
  intro s n hf
  refine ⟨fun h => ⟨doXform n.toNat s, drawAt s siteXform, xformResult n.toNat s, ?_, xformResult_eq _ s,
    length_xformResult s h.1, fun k hk => ⟨elem_doXform_xre h.1 n.isLt.le hk, elem_doXform_xim h.1 hk⟩,
    fun a hre him => peek_doXform_other h.1 hre him, doXform_frame s _⟩, fun h => ?_⟩
  · exact busWrite_sizeChecked_legal hf ((legalPow2_iff _ _ _).2 h) _ _
  · exact busWrite_sizeChecked_illegal hf (mt (legalPow2_iff _ _ _).1 h) _ _

end Sys2Proof.Machine

/-! SUPPORT. The scan for the peak (43_spectral_frame.md R201). Its turns compare patterns, so what the scan finds is said
with the keys that order them. -/

namespace Sys2Proof.Machine

variable {a b top p : Word} {ms : List Word}

theorem fgt_iff : fgt a b = true ↔ isNaN a = false ∧ isNaN b = false ∧ fKey b < fKey a := by
  simp only [fgt, flt, Bool.and_eq_true, Bool.not_eq_true', decide_eq_true_eq]
  tauto

/-- One turn of the scan (43_spectral_frame.md R201). -/
def larger (top m : Word) : Word := if fgt m top then m else top

theorem peakOf_eq_foldl (ms : List Word) : peakOf ms = ms.foldl larger f0 := rfl

/-- `p` is what a scan of `ms` that starts with `top` may end with. -/
structure PeakFrom (top : Word) (ms : List Word) (p : Word) : Prop where
  start_or_mem : p = top ∨ p ∈ ms ∧ fgt p top = true
  not_exceeded : ∀ w ∈ ms, fgt w p = false

theorem fgt_self (a : Word) : fgt a a = false := by simp [fgt, flt]

theorem fgt_trans {c : Word} (h : fgt a b = true) (h' : fgt b c = true) : fgt a c = true := by
  rw [fgt_iff] at h h' ⊢
  exact ⟨h.1, h'.2.1, h'.2.2.trans h.2.2⟩

/-- What does not exceed the start of a scan does not exceed its end. -/
theorem fgt_eq_false_of_eq_or_fgt (h : fgt a top = false) (hp : p = top ∨ fgt p top = true) : fgt a p = false := by
  rcases hp with rfl | hp
  · exact h
  · rw [Bool.eq_false_iff] at h ⊢
    exact fun ha => h (fgt_trans ha hp)

theorem foldl_larger_peakFrom (ms : List Word) (top : Word) : PeakFrom top ms (ms.foldl larger top) := by
  induction ms generalizing top with
  | nil => exact ⟨.inl rfl, by simp⟩
  | cons m ms ih =>
    obtain ⟨hstart, hbound⟩ := ih (larger top m)
    rw [List.foldl_cons]
    by_cases h : fgt m top = true
    case pos =>
      rw [larger, if_pos h] at hstart hbound ⊢
      refine ⟨.inr ?_, List.forall_mem_cons.2 ⟨?_, hbound⟩⟩
      · rcases hstart with heq | ⟨hmem, hgt⟩
        · rw [heq]
          exact ⟨List.mem_cons_self, h⟩
        · exact ⟨List.mem_cons_of_mem _ hmem, fgt_trans hgt h⟩
      · exact fgt_eq_false_of_eq_or_fgt (fgt_self m) (hstart.imp_right And.right)
    case neg =>
      rw [larger, if_neg h] at hstart hbound ⊢
      refine ⟨hstart.imp_right fun ⟨hmem, hgt⟩ => ⟨List.mem_cons_of_mem _ hmem, hgt⟩,
        List.forall_mem_cons.2 ⟨?_, hbound⟩⟩
      exact fgt_eq_false_of_eq_or_fgt (Bool.eq_false_iff.2 h) (hstart.imp_right And.right)

/-- The peak is +0 or a magnitude above it, and no magnitude exceeds it (43_spectral_frame.md R201). -/
theorem peakOf_peakFrom (ms : List Word) : PeakFrom f0 ms (peakOf ms) := by
  rw [peakOf_eq_foldl]
  exact foldl_larger_peakFrom ms f0

theorem peakOf_mem (h : fgt (peakOf ms) f0 = true) : peakOf ms ∈ ms := by
  rcases (peakOf_peakFrom ms).start_or_mem with heq | ⟨hmem, -⟩
  · rw [heq, fgt_self] at h
    exact absurd h Bool.false_ne_true
  · exact hmem

end Sys2Proof.Machine

/-! SUPPORT. MAGN as a host that finds FAULT clear sees it (43_spectral_frame.md R203): the size check, then the block of
quotients in NORM, the peak and its flag. -/

namespace Sys2Proof.Machine

variable {s : State} {n k : Nat}

theorem getD_magnitudes (s : State) {half : Nat} (hk : k < half) :
    (magnitudes half s).getD k f0 = mag (k :: drawAt s siteMag) (elem s .xre k) (elem s .xim k) := by
  rw [List.getD_eq_getElem _ _ (by simpa using hk)]
  simp [magnitudes]

theorem getD_normalise (d : Draw) (top : Word) {ms : List Word} (hk : k < ms.length) :
    (normalise d ms top).getD k f0 = if fgt top f0 then fdiv (k :: d) (ms.getD k f0) top else f0 := by
  rw [List.getD_eq_getElem _ _ (by simpa using hk)]
  simp [normalise]

theorem elem_doMagn_norm (s : State) (hk : k < n / 2) : elem (doMagn n s) .norm k =
    if fgt (doMagn n s).peak f0 then
      fdiv (k :: drawAt s siteNorm) ((magnitudes (n / 2) s).getD k f0) (doMagn n s).peak
    else f0 := by
  have hlen : k < (normalise (drawAt s siteNorm) (magnitudes (n / 2) s) (doMagn n s).peak).length := by simpa using hk
  rw [← getD_normalise _ _ (by simpa using hk), List.getD_eq_getElem _ _ hlen]
  exact elem_storeBlock_same .norm _ s hlen

theorem peek_doMagn_other (s : State) {a : Nat} (h : a < scratchBase .norm ∨ scratchBase .norm + n / 2 ≤ a) :
    peek (doMagn n s) a = peek s a :=
  peek_storeBlock_other .norm _ s (by simpa using h)

theorem exec_magn_legal (hf : s.faulted = false) {n : Len}
    (h : isPow2 n.toNat = true ∧ 2 ≤ n.toNat ∧ n.toNat ≤ s.params.nmax) :
    exec (.magn n) s = .next (doMagn n.toNat s) :=
  busWrite_sizeChecked_legal hf ((legalPow2_iff _ _ _).2 h) _ _

theorem degenOf_iff (top : Word) : degenOf top = true ↔ fgt top f0 = false := by simp [degenOf]

/-- Settles O24: the check is that of the power of two, the quotients are stored index by index, and PEAK is what the
scan finds. -/
theorem magnWritesNormalisedMagnitudes : Obligations.MagnWritesNormalisedMagnitudes := by
  intro s n hf
  refine ⟨fun h => ?_, fun h => busWrite_sizeChecked_illegal hf (mt (legalPow2_iff _ _ _).1 h) _ _⟩
  obtain ⟨hpeak, hbound⟩ := peakOf_peakFrom (magnitudes (n.toNat / 2) s)
  refine ⟨doMagn n.toNat s, magnitudes (n.toNat / 2) s, exec_magn_legal hf h, length_magnitudes _ s,
    fun k hk => ⟨_, _, _, _, getD_magnitudes s hk⟩, hpeak, hbound, fun htop k hk => ⟨k :: drawAt s siteNorm, ?_⟩,
    fun htop k hk => ?_, degenOf_iff _, fun a ha => peek_doMagn_other s ha, doMagn_frame s _⟩
  · rw [elem_doMagn_norm s hk, if_pos htop]
  · rw [elem_doMagn_norm s hk, htop, if_neg Bool.false_ne_true]

end Sys2Proof.Machine

/-! SUPPORT. Quotients by the peak (43_spectral_frame.md R202, R208): 0 and 1 are patterns, so a quotient of finite
magnitudes whose exact value lies between them is rounded to a pattern between them, and the quotient 1 is exact. -/

namespace Sys2Proof.Machine

variable {a b : Word}

theorem eq_of_fSign_of_value (hs : fSign a = fSign b) (hv : value a = value b) : a = b := by
  have hk := value_eq_iff.1 hv
  refine eq_of_fSign_of_fMag hs ?_
  unfold fKey at hk
  rw [hs] at hk
  split at hk <;> omega

theorem value_nonneg_of_not_fSign (hs : fSign a = false) : 0 ≤ value a := by
  rw [value_of_not_fSign hs]
  positivity

theorem fle_iff_value_le (ha : isFinite a = true) (hb : isFinite b = true) : fle a b = true ↔ value a ≤ value b := by
  rw [fle_of_not_isNaN (isNaN_of_isFinite ha) (isNaN_of_isFinite hb), decide_eq_true_eq, value_le_iff]

theorem fgt_iff_value_lt (ha : isFinite a = true) (hb : isFinite b = true) : fgt a b = true ↔ value b < value a := by
  rw [fgt, flt_of_not_isNaN (isNaN_of_isFinite hb) (isNaN_of_isFinite ha), decide_eq_true_eq, value_lt_iff]

theorem isZero_of_value_ne_zero (h : value a ≠ 0) : isZero a = false :=
  Bool.eq_false_iff.2 fun hz => h (value_of_isZero hz)

/-- A finite number over itself is exactly 1.0 (40_numerics.md R132). -/
theorem fdiv_self (d : Draw) (ha : isFinite a = true) (hne : value a ≠ 0) : fdiv d a a = f1 := by
  have hz := isZero_of_value_ne_zero hne
  have hround := fdiv_roundsTo d ha ha hz
  rw [div_self (Rat.cast_ne_zero.2 hne)] at hround
  refine eq_of_fSign_of_value ?_ ?_
  · rw [fdiv_of_isFinite d ha ha hz, fSign_ofMag _ (roundMag_lt ..), bne_self_eq_false]
    rfl
  · rw [value_f1]
    exact_mod_cast hround.eq_value (c := f1) (by decide) (by rw [value_f1, Rat.cast_one])

theorem fdiv_mem_unitInterval (d : Draw) (ha : isFinite a = true) (hb : isFinite b = true) (h0 : 0 ≤ value a)
    (hpos : 0 < value b) (hle : value a ≤ value b) :
    fle f0 (fdiv d a b) = true ∧ fle (fdiv d a b) f1 = true := by
  have hq0 : 0 ≤ value a / value b := div_nonneg h0 hpos.le
  have hq1 : value a / value b ≤ 1 := (div_le_one hpos).2 hle
  obtain ⟨hf, hlo, hhi⟩ := (fdiv_roundsTo d ha hb (isZero_of_value_ne_zero hpos.ne')).between (lo := f0) (hi := f1)
    (by decide) (by decide) (by rw [value_f0]; exact_mod_cast hq0) (by rw [value_f1]; exact_mod_cast hq1)
  exact ⟨(fle_iff_value_le (by decide) hf).2 hlo, (fle_iff_value_le hf (by decide)).2 hhi⟩

/-- Settles O25: every magnitude lies between 0 and the peak, which is one of them. -/
theorem normalisedMagnitudesLieInUnitInterval : Obligations.NormalisedMagnitudesLieInUnitInterval := by
  intro d m hm htop
  have hmem := peakOf_mem htop
  obtain ⟨hfin, -⟩ := hm _ hmem
  have hpos : 0 < value (peakOf m) := by
    rw [← value_f0]
    exact (fgt_iff_value_lt hfin (by decide)).1 htop
  have hquot : ∀ k, k < m.length →
      (normalise d m (peakOf m)).getD k f0 = fdiv (k :: d) (m.getD k f0) (peakOf m) := by
    intro k hk
    rw [getD_normalise d _ hk, if_pos htop]
  have hone : ∀ k, k < m.length → m.getD k f0 = peakOf m → (normalise d m (peakOf m)).getD k f0 = f1 := by
    intro k hk hpeak
    rw [hquot k hk, hpeak, fdiv_self _ hfin hpos.ne']
  refine ⟨length_normalise d m _, fun k hk => ?_, ?_⟩
  · have hkm : m.getD k f0 ∈ m := by
      rw [List.getD_eq_getElem _ _ hk]
      exact List.getElem_mem hk
    obtain ⟨hkf, hks⟩ := hm _ hkm
    have hle : value (m.getD k f0) ≤ value (peakOf m) := by
      rw [← not_lt, ← fgt_iff_value_lt hkf hfin, (peakOf_peakFrom m).not_exceeded _ hkm]
      exact Bool.false_ne_true
    obtain ⟨hlo, hhi⟩ := fdiv_mem_unitInterval (k :: d) hkf hfin (value_nonneg_of_not_fSign hks) hpos hle
    rw [← hquot k hk] at hlo hhi
    exact ⟨hlo, hhi, hone k hk⟩
  · obtain ⟨k, hk, hpeak⟩ := List.getElem_of_mem hmem
    have hk' : k < (normalise d m (peakOf m)).length := by rwa [length_normalise]
    have h1 := hone k hk (by rw [List.getD_eq_getElem _ _ hk, hpeak])
    rw [List.getD_eq_getElem _ _ hk'] at h1
    exact List.mem_of_getElem h1

end Sys2Proof.Machine

/-! SUPPORT. ZOOM, SELECT and BUILD as a host that finds FAULT clear sees them (43_spectral_frame.md R205, R206, R207). -/

namespace Sys2Proof.Machine

variable {s : State}

theorem exec_zoom (hf : s.faulted = false) : exec .zoom s = .next (doZoom s) := busWrite_clear hf _

theorem exec_select (hf : s.faulted = false) : exec .select s = .next (doSelect s) := busWrite_clear hf _

theorem exec_build (hf : s.faulted = false) : exec .build s = .next (doBuild s) := busWrite_clear hf _

theorem toNat_ofInt_of_mem_range {z : ℤ} (h0 : 0 ≤ z) (h : z < 2 ^ 32) : ((BitVec.ofInt 32 z).toNat : ℤ) = z := by
  rw [BitVec.toNat_ofInt]
  omega

/-- Settles O26: ZMIN and ZMAX take the range of `zoomBins`, whose bounds fit in 32 bits. -/
theorem zoomWritesClampedBinRange : Obligations.ZoomWritesClampedBinRange := by
  intro s hf
  refine ⟨doZoom s, exec_zoom hf, ⟨_, _, _, rfl, rfl, fun h2 => ?_⟩, doZoom_frame s⟩
  obtain ⟨h0, hlt, hle⟩ := zoomBins_range (drawAt s siteZoom) s.sampleRate s.fftSize s.minFreqHz s.maxFreqHz h2
  have hN := s.fftSize.isLt
  have hlo : ((doZoom s).zmin.toNat : ℤ) = _ := toNat_ofInt_of_mem_range h0 (by omega)
  have hhi : ((doZoom s).zmax.toNat : ℤ) = _ := toNat_ofInt_of_mem_range (h0.trans hlt.le) (by omega)
  exact ⟨hlo, hhi, by omega, by omega⟩

theorem elem_doSelect_spec (s : State) {j : Nat} (hj : j < s.zmax.toNat - s.zmin.toNat) :
    elem (doSelect s) .spec j = elem s .norm (s.zmin.toNat + j) :=
  elem_storeBlock_range (by decide) (fun j => elem s .norm (s.zmin.toNat + j)) s hj

/-- Settles O27: the slice is stored index by index, and its length fits in 32 bits. -/
theorem selectCopiesZoomedSlice : Obligations.SelectCopiesZoomedSlice := by
  intro s _ hf
  have hlen : s.zmax.toNat - s.zmin.toNat < 2 ^ 32 := (Nat.sub_le _ _).trans_lt s.zmax.isLt
  exact ⟨doSelect s, exec_select hf, fun j hj => elem_doSelect_spec s hj, setWidth_toNat hlen,
    fun a ha => peek_storeBlock_range_other .spec _ s ha, doSelect_frame s⟩

/-- FFT_SIZE is at most 2^23, so it is a length operand (10_state.md R30; 43_spectral_frame.md R207). -/
theorem Inv.toNat_setWidth_fftSize (h : Inv s) : (s.fftSize.setWidth 24).toNat = s.fftSize.toNat := by
  have hN := h.fftSize_legal.2.2
  have hmax := h.nmax_range.2
  rw [BitVec.toNat_setWidth, Nat.mod_eq_of_lt (by omega)]

/-- Settles O28: FFT_SIZE is a legal length, and none of the three effects sets FAULT. -/
theorem buildIsMagnZoomSelect : Obligations.BuildIsMagnZoomSelect := by
  intro s h hf
  have hmagn := exec_magn_legal hf (n := s.fftSize.setWidth 24) (by rw [h.toNat_setWidth_fftSize]; exact h.fftSize_legal)
  rw [h.toNat_setWidth_fftSize] at hmagn
  have hf1 : (doMagn s.fftSize.toNat s).faulted = false := (faulted_doMagn s _).trans hf
  have hf2 : (doZoom (doMagn s.fftSize.toNat s)).faulted = false := (faulted_doZoom _).trans hf1
  exact ⟨_, _, doBuild s, hmagn, exec_zoom hf1, exec_select hf2, exec_build hf, (faulted_doBuild s).trans hf⟩

end Sys2Proof.Machine

/-! SUPPORT. The history unit as a host that finds FAULT clear sees it: HPUSH, HSNAP and the write of MAX_HISTORY
(44_history.md R231, R232, R233; 10_state.md R34). -/

namespace Sys2Proof.Machine

variable {s : State}

/-- A history below its cap takes the new frame and loses none (44_history.md R231, R235 d). -/
theorem pushFrame_of_lt {cap : Nat} {h : List Frame} (hlt : h.length < cap) (f : Frame) :
    pushFrame cap f h = f :: h :=
  if_neg (by rw [List.length_cons]; omega)

/-- A history at its cap loses its oldest frame to the new one (44_history.md R231). -/
theorem pushFrame_of_le {cap : Nat} {h : List Frame} (hle : cap ≤ h.length) (f : Frame) :
    pushFrame cap f h = (f :: h).dropLast :=
  if_pos (by rw [List.length_cons]; omega)

theorem getD_specFrame (s : State) {j : Nat} (hj : j < s.specLen.toNat) :
    (specFrame s).getD j 0#32 = elem s .spec j := by
  rw [List.getD_eq_getElem _ _ (by simpa using hj)]
  exact getElem_block ..

theorem clampHistory_zero {hcap : Nat} (h : 1 ≤ hcap) : clampHistory hcap 0 = 1 := by
  unfold clampHistory; omega

theorem clampHistory_of_mem_range {hcap v : Nat} (h1 : 1 ≤ v) (hv : v ≤ hcap) : clampHistory hcap v = v := by
  unfold clampHistory; omega

theorem clampHistory_of_lt {hcap v : Nat} (h : hcap < v) : clampHistory hcap v = hcap := by
  unfold clampHistory; omega

/-- The clamped cap fits in the register (10_state.md R34; 00_scope.md R7). -/
theorem toNat_maxHistory_doWriteMaxHistory (hp : s.params.legal = true) (v : Word) :
    (doWriteMaxHistory v s).maxHistory.toNat = clampHistory s.params.hcap v.toNat := by
  obtain ⟨-, -, -, hcap, -⟩ := (params_legal_iff s.params).1 hp
  have hle := (clampHistory_range v.toNat hcap).2
  have hmax := hcap_le hp
  exact setWidth_toNat (by omega)

/-- The history keeps as many of its newest frames as the new cap allows (44_history.md R232). -/
theorem hist_doWriteMaxHistory (hp : s.params.legal = true) (v : Word) :
    (doWriteMaxHistory v s).hist = s.hist.take (doWriteMaxHistory v s).maxHistory.toNat := by
  rw [toNat_maxHistory_doWriteMaxHistory hp]
  rfl

/-- Settles O29: the size check passes a length above 0, and the push keeps or drops the last frame by the cap. -/
theorem hpushInsertsFrameAndEvictsOldest : Obligations.HpushInsertsFrameAndEvictsOldest := by
  intro s hf
  refine ⟨fun hlen => ?_, fun hlen => busWrite_sizeChecked_illegal hf (by simp [hlen]) _ _⟩
  have hexec : exec .hpush s = .next (doHpush s) := busWrite_sizeChecked_legal hf (by simpa using hlen) _ _
  refine ⟨specFrame s, length_specFrame s, fun j hj => getD_specFrame s hj, fun hlt => ?_, fun hle => ?_⟩
  · rw [hexec, doHpush, pushFrame_of_lt hlt]
  · rw [hexec, doHpush, pushFrame_of_le hle]

/-- Settles O30: the cap is the clamped value, in each of the three ranges, and the history keeps that many frames. -/
theorem writeMaxHistoryClampsAndSheds : Obligations.WriteMaxHistoryClampsAndSheds := by
  intro s v hf hp
  obtain ⟨-, -, -, hcap, -⟩ := (params_legal_iff s.params).1 hp
  have hmax := toNat_maxHistory_doWriteMaxHistory hp v
  have hhist := hist_doWriteMaxHistory hp v
  refine ⟨doWriteMaxHistory v s, busWrite_clear hf _, ?_, fun h0 => ?_, fun h1 hv => ?_, fun hv => ?_, ?_⟩
  · rw [← hhist]
    exact doWriteMaxHistory_frame s v
  · rw [hmax, h0, clampHistory_zero hcap]
  · exact BitVec.eq_of_toNat_eq (by rw [hmax, clampHistory_of_mem_range h1 hv])
  · rw [hmax, clampHistory_of_lt hv]
  · rw [hhist, List.length_take, Nat.min_comm]

/-- Settles O31: with FAULT clear HSNAP is its one write. -/
theorem hsnapCopiesHistory : Obligations.HsnapCopiesHistory := fun _ hf => busWrite_clear hf _

end Sys2Proof.Machine

/-! SUPPORT. Which instructions write the two stores and their snapshots: HIST, WAVE with WRITE_POS, and the banks of
HSNAP and WSNAP (44_history.md R235 e; 45_waveform.md R254 d; 20_memory.md R81 d). -/

namespace Sys2Proof.Machine

variable {s t : State}

/-- The two stores and their snapshots. -/
structure Stores where
  hist : List Frame
  hsnapBank : List Frame
  wave : Memory
  writePos : BitVec 10
  wsnapBank : Memory
  wsnapPos : BitVec 10

/-- The part of the state that the stores and their snapshots are. An `abbrev`, so that the kernel compares the
fields and not the whole states. -/
abbrev stores (s : State) : Stores where
  hist := s.hist
  hsnapBank := s.hsnapBank
  wave := s.wave
  writePos := s.writePos
  wsnapBank := s.wsnapBank
  wsnapPos := s.wsnapPos

theorem stores_raise (code info : Word) (s : State) : stores (raise code info s) = stores s := by
  simp [stores]

theorem scratchLoc_ne_csr (p : Params) (m : ScratchMem) (off : Nat) (r : Reg) :
    scratchLoc p m off ≠ some (.csr r) := by
  unfold scratchLoc
  split <;> simp

/-- An address that names a register is the register's offset (20_memory.md R74, region 0). -/
theorem regTable_of_locate {p : Params} {a : Word} {r : Reg} (h : locate p a = some (.csr r)) :
    regTable[a.toNat]? = some r := by
  rw [locate_eq] at h
  split at h
  case isFalse => cases h
  unfold locateIn at h
  split at h
  case h_1 hregion =>
    rw [Nat.mod_eq_of_lt (by omega)] at h
    simpa using h
  case h_10 | h_11 | h_12 => split at h <;> cases h
  case h_13 => cases h
  all_goals exact (scratchLoc_ne_csr _ _ _ _ h).elim

/-- Only one address names MAX_HISTORY, and it has a row of its own (30_encoding.md R104). -/
theorem eq_addrMaxHistory_of_locate {p : Params} {a : Word} (h : locate p a = some (.csr .maxHistory)) :
    a = addrMaxHistory := by
  have hreg := regTable_of_locate h
  have hlt : a.toNat < regTable.length := (List.getElem?_eq_some_iff.1 hreg).1
  have hnodup : regTable.Nodup := by decide
  exact BitVec.eq_of_toNat_eq ((List.getElem?_inj hlt hnodup).1 (hreg.trans (by decide)))

theorem stores_writeReg {r : Reg} (hr : r ≠ .maxHistory) (addr v : Word) (s : State) :
    stores (writeReg r addr v s) = stores s := by
  cases r with
  | maxHistory => exact absurd rfl hr
  | fftSize | specLen => exact sizeChecked_keeps stores (stores_raise ..) rfl
  | cmd | sampleRate | updateIntervalMs | minFreqHz | maxFreqHz | tickRange | tickCount | mapArg => rfl
  | status | errCode | errInfo | effIntervalMs | histLen | writePos | winN | zmin | zmax | peak | tickStep | tickSub
  | mapRes | hsnapLen | wsnapPos | srcCount | nmaxR | hcapR => exact stores_raise ..

theorem stores_doWrite {addr : Word} (ha : addr ≠ addrMaxHistory) (v : Word) (s : State) :
    stores (doWrite addr v s) = stores s := by
  unfold doWrite
  split
  case h_2 r hl =>
    refine stores_writeReg ?_ addr v s
    rintro rfl
    exact ha (eq_addrMaxHistory_of_locate hl)
  case h_3 => rfl
  all_goals exact stores_raise ..

theorem stores_doRead (addr : Word) (s : State) : stores (doRead addr s) = stores s := by
  unfold doRead
  split
  · rfl
  · split
    · rfl
    · exact stores_raise codeBusError addr s

/-- What an instruction may do to the stores and their snapshots: leave them, or write those that it names. -/
inductive StoresAfter (s t : State) : Instr → Prop where
  | unchanged {i : Instr} (h : stores t = stores s) : StoresAfter s t i
  | hpush (h : stores t = { stores s with hist := t.hist }) : StoresAfter s t .hpush
  | wrMaxHistory {v : Word} (h : stores t = { stores s with hist := t.hist }) : StoresAfter s t (.wrMaxHistory v)
  | hsnap (h : stores t = { stores s with hsnapBank := t.hsnapBank }) : StoresAfter s t .hsnap
  | wwrite {n : Len} (h : stores t = { stores s with wave := t.wave, writePos := t.writePos }) :
      StoresAfter s t (.wwrite n)
  | wsnap (h : stores t = { stores s with wsnapBank := t.wsnapBank, wsnapPos := t.wsnapPos }) : StoresAfter s t .wsnap
  | cycle (h : stores t = { stores s with hist := t.hist, wave := t.wave, writePos := t.writePos }) :
      StoresAfter s t .cycle

/-- A bus write does nothing or takes effect. -/
theorem StoresAfter.of_busWrite {i : Instr} {e : State → State} (h : busWrite s e = .next t)
    (he : StoresAfter s (e s) i) : StoresAfter s t i := by
  rcases busWrite_cases h with ⟨-, rfl⟩ | ⟨-, rfl⟩
  · exact .unchanged rfl
  · exact he

/-- A failed size check is a fault, which leaves the stores (60_exceptions.md R340). -/
theorem StoresAfter.of_sizeChecked {i : Instr} {e : State → State} {legal : Bool} {info : Word}
    (he : StoresAfter s (e s) i) : StoresAfter s (sizeChecked legal info e s) i := by
  cases legal with
  | false => exact .unchanged (stores_raise ..)
  | true => exact he

/-- Every instruction that the decoder can give does to the stores what `StoresAfter` says. -/
theorem exec_storesAfter {i : Instr} (hwf : i.wf = true) (h : exec i s = .next t) : StoresAfter s t i := by
  cases i with
  | hpush => exact .of_busWrite h (.of_sizeChecked (.hpush rfl))
  | wrMaxHistory => exact .of_busWrite h (.wrMaxHistory rfl)
  | hsnap => exact .of_busWrite h (.hsnap rfl)
  | wwrite => exact .of_busWrite h (.of_sizeChecked (.wwrite rfl))
  | wsnap => exact .of_busWrite h (.wsnap rfl)
  | cycle => exact .of_busWrite h (.cycle (congrArg stores (doCycle_frame s) :))
  | wingen | pcm2f | wmul | xform | magn | wrFftSize | wrSpecLen =>
    exact .of_busWrite h (.of_sizeChecked (.unchanged rfl))
  | select => exact .of_busWrite h (.unchanged rfl)
  | zoom => exact .of_busWrite h (.unchanged (congrArg stores (doZoom_frame s) :))
  | build => exact .of_busWrite h (.unchanged (congrArg stores (doBuild_frame s) :))
  | tick => exact .of_busWrite h (.unchanged (congrArg stores (doTick_frame s) :))
  | f2bin => exact .of_busWrite h (.unchanged (congrArg stores (doF2bin_frame s) :))
  | bin2f => exact .of_busWrite h (.unchanged (congrArg stores (doBin2f_frame s) :))
  | start => exact .of_busWrite h (.unchanged (congrArg stores (doStart_frame s) :))
  | stop => exact .of_busWrite h (.unchanged (congrArg stores (releaseSource_frame s) :))
  | wr addr data =>
    obtain ⟨-, -, ha, -⟩ := (wf_wr_iff addr data).1 hwf
    exact .of_busWrite h (.unchanged (stores_doWrite ha data s))
  | rd addr =>
    obtain rfl := Host.Outcome.next.inj h
    exact .unchanged (stores_doRead addr s)

/-- Settles O32: each instruction changes only the stores that `StoresAfter` names, and they are the listed ones. -/
theorem storesChangeOnlyByTheirInstructions : Obligations.StoresChangeOnlyByTheirInstructions := by
  intro i s t hwf h
  cases exec_storesAfter hwf h with
  | unchanged hs | hpush hs | wrMaxHistory hs | hsnap hs | wwrite hs | wsnap hs | cycle hs =>
    rw [Stores.mk.injEq] at hs
    simp [hs]

end Sys2Proof.Machine

/-! SUPPORT. The waveform ring as a stream of samples: runs of appends compose, and the last 1024 samples of a run are
read back; then WWRITE and WSNAP as a host that finds FAULT clear sees them (45_waveform.md R251, R252, R254 c). -/

namespace Sys2Proof.Machine

theorem ringSlot_succ (pos i : Nat) : ringSlot (pos + 1) i = ringSlot pos (i + 1) := by
  rw [ringSlot, ringSlot, Nat.add_assoc, Nat.add_comm 1]

/-- Less than a turn of the ring apart, two samples have slots of their own (40_numerics.md R146). -/
theorem ringSlot_ne {pos i j : Nat} (hij : i < j) (hj : j < i + 1024) : ringSlot pos j ≠ ringSlot pos i := by
  simp only [ringSlot, Config.wcap]
  omega

/-- The second run starts at the cursor that the first one leaves. -/
theorem ringAppend_append (u v : List Word) (pos : Nat) (w : Memory) :
    ringAppend pos w (u ++ v) = ringAppend (pos + u.length) (ringAppend pos w u) v := by
  induction u generalizing pos w with
  | nil => rfl
  | cons x u ih =>
    rw [List.cons_append, ringAppend, ih, ringAppend, List.length_cons, Nat.add_right_comm, Nat.add_assoc]

/-- Only the slot of the cursor matters, so cursors a whole number of turns apart write the same ring. -/
theorem ringAppend_congr_mod (vs : List Word) {p q : Nat} (h : p % 1024 = q % 1024) (w : Memory) :
    ringAppend p w vs = ringAppend q w vs := by
  induction vs generalizing p q w with
  | nil => rfl
  | cons v vs ih =>
    have hslot : ringSlot p 0 = ringSlot q 0 := h
    rw [ringAppend, ringAppend, hslot, ih (Nat.ModEq.add_right 1 h)]

/-- A sample of the last turn is not overwritten: the slots of the later ones are others. -/
theorem ringRead_ringAppend (vs : List Word) (pos : Nat) (w : Memory) {i : Nat} (hi : i < vs.length)
    (hlast : vs.length ≤ i + 1024) : Memory.ringRead (ringAppend pos w vs) (ringSlot pos i) = vs[i] := by
  induction vs generalizing pos w i with
  | nil => cases hi
  | cons v vs ih =>
    rw [List.length_cons] at hi hlast
    cases i with
    | zero =>
      rw [ringAppend, ringRead_ringAppend_other, ringRead_ringWrite, if_pos rfl, List.getElem_cons_zero]
      intro k hk
      rw [ringSlot_succ]
      exact ringSlot_ne (by omega) (by omega)
    | succ i =>
      rw [ringAppend, ← ringSlot_succ, List.getElem_cons_succ]
      exact ih (pos + 1) _ (by omega) (by omega)

theorem toNat_writePos_doWwrite (s : State) (n : Nat) :
    (doWwrite n s).writePos.toNat = ringSlot s.writePos.toNat n :=
  (BitVec.toNat_ofNat _ _).trans (Nat.mod_eq_of_lt (ringSlot_lt _ _))

theorem ringRead_wave_doWwrite (s : State) {n i : Nat} (hi : i < n) (hlast : n ≤ i + 1024) :
    Memory.ringRead (doWwrite n s).wave (ringSlot s.writePos.toNat i) = elem s .sig i := by
  rw [doWwrite, ringRead_ringAppend _ _ _ (by rwa [length_block]) (by rwa [length_block]), getElem_block]

theorem ringRead_wave_doWwrite_other (s : State) {n j : Nat} (h : ∀ i, i < n → ringSlot s.writePos.toNat i ≠ j) :
    Memory.ringRead (doWwrite n s).wave j = Memory.ringRead s.wave j :=
  ringRead_ringAppend_other _ _ _ (by rwa [length_block])

/-- Settles O33: the check is that of the count, and the block of SIG is appended to the ring from its cursor on. -/
theorem wwriteAppendsToRing : Obligations.WwriteAppendsToRing := by
  intro s n hf
  refine ⟨fun h => ⟨doWwrite n.toNat s, ?_, fun i hi hlast => ringRead_wave_doWwrite s hi hlast,
    fun j _ hj => ringRead_wave_doWwrite_other s hj, toNat_writePos_doWwrite s _, doWwrite_frame s _⟩, fun h => ?_⟩
  · exact busWrite_sizeChecked_legal hf ((legalCount_iff _ _).2 h) _ _
  · exact busWrite_sizeChecked_illegal hf (mt (legalCount_iff _ _).1 (not_le.2 h)) _ _

/-- Settles O34: the runs compose, and the cursor counts modulo the ring. -/
theorem ringAppendSplits : Obligations.RingAppendSplits := by
  intro pos w u v
  rw [ringAppend_append]
  exact ringAppend_congr_mod v (Nat.mod_mod _ _).symm _

/-- Settles O35: with FAULT clear WSNAP is its two writes. -/
theorem wsnapCopiesRing : Obligations.WsnapCopiesRing := fun _ hf => busWrite_clear hf _

end Sys2Proof.Machine

/-! SUPPORT. The axis mapper's instructions as a host that finds FAULT clear sees them (46_axis_mapper.md R265 to R269):
each completes and writes its result registers. -/

namespace Sys2Proof.Machine

variable {s : State}

/-- The candidate of turn `k`, the multiplier `m` times the power of ten (46_axis_mapper.md R265). -/
def tickCandidate (d : Draw) (base : Word) (k : Nat) (m : Word) : Word := fmul (0 :: k :: d) m base

/-- The distance of the candidate of turn `k` from `raw` (46_axis_mapper.md R265). -/
def tickDistance (d : Draw) (raw base : Word) (k : Nat) (m : Word) : Word :=
  fabs (fsub (1 :: k :: d) raw (tickCandidate d base k m))

theorem tickTurn_none (d : Draw) (raw base : Word) (k : Nat) (m : Word) :
    tickTurn d raw base k m none = some (tickDistance d raw base k m, tickCandidate d base k m) := rfl

/-- A turn after the first keeps the nearer candidate, the earlier one on a tie (46_axis_mapper.md R265). -/
theorem tickTurn_some (d : Draw) (raw base : Word) (k : Nat) (m : Word) (best : Word × Word) :
    tickTurn d raw base k m (some best) =
      some (if flt (tickDistance d raw base k m) best.1 = true
        then (tickDistance d raw base k m, tickCandidate d base k m) else best) := by
  split
  case isTrue h => exact if_pos h
  case isFalse h => exact if_neg h

/-- The step is the candidate that the three turns leave. -/
theorem niceStep_eq (d : Draw) (raw : Word) : niceStep d raw =
    let base := pow10 (decade raw)
    let dist := tickDistance d raw base
    let cand := tickCandidate d base
    if flt (dist 3 f5) (if flt (dist 2 f2) (dist 1 f1) = true then dist 2 f2 else dist 1 f1) = true then cand 3 f5
    else if flt (dist 2 f2) (dist 1 f1) = true then cand 2 f2 else cand 1 f1 := by
  rw [niceStep, tickTurn_none, tickTurn_some, tickTurn_some, Option.map_some, Option.getD_some, apply_ite Prod.snd,
    apply_ite Prod.snd, apply_ite Prod.fst]

theorem tickStep_doTick (h : inTickDomain (tickRaw (drawAt s siteTick) s.tickRange s.tickCount) = true) :
    (doTick s).tickStep = niceStep (drawAt s siteTick) (tickRaw (drawAt s siteTick) s.tickRange s.tickCount) :=
  if_pos h

theorem tickSub_doTick (h : inTickDomain (tickRaw (drawAt s siteTick) s.tickRange s.tickCount) = true) :
    (doTick s).tickSub = fdiv (5 :: drawAt s siteTick) (doTick s).tickStep f5 := by
  rw [tickStep_doTick h]
  exact if_pos h

/-- Settles O36: inside the domain the step is what the three turns leave, and the draws are those of the turns. -/
theorem tickChoosesNiceStep : Obligations.TickChoosesNiceStep := by
  intro s hf
  refine ⟨doTick s, 0 :: drawAt s siteTick, busWrite_clear hf _, doTick_frame s, fun hfin hpos => ?_⟩
  have hdom : inTickDomain (tickRaw (drawAt s siteTick) s.tickRange s.tickCount) = true :=
    Bool.and_eq_true_iff.2 ⟨hfin, hpos⟩
  exact ⟨_, _, _, _, _, _, _, (tickStep_doTick hdom).trans (niceStep_eq _ _), tickSub_doTick hdom⟩

/-- Settles O37: with FAULT clear F2BIN is its one write. -/
theorem f2binFloorsFrequencyOverBinWidth : Obligations.F2binFloorsFrequencyOverBinWidth :=
  fun _ hf => ⟨_, _, busWrite_clear hf _⟩

/-- Settles O38: with FAULT clear BIN2F is its one write. -/
theorem bin2fScalesBinIndex : Obligations.Bin2fScalesBinIndex := fun _ hf => ⟨_, _, busWrite_clear hf _⟩

end Sys2Proof.Machine

/-! SUPPORT. The frequency of a bin and back (46_axis_mapper.md R271). The product `k * SAMPLE_RATE` has at most 24 bits
and FFT_SIZE is a power of two, so the frequency is exact; for `k > 0` so is the bin width, and for `k = 0` the quotient
is 0 whatever the width, as long as it is a number above 0. -/

namespace Sys2Proof.Machine

variable {w c : Word}

/-- A correctly rounded result that could be exact is exact. -/
theorem RoundsTo.exact_of_value_eq {q : ℚ} (h : RoundsTo w q) (hc : Machine.isFinite c = true) (hv : value c = q) :
    Machine.isFinite w = true ∧ value w = q := by
  have hv' : (value c : ℝ) = q := by rw [hv]
  exact ⟨h.isFinite hc hv', by exact_mod_cast h.eq_value hc hv'⟩

/-- A number of at most 24 bits over a power of two is the value of a pattern. -/
theorem exists_value_eq_div_two_pow {n e : Nat} (hn : n ≤ 2 ^ 24) (he : e ≤ 149) :
    ∃ c, isFinite c = true ∧ value c = (n : ℚ) / 2 ^ e := by
  obtain ⟨c, hc, hv⟩ := exists_value_eq_units (z := n) (j := 149 - e) (by simpa using hn) (by omega)
  refine ⟨c, hc, ?_⟩
  have hpow : (2 : ℝ) ^ 149 = 2 ^ (149 - e) * 2 ^ e := by rw [← pow_add, Nat.sub_add_cancel he]
  rw [hpow, mul_comm (2 ^ (149 - e) : ℝ) (2 ^ e), mul_div_mul_right _ _ (by positivity)] at hv
  exact Rat.cast_injective (α := ℝ) (by simpa using hv)

theorem value_u2f {n : Nat} (h : n ≤ 2 ^ 24) : value (u2f n) = n := by
  rw [u2f_eq_i2f, value_i2f_of_natAbs_le (by simpa using h), Int.cast_natCast]

/-- A whole number of at most 24 bits is divided by a power of two exactly. -/
theorem fdiv_two_pow_exact (d : Draw) {n e : Nat} (hf : isFinite w = true) (hv : value w = n) (hn : n ≤ 2 ^ 24)
    (he : e ≤ 23) :
    isFinite (fdiv d w (u2f (2 ^ e))) = true ∧ value (fdiv d w (u2f (2 ^ e))) = (n : ℚ) / 2 ^ e := by
  have hpow : 2 ^ e ≤ 2 ^ 24 := Nat.pow_le_pow_right (by decide) (by omega)
  have hround := fdiv_roundsTo d hf (isFinite_u2f hpow) (isZero_u2f (by positivity) hpow)
  rw [hv, value_u2f hpow, ← Rat.cast_div, Nat.cast_pow, Nat.cast_ofNat] at hround
  obtain ⟨c, hc, hcv⟩ := exists_value_eq_div_two_pow hn (by omega : e ≤ 149)
  exact hround.exact_of_value_eq hc hcv

/-- The range of a converted register: 0x4F80_0000 is 2^32. -/
theorem u2f_range {n : Nat} (h1 : 1 ≤ n) (h : n < 2 ^ 32) :
    isFinite (u2f n) = true ∧ value f1 ≤ value (u2f n) ∧ value (u2f n) ≤ value 0x4F800000#32 := by
  have hround := i2f_roundsTo n
  rw [← u2f_eq_i2f] at hround
  refine hround.between (by decide) (by decide) ?_ ?_
  · rw [value_f1]
    exact_mod_cast h1
  · rw [show value 0x4F800000#32 = 2 ^ 32 by decide +kernel]
    exact_mod_cast h.le

/-- The bin width is a number above 0, however far the sample rate is rounded: 0x3400_0000 is 2^-23. -/
theorem binWidth_pos (d : Draw) {sampleRate fftSize : Word} {e : Nat} (hr : 1 ≤ sampleRate.toNat)
    (hN : fftSize.toNat = 2 ^ e) (he : e ≤ 23) :
    isFinite (binWidth d sampleRate fftSize) = true ∧ isZero (binWidth d sampleRate fftSize) = false := by
  obtain ⟨hf, hlo, hhi⟩ := u2f_range hr sampleRate.isLt
  rw [value_f1] at hlo
  have hpow : 2 ^ e ≤ 2 ^ 23 := Nat.pow_le_pow_right (by decide) he
  have hle : 2 ^ e ≤ 2 ^ 24 := hpow.trans (by decide)
  have hbot : value 0x34000000#32 = 1 / 2 ^ 23 := by decide +kernel
  have h1 : (1 : ℚ) ≤ (2 ^ e : Nat) := by exact_mod_cast Nat.one_le_two_pow
  have h23 : ((2 ^ e : Nat) : ℚ) ≤ 2 ^ 23 := by exact_mod_cast hpow
  have hlow : value 0x34000000#32 ≤ value (u2f sampleRate.toNat) / value (u2f (2 ^ e)) := by
    rw [hbot, value_u2f hle]
    gcongr
  have hhigh : value (u2f sampleRate.toNat) / value (u2f (2 ^ e)) ≤ value 0x4F800000#32 := by
    rw [value_u2f hle]
    exact (div_le_self (zero_le_one.trans hlo) h1).trans hhi
  obtain ⟨hfin, hmin, -⟩ := (fdiv_roundsTo d hf (isFinite_u2f hle) (isZero_u2f (by positivity) hle)).between
    (lo := 0x34000000#32) (hi := 0x4F800000#32) (by decide) (by decide) (by exact_mod_cast hlow)
    (by exact_mod_cast hhigh)
  rw [binWidth, hN]
  refine ⟨hfin, isZero_of_value_ne_zero (ne_of_gt (lt_of_lt_of_le ?_ hmin))⟩
  rw [hbot]
  positivity

/-- A whole number in the range of i32 is its own floor (40_numerics.md R139). -/
theorem f2iFloor_of_value_eq {n : Nat} (hf : isFinite w = true) (hv : value w = n) (hn : n < 2 ^ 31) :
    f2iFloor w = n := by
  obtain ⟨-, -, -, hfin⟩ := floatToIntegerConversions w
  obtain ⟨hfloor, -⟩ := hfin hf
  rw [hfloor, hv, Int.floor_natCast]
  omega

/-- The product of a bin and the sample rate is exact; with bin 0 the rate may have any number of bits. -/
theorem fmul_bin_exact (d : Draw) {sampleRate bin : Word} (hr : 1 ≤ sampleRate.toNat)
    (hprod : bin.toNat * sampleRate.toNat ≤ 2 ^ 24) :
    isFinite (fmul d (i2f bin.toInt) (u2f sampleRate.toNat)) = true ∧
      value (fmul d (i2f bin.toInt) (u2f sampleRate.toNat)) = (bin.toNat * sampleRate.toNat : Nat) := by
  have hbin : bin.toNat ≤ 2 ^ 24 := (Nat.le_mul_of_pos_right _ hr).trans hprod
  have hfr : isFinite (u2f sampleRate.toNat) = true := (u2f_range hr sampleRate.isLt).1
  have hexact : value (u2f bin.toNat) * value (u2f sampleRate.toNat) = (bin.toNat * sampleRate.toNat : Nat) := by
    rcases Nat.eq_zero_or_pos bin.toNat with h0 | hpos
    · rw [h0, value_u2f (Nat.zero_le _), Nat.cast_zero, zero_mul, Nat.zero_mul, Nat.cast_zero]
    · have hrate : sampleRate.toNat ≤ 2 ^ 24 := (Nat.le_mul_of_pos_left _ hpos).trans hprod
      rw [value_u2f hbin, value_u2f hrate, Nat.cast_mul]
  have hround := fmul_roundsTo d (isFinite_u2f hbin) hfr
  rw [← Rat.cast_mul, hexact] at hround
  rw [BitVec.toInt_eq_toNat_of_lt (by omega), ← u2f_eq_i2f]
  exact hround.exact_of_value_eq (isFinite_u2f hprod) (value_u2f hprod)

theorem binToFreq_exact (d : Draw) {sampleRate fftSize bin : Word} {e : Nat} (hr : 1 ≤ sampleRate.toNat)
    (hN : fftSize.toNat = 2 ^ e) (he : e ≤ 23) (hprod : bin.toNat * sampleRate.toNat ≤ 2 ^ 24) :
    isFinite (binToFreq d sampleRate fftSize bin) = true ∧
      value (binToFreq d sampleRate fftSize bin) = (bin.toNat * sampleRate.toNat : Nat) / 2 ^ e := by
  obtain ⟨hf, hv⟩ := fmul_bin_exact (1 :: d) hr hprod
  rw [binToFreq, hN]
  exact fdiv_two_pow_exact _ hf hv hprod he

theorem binToFreq_div_binWidth (d1 d2 : Draw) {sampleRate fftSize bin : Word} {e : Nat} (hr : 1 ≤ sampleRate.toNat)
    (hN : fftSize.toNat = 2 ^ e) (he : e ≤ 23) (hprod : bin.toNat * sampleRate.toNat ≤ 2 ^ 24) :
    value (binToFreq d2 sampleRate fftSize bin) / value (binWidth d1 sampleRate fftSize) = bin.toNat := by
  obtain ⟨-, hfreq⟩ := binToFreq_exact d2 hr hN he hprod
  rcases Nat.eq_zero_or_pos bin.toNat with h0 | hpos
  · rw [hfreq, h0, Nat.zero_mul, Nat.cast_zero, zero_div, zero_div]
  · have hrate : sampleRate.toNat ≤ 2 ^ 24 := (Nat.le_mul_of_pos_left _ hpos).trans hprod
    obtain ⟨-, hwidth⟩ := fdiv_two_pow_exact d1 (isFinite_u2f hrate) (value_u2f hrate) hrate he
    rw [← hN] at hwidth
    have hr0 : (sampleRate.toNat : ℚ) ≠ 0 := Nat.cast_ne_zero.2 (by omega)
    rw [hfreq, binWidth, hwidth, div_div_div_cancel_right₀ (by positivity), Nat.cast_mul,
      mul_div_cancel_right₀ _ hr0]

/-- Settles O39: the frequency over the bin width is the bin, a number of at most 24 bits. -/
theorem binFrequencyRoundTrip : Obligations.BinFrequencyRoundTrip := by
  intro d1 d2 sampleRate fftSize bin hpow hmax hr hprod
  obtain ⟨e, hN⟩ := (isPow2_iff _).1 hpow
  have he : e ≤ 23 := (Nat.pow_le_pow_iff_right (by decide)).1 (hN ▸ hmax)
  have hbin : bin.toNat ≤ 2 ^ 24 := (Nat.le_mul_of_pos_right _ hr).trans hprod
  obtain ⟨hf, hv⟩ := binToFreq_exact d2 hr hN he hprod
  refine ⟨hf, ?_, ?_⟩
  · rw [hv, hN, Nat.cast_mul, Nat.cast_pow, Nat.cast_ofNat]
  · obtain ⟨hwf, hwz⟩ := binWidth_pos (1 :: d1) hr hN he
    have hround := fdiv_roundsTo (0 :: d1) hf hwf hwz
    rw [← Rat.cast_div, binToFreq_div_binWidth _ _ hr hN he hprod] at hround
    obtain ⟨hqf, hqv⟩ := hround.exact_of_value_eq (isFinite_u2f hbin) (value_u2f hbin)
    exact f2iFloor_of_value_eq hqf hqv (by omega)

end Sys2Proof.Machine

/-! SUPPORT. START, STOP and CYCLE as a host that finds FAULT clear sees them (47_pipeline_and_system.md R291, R292,
R293): the source's answers, the read of a cycle, and a complete cycle as a chain of the unit commands. -/

namespace Sys2Proof.Machine

variable {s : State} {N : Word}

/-- Leaving Running (47_pipeline_and_system.md R292; 60_exceptions.md R340). -/
theorem releaseSource_of_running (h : s.pstate = .running) :
    releaseSource s = { s with pstate := .stopped, srcEvents := s.srcEvents ++ [.srcRelease] } := by
  rw [releaseSource, if_pos h, emit]

theorem releaseSource_of_not_running (h : s.pstate ≠ .running) : releaseSource s = s := if_neg h

/-- Settles O41: with FAULT clear STOP is the release of the source. -/
theorem stopReleasesSourceOnce : Obligations.StopReleasesSourceOnce := by
  intro s hf
  have hexec : exec .stop s = .next (releaseSource s) := busWrite_clear hf _
  rw [hexec]
  exact ⟨fun h => congrArg _ (releaseSource_of_running h), fun h => congrArg _ (releaseSource_of_not_running h)⟩

theorem doStart_of_not_idle (h : s.pstate ≠ .idle) : doStart s = s := if_neg h

theorem doStart_of_yes (h : s.pstate = .idle) (ha : srcAvail s = true) :
    doStart s = { s with pstate := .running, srcUnav := false, srcEvents := s.srcEvents ++ [.srcStart],
                         availAnswers := s.availAnswers.tail } := by
  simp [doStart, h, ha]

theorem doStart_of_no (h : s.pstate = .idle) (ha : srcAvail s = false) :
    doStart s = { s with srcUnav := true, availAnswers := s.availAnswers.tail } := by
  simp [doStart, h, ha]

/-- Settles O40: with FAULT clear START is its effect, which in Idle goes by the source's answer. -/
theorem startAsksSourceInIdle : Obligations.StartAsksSourceInIdle := by
  intro s hf
  have hexec : exec .start s = .next (doStart s) := busWrite_clear hf _
  rw [hexec]
  refine ⟨fun h => ⟨srcAvail s, fun b rest hb => srcAvail_cons hb, fun ha => ?_, fun ha => ?_⟩, fun h => ?_⟩
  · rw [doStart_of_yes h ha]
  · rw [doStart_of_no h ha]
  · rw [doStart_of_not_idle h]

theorem exec_cycle (hf : s.faulted = false) : exec .cycle s = .next (doCycle s) := busWrite_clear hf _

theorem doCycle_of_not_running (h : s.pstate ≠ .running) : doCycle s = s := if_neg h

theorem doCycle_of_short (h : s.pstate = .running) (hc : (srcReadCount s).toInt < s.fftSize.toNat) :
    doCycle s = { acquire s.fftSize.toNat s with cyc := .skipped } :=
  (if_pos h).trans (if_pos hc)

theorem doCycle_of_complete (h : s.pstate = .running) (hc : (s.fftSize.toNat : Int) ≤ (srcReadCount s).toInt) :
    doCycle s = { processFrame s.fftSize.toNat (acquire s.fftSize.toNat s) with cyc := .completed } :=
  (if_pos h).trans (if_neg (not_lt.2 hc))

/-- A PCM element holds a sample as it is delivered (10_state.md R53). -/
theorem pcmWord_signExtend (x : Sample) : pcmWord (x.signExtend 32) = x.signExtend 32 := by
  have hx : (x.signExtend 32).setWidth 16 = x := by
    ext i hi
    have hword : i < 32 := by omega
    simp [BitVec.getElem_signExtend, hi, hword]
  rw [pcmWord, hx]

/-- The delivered samples are in PCM after the read (47_pipeline_and_system.md R293). -/
theorem elem_acquire (s : State) {n i : Nat} (hi : i < deliveredCount (srcReadCount s).toInt n) :
    elem (acquire n s) .pcm i = (srcReadSample s i).signExtend 32 := by
  rw [acquire, elem_storeBlock_same .pcm _ _ (by simpa using hi), elementWord, if_pos rfl, List.getElem_map,
    List.getElem_range, pcmWord_signExtend]

/-- The read of a cycle writes the delivered elements of PCM alone. -/
theorem peek_acquire_other (s : State) {n a : Nat}
    (h : a < scratchBase .pcm ∨ scratchBase .pcm + deliveredCount (srcReadCount s).toInt n ≤ a) :
    peek (acquire n s) a = peek s a :=
  peek_storeBlock_range_other .pcm _ _ h

/-- Settles O42: outside Running the effect is none; a short read is the read and the outcome; the source answers as
its list says. -/
theorem cycleIgnoredOrShort : Obligations.CycleIgnoredOrShort := by
  intro s hf
  rw [exec_cycle hf]
  refine ⟨fun h => congrArg _ (doCycle_of_not_running h), fun h hc => ?_, fun r rest hr => ?_⟩
  · have hcount : (deliveredCount (srcReadCount s).toInt s.fftSize.toNat : Int) = max (srcReadCount s).toInt 0 := by
      unfold deliveredCount
      omega
    rw [doCycle_of_short h hc]
    refine ⟨_, rfl, fun i _ hi => ?_, fun a ha => ?_, rfl⟩
    · exact elem_acquire s (by omega)
    · exact peek_acquire_other s (by simp only [scratchBase]; omega)
  · exact ⟨srcReadCount_cons hr, fun i hi => by rw [srcReadSample_cons hr hi, List.getElem?_eq_getElem hi]⟩

/-- What holds before each unit command of a complete cycle: the invariant, FAULT clear, and the FFT_SIZE the cycle
began with. From it every length operand is legal. -/
structure CycleReady (N : Word) (s : State) : Prop where
  inv : Inv s
  clear : s.faulted = false
  size : s.fftSize = N

namespace CycleReady

/-- FFT_SIZE as the length operand of a unit command (47_pipeline_and_system.md R293). -/
theorem lenNat_size (h : CycleReady N s) : lenNat (N.setWidth 24) = N.toNat := by
  rw [← h.size, lenNat, h.inv.toNat_setWidth_fftSize]

theorem legal (h : CycleReady N s) : isPow2 N.toNat = true ∧ 2 ≤ N.toNat ∧ N.toNat ≤ s.params.nmax :=
  h.size ▸ h.inv.fftSize_legal

/-- A unit command whose size check passes is its effect. -/
theorem exec_sizeChecked (h : CycleReady N s) {check : Nat → Bool} (info : Word) (e : Nat → State → State)
    (hl : check N.toNat = true) :
    busWrite s (sizeChecked (check (lenNat (N.setWidth 24))) info (e (lenNat (N.setWidth 24)))) =
      .next (e N.toNat s) := by
  rw [h.lenNat_size]
  exact busWrite_sizeChecked_legal h.clear hl _ _

theorem acquire (h : CycleReady N s) : CycleReady N (acquire N.toNat s) :=
  ⟨h.inv.acquire h.legal.2.2, h.clear, h.size⟩

theorem pcm2f (h : CycleReady N s) : CycleReady N (doPcm2f N.toNat s) :=
  ⟨h.inv.doPcm2f h.legal.2.2, h.clear, h.size⟩

theorem exec_pcm2f (h : CycleReady N s) : exec (.pcm2f (N.setWidth 24)) s = .next (doPcm2f N.toNat s) :=
  h.exec_sizeChecked _ doPcm2f ((legalCount_iff _ _).2 h.legal.2.2)

theorem wingen (h : CycleReady N s) : CycleReady N (doWingen N.toNat s) :=
  ⟨h.inv.doWingen ((legalPow2_iff _ _ _).2 h.legal), h.clear, h.size⟩

theorem exec_wingen (h : CycleReady N s) : exec (.wingen (N.setWidth 24)) s = .next (doWingen N.toNat s) :=
  h.exec_sizeChecked _ doWingen ((legalPow2_iff _ _ _).2 h.legal)

theorem wmul (h : CycleReady N s) : CycleReady N (doWmul N.toNat s) :=
  ⟨h.inv.doWmul h.legal.2.2, h.clear, h.size⟩

theorem exec_wmul (h : CycleReady N s) (hw : s.winN = N) :
    exec (.wmul (N.setWidth 24)) s = .next (doWmul N.toNat s) := by
  refine h.exec_sizeChecked (check := legalWindowed s.winN) _ doWmul ?_
  have hpos : N ≠ 0#32 := by
    rintro rfl
    exact absurd h.legal.2.1 (by decide)
  simpa [legalWindowed, hw] using hpos

theorem xform (h : CycleReady N s) : CycleReady N (doXform N.toNat s) :=
  ⟨h.inv.doXform h.legal.1 h.legal.2.2, h.clear, h.size⟩

theorem exec_xform (h : CycleReady N s) : exec (.xform (N.setWidth 24)) s = .next (doXform N.toNat s) := by
  obtain ⟨hpow, hmin, hmax⟩ := h.legal
  exact h.exec_sizeChecked _ doXform ((legalPow2_iff _ _ _).2 ⟨hpow, by omega, hmax⟩)

theorem build (h : CycleReady N s) : CycleReady N (doBuild s) :=
  ⟨h.inv.doBuild, (faulted_doBuild s).trans h.clear, (congrArg State.fftSize (doBuild_frame s) :).trans h.size⟩

theorem hpush (h : CycleReady N s) (hlen : s.specLen ≠ 0#32) : CycleReady N (doHpush s) :=
  ⟨h.inv.doHpush hlen, h.clear, h.size⟩

theorem exec_hpush (h : CycleReady N s) (hlen : s.specLen ≠ 0#32) : exec .hpush s = .next (doHpush s) :=
  busWrite_sizeChecked_legal h.clear (bne_iff_ne.2 hlen) _ _

theorem exec_wwrite (h : CycleReady N s) : exec (.wwrite (N.setWidth 24)) s = .next (doWwrite N.toNat s) :=
  h.exec_sizeChecked _ doWwrite ((legalCount_iff _ _).2 h.legal.2.2)

end CycleReady

theorem refreshWindow_of_eq (h : s.winN = N) : refreshWindow N.toNat s = s := if_pos (congrArg _ h)

theorem refreshWindow_of_ne (h : s.winN ≠ N) : refreshWindow N.toNat s = doWingen N.toNat s :=
  if_neg (mt BitVec.eq_of_toNat_eq h)

/-- The window is of the asked length afterwards, generated now or before (41_window_and_conditioning.md R164). -/
theorem winN_refreshWindow (s : State) (N : Word) : (refreshWindow N.toNat s).winN = N := by
  by_cases h : s.winN = N
  · rw [refreshWindow_of_eq h, h]
  · rw [refreshWindow_of_ne h, doWingen_frame, BitVec.ofNat_toNat, BitVec.setWidth_eq]

theorem CycleReady.refreshWindow (h : CycleReady N s) : CycleReady N (refreshWindow N.toNat s) := by
  by_cases hw : s.winN = N
  · rwa [refreshWindow_of_eq hw]
  · rw [refreshWindow_of_ne hw]
    exact h.wingen

theorem CycleReady.exec_refreshWindow (h : CycleReady N s) (hw : s.winN ≠ N) :
    exec (.wingen (N.setWidth 24)) s = .next (Machine.refreshWindow N.toNat s) := by
  rw [refreshWindow_of_ne hw]
  exact h.exec_wingen

/-- Settles O43: each unit command of the chain leaves a state in which the next one's size check passes; the window
tag after the refresh passes WMUL's, and BUILD leaves a frame for HPUSH. -/
theorem completeCycleIsUnitCommandSequence : Obligations.CompleteCycleIsUnitCommandSequence := by
  intro s hinv hf hrun hc
  have hcount : deliveredCount (srcReadCount s).toInt s.fftSize.toNat = s.fftSize.toNat := by
    unfold deliveredCount
    omega
  have h0 : CycleReady s.fftSize (acquire s.fftSize.toNat s) := CycleReady.acquire ⟨hinv, hf, rfl⟩
  have h1 := h0.pcm2f
  have h2 := h1.refreshWindow
  have h3 := h2.wmul
  have h4 := h3.xform
  have h5 := h4.build
  have hlen := h4.inv.doBuild_specLen_ne_zero
  have h6 := h5.hpush hlen
  refine ⟨_, _, _, _, _, _, _, _, acquire_frame s _, fun i hi => elem_acquire s (hcount.symm ▸ hi),
    fun a ha => peek_acquire_other s (hcount.symm ▸ ha), h0.exec_pcm2f, fun hw => refreshWindow_of_eq hw,
    fun hw => h1.exec_refreshWindow hw, h2.exec_wmul (winN_refreshWindow _ _), h3.exec_xform, exec_build h4.clear,
    h5.exec_hpush hlen, h6.exec_wwrite, ?_, h6.clear⟩
  rw [exec_cycle hf, doCycle_of_complete hrun hc, processFrame_eq]

end Sys2Proof.Machine

/-! SUPPORT. The faults: what taking one writes, what the faulted state still does, and the causes of InvalidSize and
BusError (60_exceptions.md R331, R336, R340, R342, R343; 20_memory.md R87). -/

namespace Sys2Proof.Machine

variable {s t : State} {a : Word}

/-- Settles O6: the source is released in Running alone, and the record is written in every state. -/
theorem faultEntryWritesRecordAndReleasesSource : Obligations.FaultEntryWritesRecordAndReleasesSource := by
  intro code info s
  refine ⟨fun h => ?_, fun h => ?_⟩
  · rw [raise, releaseSource_of_running h]
  · rw [raise, releaseSource_of_not_running h]

/-- A read of an unmapped address returns 0, and raises BusError unless FAULT is set (60_exceptions.md R336). -/
theorem exec_rd_unmapped (h : ¬ Mapped s.params a) :
    exec (.rd a) s = .next { (if s.faulted then s else raise codeBusError a s) with readData := 0#32 } := by
  simp only [exec, execRd, doRead, (locate_eq_none_iff s.params a).2 h]

theorem exec_rd_unmapped_of_faulted (hf : s.faulted = true) (h : ¬ Mapped s.params a) :
    exec (.rd a) s = .next { s with readData := 0#32 } := by
  rw [exec_rd_unmapped h, if_pos hf]

/-- In the faulted state every instruction but a read is discarded (60_exceptions.md R342 a). -/
theorem exec_of_faulted (hf : s.faulted = true) {i : Instr} (hi : ∀ a, i ≠ .rd a) : exec i s = .next s := by
  cases i with
  | rd a => exact absurd rfl (hi a)
  | _ => exact busWrite_faulted hf _

/-- In the faulted state a read, at a mapped address or not, changes only the word it returns (60_exceptions.md
R342 b). -/
theorem exec_rd_of_faulted (hf : s.faulted = true) (a : Word) :
    ∃ w, exec (.rd a) s = .next { s with readData := w } := by
  by_cases h : Mapped s.params a
  · exact readOfMappedAddressChangesNothing s a h
  · exact ⟨_, exec_rd_unmapped_of_faulted hf h⟩

/-- In the faulted state whatever a transaction decodes to changes at most the word returned to a reader. -/
theorem runDecoded_of_faulted (hf : s.faulted = true) (d : Decoded) :
    ∃ w, runDecoded d s = .next { s with readData := w } := by
  cases d with
  | illegalOpcode | nonzeroField => exact ⟨s.readData, busWrite_faulted hf _⟩
  | ok i =>
    by_cases hi : ∀ a, i ≠ .rd a
    · exact ⟨s.readData, exec_of_faulted hf hi⟩
    · push Not at hi
      obtain ⟨a, rfl⟩ := hi
      exact exec_rd_of_faulted hf a

/-- Settles O7: the writes are discarded, a read changes only the word it returns, and a step on a transaction is one
or the other, or the refusal of an illegal word. -/
theorem faultedStateDiscardsWrites : Obligations.FaultedStateDiscardsWrites := by
  intro s hf
  refine ⟨fun i hi => exec_of_faulted hf hi, exec_rd_of_faulted hf, fun a h => exec_rd_unmapped_of_faulted hf h,
    fun x rest hbus => ?_⟩
  rw [step_eq_runDecoded hbus]
  exact runDecoded_of_faulted (s := fetched rest s) hf (decode x)

/-- Each of the read-only offsets is that of a register whose write is a BusError (60_exceptions.md R336). -/
theorem exists_register_of_mem_readOnlyOffsets {k : Nat} (hk : k ∈ readOnlyOffsets) :
    ∃ r, regTable[k]? = some r ∧ ∀ addr v s, writeReg r addr v s = raise codeBusError addr s := by
  fin_cases hk <;> exact ⟨_, rfl, fun _ _ _ => rfl⟩

theorem exec_wr (hf : s.faulted = false) (a v : Word) : exec (.wr a v) s = .next (doWrite a v s) :=
  busWrite_clear hf _

theorem doWrite_unmapped (h : ¬ Mapped s.params a) (v : Word) : doWrite a v s = raise codeBusError a s := by
  simp only [doWrite, (locate_eq_none_iff s.params a).2 h]

theorem doWrite_of_locate_csr {r : Reg} (h : locate s.params a = some (.csr r)) (v : Word) :
    doWrite a v s = writeReg r a v s := by
  simp only [doWrite, h]

theorem doWrite_of_mem_readOnlyOffsets (h : a.toNat ∈ readOnlyOffsets) (v : Word) :
    doWrite a v s = raise codeBusError a s := by
  obtain ⟨r, hr, hwrite⟩ := exists_register_of_mem_readOnlyOffsets h
  have hloc := locate_register s.params hr
  rw [BitVec.ofNat_toNat, BitVec.setWidth_eq] at hloc
  rw [doWrite_of_locate_csr hloc, hwrite]

/-- From region 9 on there are only the snapshot banks (20_memory.md R74). -/
theorem locateIn_of_le_region {p : Params} {region : Nat} (h : 9 ≤ region) (off : Nat) {loc : Loc}
    (hloc : locateIn p region off = some loc) :
    (∃ j, loc = .waveBank j) ∨ (∃ i j, loc = .histData i j) ∨ ∃ i, loc = .histFlen i := by
  unfold locateIn at hloc
  split at hloc
  case h_10 | h_11 | h_12 =>
    rw [Option.ite_none_right_eq_some, Option.some.injEq] at hloc
    obtain ⟨-, rfl⟩ := hloc
    simp
  case h_13 => cases hloc
  all_goals omega

theorem doWrite_of_le_region (h : 9 ≤ a.toNat / 2 ^ 24) (v : Word) : doWrite a v s = raise codeBusError a s := by
  cases hloc : locate s.params a with
  | none => exact doWrite_unmapped ((locate_eq_none_iff _ _).1 hloc) v
  | some loc =>
    have hin := hloc
    rw [locate_eq, Option.ite_none_right_eq_some] at hin
    rcases locateIn_of_le_region h _ hin.2 with ⟨j, rfl⟩ | ⟨i, j, rfl⟩ | ⟨i, rfl⟩ <;> simp only [doWrite, hloc]

/-- Settles O9: an unmapped address names no location, and the read-only locations are the listed registers and the
banks. -/
theorem busErrorCauses : Obligations.BusErrorCauses := by
  intro s a
  refine ⟨fun hf h => ?_, exec_rd_unmapped_of_faulted, fun v hf _ h => ?_⟩
  · rw [exec_rd_unmapped h, hf, if_neg Bool.false_ne_true]
  · rw [exec_wr hf]
    rcases h with h | ⟨-, h | h⟩
    · rw [doWrite_unmapped h]
    · rw [doWrite_of_mem_readOnlyOffsets h]
    · rw [doWrite_of_le_region h]

/-- The operations that can raise InvalidSize, each with the condition under which it does (60_exceptions.md R331). -/
def InvalidSizeCause (s : State) : Instr → Prop
  | .wrFftSize v => ¬ (isPow2 v.toNat = true ∧ 2 ≤ v.toNat ∧ v.toNat ≤ s.params.nmax)
  | .wrSpecLen v => s.params.nmax / 2 < v.toNat
  | .wingen n | .magn n => ¬ (isPow2 n.toNat = true ∧ 2 ≤ n.toNat ∧ n.toNat ≤ s.params.nmax)
  | .xform n => ¬ (isPow2 n.toNat = true ∧ 1 ≤ n.toNat ∧ n.toNat ≤ s.params.nmax)
  | .pcm2f n | .wwrite n => s.params.nmax < n.toNat
  | .wmul n => s.winN = 0#32 ∨ n.setWidth 32 ≠ s.winN
  | .hpush => s.specLen = 0#32
  | _ => False

/-- Two names of one register are one address (20_memory.md R74, region 0). -/
theorem eq_ofNat_of_locate_csr {p : Params} {r : Reg} {k : Nat} (hk : regTable[k]? = some r)
    (h : locate p a = some (.csr r)) : a = BitVec.ofNat 32 k := by
  have hreg := regTable_of_locate h
  have hlt : a.toNat < regTable.length := (List.getElem?_eq_some_iff.1 hreg).1
  have hnodup : regTable.Nodup := by decide
  rw [← (List.getElem?_inj hlt hnodup).1 (hreg.trans hk.symm), BitVec.ofNat_toNat, BitVec.setWidth_eq]

/-- A write to a register without a size check raises BusError or does not touch FAULT. -/
theorem writeReg_raises_or_keeps_faulted {r : Reg} (hfft : r ≠ .fftSize) (hspec : r ≠ .specLen) (addr v : Word)
    (s : State) : writeReg r addr v s = raise codeBusError addr s ∨ (writeReg r addr v s).faulted = s.faulted := by
  cases r with
  | fftSize => exact absurd rfl hfft
  | specLen => exact absurd rfl hspec
  | cmd | sampleRate | updateIntervalMs | maxHistory | minFreqHz | maxFreqHz | tickRange | tickCount | mapArg =>
    exact .inr rfl
  | status | errCode | errInfo | effIntervalMs | histLen | writePos | winN | zmin | zmax | peak | tickStep | tickSub
  | mapRes | hsnapLen | wsnapPos | srcCount | nmaxR | hcapR => exact .inl rfl

/-- A generic write raises BusError or does not touch FAULT: the registers with a size check have rows of their own
(30_encoding.md R104). -/
theorem doWrite_raises_or_keeps_faulted {v : Word} (hwf : (Instr.wr a v).wf = true) (s : State) :
    doWrite a v s = raise codeBusError a s ∨ (doWrite a v s).faulted = s.faulted := by
  obtain ⟨-, hfft, -, hspec⟩ := (wf_wr_iff a v).1 hwf
  unfold doWrite
  split
  case h_2 r hloc =>
    refine writeReg_raises_or_keeps_faulted ?_ ?_ a v s
    · rintro rfl
      exact hfft (eq_ofNat_of_locate_csr rfl hloc)
    · rintro rfl
      exact hspec (eq_ofNat_of_locate_csr rfl hloc)
  case h_3 => exact .inr rfl
  all_goals exact .inl rfl

/-- An instruction that takes the fault InvalidSize meets its condition (60_exceptions.md R331). -/
theorem invalidSizeCause_of_exec {i : Instr} (hf : s.faulted = false) (hwf : i.wf = true) (h : exec i s = .next t)
    (ht : t.faulted = true) (hcode : t.errCode = 1#32) : InvalidSizeCause s i := by
  have unchecked {e : State → State} (h : busWrite s e = .next t) (he : (e s).faulted = s.faulted) : False :=
    absurd ((busWrite_keeps_faulted h he).trans hf) (by simp [ht])
  have checked {legal : Bool} {info : Word} {e : State → State} (h : busWrite s (sizeChecked legal info e) = .next t)
      (he : (e s).faulted = s.faulted) : ¬ legal = true :=
    Bool.eq_false_iff.1 (sizeChecked_faults hf h ht he)
  cases i with
  | wrFftSize v => exact mt (legalPow2_iff _ _ _).2 (checked h rfl)
  | wrSpecLen v => exact not_le.1 (mt decide_eq_true (checked h rfl))
  | wingen n => exact mt (legalPow2_iff _ _ _).2 (checked h (faulted_doWingen s _))
  | magn n => exact mt (legalPow2_iff _ _ _).2 (checked h (faulted_doMagn s _))
  | xform n => exact mt (legalPow2_iff _ _ _).2 (checked h (faulted_doXform s _))
  | pcm2f n => exact not_le.1 (mt (legalCount_iff _ _).2 (checked h (faulted_doPcm2f s _)))
  | wwrite n => exact not_le.1 (mt (legalCount_iff _ _).2 (checked h (faulted_doWwrite s _)))
  | wmul n =>
    have hw := mt (legalWindowed_iff s.winN n).2 (checked h (faulted_doWmul s _))
    exact or_iff_not_imp_left.2 (not_and.1 hw)
  | hpush => exact not_not.1 (mt bne_iff_ne.2 (checked h (faulted_doHpush s)))
  | zoom => exact unchecked h (faulted_doZoom s)
  | select => exact unchecked h (faulted_doSelect s)
  | build => exact unchecked h (faulted_doBuild s)
  | hsnap => exact unchecked h (faulted_doHsnap s)
  | wsnap => exact unchecked h (faulted_doWsnap s)
  | tick => exact unchecked h (faulted_doTick s)
  | f2bin => exact unchecked h (faulted_doF2bin s)
  | bin2f => exact unchecked h (faulted_doBin2f s)
  | start => exact unchecked h (faulted_doStart s)
  | stop => exact unchecked h (faulted_releaseSource s)
  | cycle => exact unchecked h (faulted_doCycle s)
  | wrMaxHistory v => exact unchecked h (faulted_doWriteMaxHistory s v)
  | wr addr data =>
    rcases doWrite_raises_or_keeps_faulted hwf s with hbus | hkeep
    · obtain rfl := Host.Outcome.next.inj ((exec_wr hf addr data).symm.trans h)
      rw [hbus, raise_errCode] at hcode
      exact absurd hcode (by decide)
    · exact unchecked h hkeep
  | rd addr =>
    by_cases hm : Mapped s.params addr
    · obtain ⟨w, hw⟩ := readOfMappedAddressChangesNothing s addr hm
      obtain rfl := Host.Outcome.next.inj (hw.symm.trans h)
      exact absurd (hf.symm.trans ht) (by decide)
    · obtain rfl := Host.Outcome.next.inj (((busErrorCauses s addr).1 hf hm).symm.trans h)
      exact absurd hcode (by simp)

/-- Settles O8: each condition fails the size check of its operation, and `InvalidSizeCause` lists the conditions. -/
theorem invalidSizeCauses : Obligations.InvalidSizeCauses := by
  intro s hf
  refine ⟨fun v => (checkedRegisterWrites s v hf).2.1, fun v => (checkedRegisterWrites s v hf).2.2.2,
    fun n => (wingenWritesHannWindow s n hf).2, fun n => (pcm2fConvertsSamplesExactly s n hf).2,
    fun n => (wmulMultipliesByWindow s n hf).2, fun n => (xformWritesTransformOfWindowedSignal s n hf).2,
    fun n => (magnWritesNormalisedMagnitudes s n hf).2, fun n => (wwriteAppendsToRing s n hf).2,
    (hpushInsertsFrameAndEvictsOldest s hf).2, fun i t hwf h ht hcode => ?_⟩
  have hcause := invalidSizeCause_of_exec hf hwf h ht hcode
  cases i with
  | wrFftSize v => exact .inl ⟨v, rfl, hcause⟩
  | wrSpecLen v => exact .inr (.inl ⟨v, rfl, hcause⟩)
  | wingen n => exact .inr (.inr (.inl ⟨n, rfl, hcause⟩))
  | pcm2f n => exact .inr (.inr (.inr (.inl ⟨n, rfl, hcause⟩)))
  | wmul n => exact .inr (.inr (.inr (.inr (.inl ⟨n, rfl, hcause⟩))))
  | xform n => exact .inr (.inr (.inr (.inr (.inr (.inl ⟨n, rfl, hcause⟩)))))
  | magn n => exact .inr (.inr (.inr (.inr (.inr (.inr (.inl ⟨n, rfl, hcause⟩))))))
  | wwrite n => exact .inr (.inr (.inr (.inr (.inr (.inr (.inr (.inl ⟨n, rfl, hcause⟩)))))))
  | hpush => exact .inr (.inr (.inr (.inr (.inr (.inr (.inr (.inr ⟨rfl, hcause⟩)))))))
  | _ => exact hcause.elim

end Sys2Proof.Machine

/-! SUPPORT. Reset: the state it leads to, and that the invariant holds there (70_reset_and_hazards.md R370, R371). -/

namespace Sys2Proof.Machine

/-- Settles O11: the clauses of the invariant, one by one, are `inv_resetOf`. -/
theorem resetSatisfiesInvariant : Obligations.ResetSatisfiesInvariant := fun _ h => inv_resetOf h

theorem step_of_reset {s : State} {rest : List BusInput} (h : s.bus = .reset :: rest) :
    step s = .next (takeReset (fetched rest s)) := by
  simp only [step, h]

/-- Settles O13: the record of past events takes the events since reset and, in Running, the release. -/
theorem resetInputGivesResetState : Obligations.ResetInputGivesResetState := by
  intro s rest hbus
  have hevents : (releaseSource (fetched rest s)).srcEvents =
      s.srcEvents ++ (if s.pstate = .running then [.srcRelease] else []) := by
    rw [releaseSource_srcEvents, fetched_pstate, fetched_srcEvents]
    split
    · rfl
    · exact (List.append_nil _).symm
  rw [step_of_reset hbus, takeReset, hevents, ← List.append_assoc]
  rfl

end Sys2Proof.Machine

/-! SUPPORT. Plain writes: the seven plain registers and the elements of the scratch memories (47_pipeline_and_system.md
R297; 20_memory.md R86). -/

namespace Sys2Proof.Machine

variable {s : State}

/-- A generic write at a register's offset is the write to that register. -/
theorem exec_wr_register (hf : s.faulted = false) {k : Nat} {r : Reg} (h : regTable[k]? = some r) (v : Word) :
    exec (.wr (BitVec.ofNat 32 k) v) s = .next (writeReg r (BitVec.ofNat 32 k) v s) := by
  rw [exec_wr hf, doWrite_of_locate_csr (locate_register s.params h)]

/-- A generic write at the address of a scratch element stores the element. -/
theorem exec_wr_scratch (hf : s.faulted = false) (hp : s.params.legal = true) {m : ScratchMem} {i : Nat}
    (hi : i < scratchSize s.params m) (v : Word) :
    exec (.wr (BitVec.ofNat 32 (scratchBase m + i)) v) s = .next (storeElem m i v s) := by
  simp only [exec_wr hf, doWrite, locate_scratch hp m hi]

/-- Settles O47: each address names its register or element, and the write stores the word there alone. -/
theorem plainWritesStoreTheirWord : Obligations.PlainWritesStoreTheirWord := by
  intro s v hf hp
  refine ⟨exec_wr_register hf (k := 0x04) rfl v, exec_wr_register hf (k := 0x06) rfl v,
    exec_wr_register hf (k := 0x09) rfl v, exec_wr_register hf (k := 0x0A) rfl v, exec_wr_register hf (k := 0x12) rfl v,
    exec_wr_register hf (k := 0x13) rfl v, exec_wr_register hf (k := 0x16) rfl v,
    fun m i hi => ⟨storeElem m i v s, exec_wr_scratch hf hp hi v, ?_, fun a ha => ?_, rfl⟩⟩
  · exact (peek_storeElem m i v s _).trans (if_pos rfl)
  · exact (peek_storeElem m i v s a).trans (if_neg ha)

end Sys2Proof.Machine
